-- ==== Sys2Proof/Word.lean ====
section
/-! DEFINITION. The word types of BFX: bytes, 32-bit bus words, 18-bit bus addresses (20_memory R60). -/

namespace Sys2Proof

/-- A byte of a frame, of a payload or of a RAM word. -/
abbrev Byte := BitVec 8

/-- A bus word: every register and every RAM word is 32 bits (20_memory R60). -/
abbrev Word := BitVec 32

/-- A byte address on the host bus, ADDR_BITS = 18 (00_scope R9; 20_memory R60). -/
abbrev BusAddr := BitVec 18

/-- An IEEE 754 binary64 bit pattern (00_scope R13). -/
abbrev F64 := BitVec 64

end Sys2Proof
end

