-- ==== Sys2Proof/Syntax.lean ====
section
/-! DEFINITION. The instructions of BFX: one constructor for each row of spec/opcode_table.json. Seven are commands, 32-bit
words written to CMD (30_encoding R83, R84); six are the PCI rows, the header of a CAN frame that PUSH_FRAME consumes
(30_encoding R89 to R93). -/

namespace Sys2Proof

/-- One row of spec/opcode_table.json. A command keeps its CH and IDX fields whether its opcode uses them or not (30_encoding
R85: an unused field is ignored), so that no bit of a command word is dropped (log 16). -/
inductive Instr where
  /-- NOP, OP = 0x00; CH and IDX ignored (40_command_dispatch R138). -/
  | nop (ch : BitVec 4) (idx : BitVec 10)
  /-- PUSH_FRAME, OP = 0x01; CH and IDX ignored (41_frame_ingress R150). -/
  | pushFrame (ch : BitVec 4) (idx : BitVec 10)
  /-- END_CAPTURE, OP = 0x02; CH and IDX ignored (42_reassembly R193). -/
  | endCapture (ch : BitVec 4) (idx : BitVec 10)
  /-- CH_RESET, OP = 0x03; IDX ignored (42_reassembly R195). -/
  | chReset (ch : BitVec 4) (idx : BitVec 10)
  /-- RESET_CHANNELS, OP = 0x04; CH and IDX ignored (42_reassembly R197). -/
  | resetChannels (ch : BitVec 4) (idx : BitVec 10)
  /-- DECODE, OP = 0x05 (43_signal_decode R213). -/
  | decode (ch : BitVec 4) (idx : BitVec 10)
  /-- EXTRACT, OP = 0x06; IDX ignored (43_signal_decode R235). -/
  | extract (ch : BitVec 4) (idx : BitVec 10)
  /-- SF, single frame: `d(0) = {0x0, SF_DL}` (30_encoding R91). -/
  | sf (dl : BitVec 4)
  /-- FF, first frame: `d(0) = {0x1, FF_DL[11:8]}`, `d(1) = FF_DL[7:0]` (30_encoding R92). -/
  | ff (dl : BitVec 12)
  /-- CF, consecutive frame: `d(0) = {0x2, SN}` (30_encoding R93). -/
  | cf (sn : BitVec 4)
  /-- PCI type 0x3, reserved (30_encoding R90): `d(0) = {0x3, low}`. -/
  | pciRsv3 (low : BitVec 4)
  /-- PCI types 0x4 to 0x7, reserved: `d(0) = {0b01, low}`. -/
  | pciRsv47 (low : BitVec 6)
  /-- PCI types 0x8 to 0xF, reserved: `d(0) = {0b1, low}`. -/
  | pciRsv8F (low : BitVec 7)
  deriving DecidableEq, Repr

end Sys2Proof
end

