-- ==== Sys2Proof/Decode.lean ====
section
/-! DEFINITION. The decoder, total on every command word and on every frame header, rejecting by name, and the encoder, both
written from 30_encoding R83, R84 and R89 to R93. -/

namespace Sys2Proof

/-- Why a command word encodes no command (30_encoding R106). -/
inductive DecodeError where
  /-- Bits [15:12] or [31:26] are not 0 (30_encoding R85). -/
  | reservedBits
  /-- OP is 0x07 to 0xFF (30_encoding R84). -/
  | illegalOp
  deriving DecidableEq, Repr

/-- What an instruction is encoded as: a command word (30_encoding R83), or the two first transport bytes of a frame. An SF, a CF
and the reserved types take one byte of header, an FF two (30_encoding R94). -/
inductive Code where
  | cmd (w : Word)
  | header (d0 d1 : Byte)
  deriving DecidableEq, Repr

/-- The command of a CMD word. Reserved bits are checked before the opcode (40_command_dispatch R137). -/
def decodeCmd (w : Word) : Except DecodeError Instr :=
  if w.extractLsb' 12 4 ≠ 0#4 ∨ w.extractLsb' 26 6 ≠ 0#6 then .error .reservedBits
  else
    match (w.extractLsb' 0 8).toNat with
    | 0x00 => .ok (.nop (w.extractLsb' 8 4) (w.extractLsb' 16 10))
    | 0x01 => .ok (.pushFrame (w.extractLsb' 8 4) (w.extractLsb' 16 10))
    | 0x02 => .ok (.endCapture (w.extractLsb' 8 4) (w.extractLsb' 16 10))
    | 0x03 => .ok (.chReset (w.extractLsb' 8 4) (w.extractLsb' 16 10))
    | 0x04 => .ok (.resetChannels (w.extractLsb' 8 4) (w.extractLsb' 16 10))
    | 0x05 => .ok (.decode (w.extractLsb' 8 4) (w.extractLsb' 16 10))
    | 0x06 => .ok (.extract (w.extractLsb' 8 4) (w.extractLsb' 16 10))
    | _ => .error .illegalOp

/-- The PCI row of a frame header (30_encoding R90 to R93). Every pair of bytes has one: the reserved types are rows of the table
too. The second byte is read for an FF only. -/
def decodePci (d0 d1 : Byte) : Instr :=
  match (d0.extractLsb' 4 4).toNat with
  | 0 => .sf (d0.extractLsb' 0 4)
  | 1 => .ff (d0.extractLsb' 0 4 ++ d1)
  | 2 => .cf (d0.extractLsb' 0 4)
  | 3 => .pciRsv3 (d0.extractLsb' 0 4)
  | 4 | 5 | 6 | 7 => .pciRsv47 (d0.extractLsb' 0 6)
  | _ => .pciRsv8F (d0.extractLsb' 0 7)

/-- The decoder, total on any code. -/
def decode : Code → Except DecodeError Instr
  | .cmd w => decodeCmd w
  | .header d0 d1 => .ok (decodePci d0 d1)

/-- A command word from its fields, with the reserved fields 0 (30_encoding R83). -/
def cmdWord (op : BitVec 8) (ch : BitVec 4) (idx : BitVec 10) : Word :=
  0#6 ++ idx ++ 0#4 ++ ch ++ op

/-- The encoder: the words of an instruction (30_encoding R83, R84, R91 to R93). -/
def encode : Instr → Code
  | .nop ch idx => .cmd (cmdWord 0x00 ch idx)
  | .pushFrame ch idx => .cmd (cmdWord 0x01 ch idx)
  | .endCapture ch idx => .cmd (cmdWord 0x02 ch idx)
  | .chReset ch idx => .cmd (cmdWord 0x03 ch idx)
  | .resetChannels ch idx => .cmd (cmdWord 0x04 ch idx)
  | .decode ch idx => .cmd (cmdWord 0x05 ch idx)
  | .extract ch idx => .cmd (cmdWord 0x06 ch idx)
  | .sf dl => .header (0x0#4 ++ dl) 0
  | .ff dl => .header (0x1#4 ++ dl.extractLsb' 8 4) (dl.extractLsb' 0 8)
  | .cf sn => .header (0x2#4 ++ sn) 0
  | .pciRsv3 low => .header (0x3#4 ++ low) 0
  | .pciRsv47 low => .header (0b01#2 ++ low) 0
  | .pciRsv8F low => .header (0b1#1 ++ low) 0

/-- The instruction the decoder reads from an instruction whose bits are `w`, numbered as spec/opcode_table.json numbers them. A row
of at most 16 bits is a frame header, its second byte in bits 15..8; a longer one is a command word. -/
def decodeTableWord (nbits w : Nat) : Option Instr :=
  match decode (if nbits ≤ 16 then
      .header (BitVec.ofNat 8 w) (BitVec.ofNat 8 (w / 256)) else .cmd (BitVec.ofNat 32 w)) with
  | .ok i => some i
  | .error _ => none

end Sys2Proof
end

