-- ==== Sys2Proof/Machine/Bits.lean ====
section
/-! DEFINITION. Bit and byte order: bytes packed little-endian into bus words (20_memory R73), and single bits. -/

namespace Sys2Proof.Machine

/-- Byte `k` of a bus word: bits [8k+7:8k] (20_memory R73). -/
def byteOf (w : Word) (k : Nat) : Byte := w.extractLsb' (8 * k) 8

/-- A bus word from its bytes 0, 1, 2, 3 (20_memory R73). -/
def packWord (b0 b1 b2 b3 : Byte) : Word := b3 ++ b2 ++ b1 ++ b0

/-- The four bytes of a bus word, byte 0 first (20_memory R73). -/
def unpackWord (w : Word) : List Byte := [byteOf w 0, byteOf w 1, byteOf w 2, byteOf w 3]

/-- A one-bit field. -/
def bitOf (b : Bool) : BitVec 1 := BitVec.ofBool b

/-- The binary number whose bits, most significant first, are `f p, f (p+1), …, f (p+n-1)` (43_signal_decode R224). -/
def msbFirst (f : Nat → Bool) (p : Nat) : Nat → Nat
  | 0 => 0
  | n + 1 => 2 * msbFirst f p n + (f (p + n)).toNat

end Sys2Proof.Machine
end

