-- ==== Sys2Proof/Config.lean ====
section
/-! DEFINITION. What an implementation fixes: the four parameters of 00_scope R9 with their bounds, and the free values
(constants with no body, so that no proof can see what they are). -/

namespace Sys2Proof.Config

/-- The four parameters a model takes as arguments (00_scope R9). The model keeps them in State (log 3). -/
structure Params where
  /-- NUM_CHANNELS: reassembly channels. -/
  numChannels : Nat
  /-- NUM_SIGNALS: signal descriptor slots. -/
  numSignals : Nat
  /-- ENUM_DEPTH: enumeration LUT entries. -/
  enumDepth : Nat
  /-- PAYLOAD_CAP: maximum assembled payload bytes per channel. -/
  payloadCap : Nat
  deriving DecidableEq, Repr

/-- The reference values of 00_scope R9. -/
def Params.reference : Params :=
  { numChannels := 4, numSignals := 256, enumDepth := 1024, payloadCap := 4095 }

/-- The legal ranges of 00_scope R9. -/
abbrev Params.legal (p : Params) : Prop :=
  (1 ≤ p.numChannels ∧ p.numChannels ≤ 16) ∧ (1 ≤ p.numSignals ∧ p.numSignals ≤ 1024) ∧
  (1 ≤ p.enumDepth ∧ p.enumDepth ≤ 4096) ∧ (8 ≤ p.payloadCap ∧ p.payloadCap ≤ 4095)

/-- FREE VALUE (93_implementation_defined U2; log 6): what a host read of a RAM word that was never written returns, before the
reserved bits are masked off, at a value of the state's free-value counter and at an address. DESIGN CHOICE in its form only;
safe: nothing constrains it. -/
opaque unwrittenWord : Nat → Nat → Word

/-- FREE VALUE (93_implementation_defined U3; log 9): what a payload buffer byte holds that no frame has written, at its address.
No run from reset reads one. Safe: nothing constrains it. -/
opaque unwrittenByte : Nat → Byte

end Sys2Proof.Config
end

