-- ==== Sys2Proof/Machine/State.lean ====
section
/-! DEFINITION. The state of BFX (10_state R19), the machine right after reset (10_state R57; 70_reset_and_hazards R291), and the
reasons a step can stop. Plain data throughout. -/

namespace Sys2Proof.Machine

/-- Why the machine stops. The spec leaves exactly one outcome unspecified (93_implementation_defined U1). -/
inductive Fault where
  /-- Raised by DECODE, when it reads a descriptor or LUT word (at this bus address) that was never written since power-on
  (10_state R51, R54; 43_signal_decode R214). Safe: the hardware returns some result, the model stops (log 7). -/
  | unwrittenRamWord (addr : Nat)
  deriving DecidableEq, Repr

/-- Why an instruction has no meaning. -/
inductive Refusal where
  /-- Raised by exec's arm of an instruction that has no meaning yet. Safe. No arm of this model raises it. -/
  | notModelled (mnemonic : String)
  deriving DecidableEq, Repr

/-- CH_STATUS.STATE (10_state R39). -/
inductive ChState where
  | awaitingFirst | assembling | complete | failed
  deriving DecidableEq, Repr

/-- A channel's recorded failure: one constructor for each ERR_DETAIL row of 60_exceptions R263, and `none`. ERR_KIND and ERR_DETAIL
are both computed from it (log 5). -/
inductive ChErr where
  | none
  | noPci | sfDlZero | ffTruncated | ffDlEscape | ffDlSmall | ffDlCap | pciType
  | badSn | cfUnexpected | afterComplete
  | sfShort | interrupted | endOfCapture
  deriving DecidableEq, Repr

/-- LAST_REJECT.DETAIL (60_exceptions R263). -/
inductive RejectDetail where
  | none | lenGt8 | idRange | noTa
  deriving DecidableEq, Repr

/-- STATUS.CMD_ERR_CAUSE (60_exceptions R264). -/
inductive CmdCause where
  | none | illegalOp | badChannel | badIndex | reservedBits
  deriving DecidableEq, Repr

/-- RES_CODE.CODE (60_exceptions R265). -/
inductive ResCode where
  | none | okNumeric | okLabel | okRaw | notMatched | noPayload | bitRangeOob | unmappedEnum | invalidDescriptor
  deriving DecidableEq, Repr

/-- CFG (10_state R25): IDW = 1 selects 29-bit IDs, EXT = 1 extended addressing. -/
structure Cfg where
  idw : Bool
  ext : Bool
  deriving DecidableEq, Repr

/-- STATUS without BUSY, which is computed from PENDING (10_state R27, R55). -/
structure Status where
  done : Bool
  cmdErr : Bool
  busErr : Bool
  overrun : Bool
  cause : CmdCause
  deriving DecidableEq, Repr

/-- IRQ_EN (10_state R28). -/
structure IrqEn where
  doneIe : Bool
  cmdErrIe : Bool
  busErrIe : Bool
  overrunIe : Bool
  chEventIe : Bool
  deriving DecidableEq, Repr

/-- COUNTERS and LAST_REJECT (10_state R30, R31). -/
structure Counters where
  drop : BitVec 16
  reject : BitVec 16
  lastReject : RejectDetail
  deriving DecidableEq, Repr

/-- The frame input registers FIN_ID, FIN_LEN, FIN_DATA0, FIN_DATA1 (10_state R32 to R34). -/
structure FrameIn where
  id : BitVec 29
  len : BitVec 4
  data0 : Word
  data1 : Word
  deriving DecidableEq, Repr

/-- X_CFG (10_state R35). -/
structure XCfg where
  bitOffset : BitVec 15
  lenM1 : BitVec 6
  deriving DecidableEq, Repr

/-- The result registers (10_state R36, R37). -/
structure Result where
  code : ResCode
  chState : ChState
  raw : BitVec 64
  val : F64
  label : BitVec 16
  deriving DecidableEq, Repr

/-- One channel (10_state R40, R41), with its bit of CH_EVENT (R29; log 4). Its payload buffer is in `State.mem`. -/
structure Channel where
  filterEn : Bool
  filterId : BitVec 29
  ta : Byte
  state : ChState
  nextSeq : BitVec 4
  len : BitVec 12
  total : BitVec 12
  err : ChErr
  event : Bool
  deriving DecidableEq, Repr

/-- NUM_SIGNALS, ENUM_DEPTH and PAYLOAD_CAP (00_scope R9). NUM_CHANNELS is the number of channels the state has (log 3). -/
structure Sizes where
  numSignals : Nat
  enumDepth : Nat
  payloadCap : Nat
  deriving DecidableEq, Repr

/-- What the host, the reset pin or the scheduler does next (log 1). -/
inductive Event where
  /-- A host bus read of one word (20_memory R58). -/
  | read (addr : BusAddr)
  /-- A host bus write, with its byte enables (20_memory R58). -/
  | write (addr : BusAddr) (data : Word) (be : BitVec 4)
  /-- The engine gets a turn: it commits if a command is pending (40_command_dispatch R133). -/
  | engine
  /-- `rst` is asserted: block reset (70_reset_and_hazards R291). -/
  | assertRst
  /-- `rst` is released. -/
  | releaseRst
  /-- Power is cycled: the RAMs become unwritten and `rst` is asserted (70_reset_and_hazards R291, R293; log 11). -/
  | powerOn
  deriving DecidableEq, Repr

/-- Storage: bytes by bus address, addresses strictly rising. An unlisted byte has no value: a RAM word is written exactly when its
bytes are listed (10_state R51). -/
abbrev Memory := List Host.Cell

/-- The complete state (10_state R19), with the ports and the model's own fields at the end. -/
structure State where
  /-- NUM_SIGNALS, ENUM_DEPTH, PAYLOAD_CAP; never changed. -/
  sizes : Sizes
  cfg : Cfg
  status : Status
  irqEn : IrqEn
  counters : Counters
  fin : FrameIn
  xcfg : XCfg
  result : Result
  /-- The channels 0 .. NUM_CHANNELS-1, in order. -/
  channels : List Channel
  /-- PENDING (10_state R55). -/
  pending : Option Word
  /-- Descriptor RAM, LUT RAM and payload buffers, by bus address. -/
  mem : Memory
  /-- The level of the reset pin (log 10). -/
  rst : Bool
  /-- The response port of the last host read (log 2). -/
  rdata : Word
  /-- MODEL'S OWN: what happens next (log 1). -/
  schedule : List Event
  /-- MODEL'S OWN: the counter at which free values are drawn (log 6). -/
  freeCount : Nat
  deriving DecidableEq, Repr

/-- NUM_CHANNELS. -/
def State.numChannels (s : State) : Nat := s.channels.length

/-- The parameters of this machine (00_scope R9). -/
def State.params (s : State) : Config.Params :=
  { numChannels := s.channels.length, numSignals := s.sizes.numSignals
    enumDepth := s.sizes.enumDepth, payloadCap := s.sizes.payloadCap }

/-- A channel at block reset: every register 0 (10_state R57). -/
def Channel.reset : Channel :=
  { filterEn := false, filterId := 0, ta := 0, state := .awaitingFirst, nextSeq := 0, len := 0, total := 0
    err := .none, event := false }

/-- The result registers at block reset (10_state R38; 70_reset_and_hazards R291). -/
def Result.reset : Result :=
  { code := .none, chState := .awaitingFirst, raw := 0, val := 0, label := 0 }

/-- The machine of parameters `p` after power-on and the release of reset (10_state R57; 70_reset_and_hazards R291, R294). `p` is not
checked here: a machine is built from parameters by `State.configure`, which checks them against their bounds (00_scope R9). Nothing in
memory is listed: every RAM word is unwritten (10_state R51). -/
def State.resetOf (p : Config.Params) : State :=
  { sizes := { numSignals := p.numSignals, enumDepth := p.enumDepth, payloadCap := p.payloadCap }
    cfg := { idw := false, ext := false }
    status := { done := false, cmdErr := false, busErr := false, overrun := false, cause := .none }
    irqEn := { doneIe := false, cmdErrIe := false, busErrIe := false, overrunIe := false, chEventIe := false }
    counters := { drop := 0, reject := 0, lastReject := .none }
    fin := { id := 0, len := 0, data0 := 0, data1 := 0 }
    xcfg := { bitOffset := 0, lenM1 := 0 }
    result := Result.reset
    channels := List.replicate p.numChannels Channel.reset
    pending := none
    mem := []
    rst := false
    rdata := 0
    schedule := []
    freeCount := 0 }

/-- The machine right after reset, at the reference parameters of 00_scope R9 (log 3). -/
def State.reset : State := State.resetOf Config.Params.reference

end Sys2Proof.Machine
end

