-- ==== Sys2Proof/Machine/Ops.lean ====
section
/-! DEFINITION. The named operations over memory and registers: the byte memory, the channels, and the recording of errors and
results. BFX never traps (60_exceptions R261): the spec's form of raising is `fail`, `reject`, `cmd_error` and `result`
(00_scope R13), and they stand here in place of an exception entry. -/

namespace Sys2Proof.Machine

/-! ### Memory -/

/-- The canonical form of memory: addresses strictly rising. -/
abbrev Memory.wf (m : Memory) : Prop := m.Pairwise (fun x y => x.1 < y.1)

/-- The byte at an address, or none where nothing is stored. -/
def Memory.read? : Memory → Nat → Option Byte
  | [], _ => none
  | (k, v) :: m, a => if k = a then some v else Memory.read? m a

/-- Store one byte. -/
def Memory.write : Memory → Nat → Byte → Memory
  | [], a, b => [(a, b)]
  | (k, v) :: m, a, b =>
    if a < k then (a, b) :: (k, v) :: m
    else if a = k then (a, b) :: m
    else (k, v) :: Memory.write m a b

/-- Store bytes at consecutive addresses, the first at `a` (42_reassembly R182). -/
def Memory.writeBytes (m : Memory) (a : Nat) : List Byte → Memory
  | [] => m
  | b :: bs => Memory.writeBytes (m.write a b) (a + 1) bs

/-- A stored bus word, or none where it was never written (10_state R51; 20_memory R73). -/
def Memory.word? (m : Memory) (a : Nat) : Option Word :=
  match m.read? a, m.read? (a + 1), m.read? (a + 2), m.read? (a + 3) with
  | some b0, some b1, some b2, some b3 => some (packWord b0 b1 b2 b3)
  | _, _, _, _ => none

/-- Store a bus word (20_memory R73). -/
def Memory.writeWord (m : Memory) (a : Nat) (w : Word) : Memory := m.writeBytes a (unpackWord w)

/-! ### Addresses of storage -/

/-- Bus address of word `w` of descriptor slot `i` (10_state R49). -/
def descAddr (i w : Nat) : Nat := 0x10000 + 0x40 * i + 4 * w

/-- Bus address of word `w` of LUT entry `j`: 0 is KEY, 1 is LABEL (10_state R52). -/
def lutAddr (j w : Nat) : Nat := 0x20000 + 8 * j + 4 * w

/-- Bus address of payload buffer byte `i` of channel `c` (20_memory R71). -/
def bufAddr (c i : Nat) : Nat := 0x30000 + 0x1000 * c + i

/-! ### State updates -/

/-- Channel `c`. A channel that does not exist reads as a channel at reset. -/
def State.ch (s : State) (c : Nat) : Channel := s.channels.getD c Channel.reset

def State.setChan (s : State) (c : Nat) (x : Channel) : State := { s with channels := s.channels.set c x }

def State.setChannels (s : State) (cs : List Channel) : State := { s with channels := cs }

def State.setMem (s : State) (m : Memory) : State := { s with mem := m }

def State.setResult (s : State) (r : Result) : State := { s with result := r }

def State.setStatus (s : State) (st : Status) : State := { s with status := st }

def State.setCounters (s : State) (k : Counters) : State := { s with counters := k }

def State.setPending (s : State) (p : Option Word) : State := { s with pending := p }

def State.setRdata (s : State) (w : Word) : State := { s with rdata := w }

/-- Advance the counter of free values: what a later host read of an unwritten word returns may differ (log 6). -/
def State.tick (s : State) : State := { s with freeCount := s.freeCount + 1 }

/-- STATUS.BUSY (10_state R55). -/
def State.busy (s : State) : Bool := s.pending.isSome

/-- Payload buffer byte `Buf(c, i)` (10_state R47). A byte no frame has written is a free value (log 9). -/
def State.buf (s : State) (c i : Nat) : Byte := (s.mem.read? (bufAddr c i)).getD (Config.unwrittenByte (bufAddr c i))

/-! ### Recording errors and results -/

/-- What `fail` does to its channel (42_reassembly R173): LEN, TOTAL, NEXT_SEQ stay (10_state R45). -/
def Channel.fail (c : Channel) (e : ChErr) : Channel := { c with state := .failed, err := e, event := true }

/-- `fail(c, kind, detail)` (42_reassembly R173). -/
def State.fail (s : State) (c : Nat) (e : ChErr) : State := s.setChan c ((s.ch c).fail e)

/-- `sat16(x + 1)` (00_scope R13). -/
def satInc (x : BitVec 16) : BitVec 16 := BitVec.ofNat 16 (min (x.toNat + 1) 0xFFFF)

/-- `reject(p)` (41_frame_ingress R154). -/
def State.reject (s : State) (p : RejectDetail) : State :=
  s.setCounters { s.counters with reject := satInc s.counters.reject, lastReject := p }

/-- A frame that matches no filter is dropped (41_frame_ingress R156). -/
def State.dropFrame (s : State) : State := s.setCounters { s.counters with drop := satInc s.counters.drop }

/-- `cmd_error(cause)` (40_command_dispatch R136). -/
def State.cmdError (s : State) (c : CmdCause) : State := s.setStatus { s.status with cmdErr := true, cause := c }

/-- The end of a commit: `PENDING <- none; STATUS.DONE <- 1` (40_command_dispatch R133). -/
def State.finish (s : State) : State := (s.setPending none).setStatus { s.status with done := true }

/-- The body of CH_RESET on its channel (42_reassembly R195): the filter, TA and CH_EVENT bit stay (R196). -/
def Channel.clear (c : Channel) : Channel :=
  { c with state := .awaitingFirst, len := 0, total := 0, nextSeq := 0, err := .none }

/-- The machine of parameters `p` after reset, where they pass the check against their bounds; none where they do not (00_scope R9). -/
def State.configure (p : Config.Params) : Option State := if p.legal then some (State.resetOf p) else none

/-- Block reset (70_reset_and_hazards R291; 10_state R57): every register takes its reset value and PENDING is discarded (R292). The
RAMs keep their contents (R293), and so do the model's own fields. -/
def State.blockReset (s : State) : State :=
  { State.resetOf s.params with
    mem := s.mem, rst := s.rst, rdata := s.rdata, schedule := s.schedule, freeCount := s.freeCount }

/-- `rst` is asserted (70_reset_and_hazards R291). -/
def State.assertRst (s : State) : State := { s.blockReset with rst := true }

/-- `rst` is released. -/
def State.releaseRst (s : State) : State := { s with rst := false }

/-- Power is cycled (70_reset_and_hazards R291, R293): every RAM word is unwritten, and reset is asserted (log 11). -/
def State.powerOn (s : State) : State := { s.assertRst with mem := [] }

end Sys2Proof.Machine
end

