-- ==== Sys2Proof/Machine/Flags.lean ====
section
/-! DEFINITION. The codes of states, errors and results, the STATUS bits and how the host clears them, and the interrupt line
(10_state R27 to R29, R39, R56; 60_exceptions R262 to R268). -/

namespace Sys2Proof.Machine

/-- CH_STATUS.STATE (10_state R39). -/
def ChState.code : ChState → BitVec 2
  | .awaitingFirst => 0 | .assembling => 1 | .complete => 2 | .failed => 3

/-- CH_STATUS.ERR_KIND (60_exceptions R262, R263). -/
def ChErr.kind : ChErr → BitVec 3
  | .none => 0
  | .noPci | .sfDlZero | .ffTruncated | .ffDlEscape | .ffDlSmall | .ffDlCap | .pciType => 1
  | .badSn | .cfUnexpected | .afterComplete => 2
  | .sfShort | .interrupted | .endOfCapture => 3

/-- CH_STATUS.ERR_DETAIL (60_exceptions R263). -/
def ChErr.detail : ChErr → BitVec 4
  | .none => 0
  | .noPci => 1 | .sfDlZero => 2 | .ffTruncated => 3 | .ffDlEscape => 4 | .ffDlSmall => 5 | .ffDlCap => 6 | .pciType => 7
  | .badSn => 1 | .cfUnexpected => 2 | .afterComplete => 3
  | .sfShort => 1 | .interrupted => 2 | .endOfCapture => 3

/-- LAST_REJECT.DETAIL (60_exceptions R263). -/
def RejectDetail.code : RejectDetail → BitVec 4
  | .none => 0 | .lenGt8 => 1 | .idRange => 2 | .noTa => 3

/-- STATUS.CMD_ERR_CAUSE (60_exceptions R264). -/
def CmdCause.code : CmdCause → BitVec 4
  | .none => 0 | .illegalOp => 1 | .badChannel => 2 | .badIndex => 3 | .reservedBits => 4

/-- RES_CODE.CODE (60_exceptions R265). -/
def ResCode.code : ResCode → BitVec 4
  | .none => 0 | .okNumeric => 1 | .okLabel => 2 | .okRaw => 3 | .notMatched => 4 | .noPayload => 5
  | .bitRangeOob => 6 | .unmappedEnum => 7 | .invalidDescriptor => 8

/-- The STATUS word: {0, CMD_ERR_CAUSE [11:8], 0, OVERRUN, BUS_ERR, CMD_ERR, DONE, BUSY} (10_state R21, R27). -/
def State.statusWord (s : State) : Word :=
  0#20 ++ s.status.cause.code ++ 0#3 ++ bitOf s.status.overrun ++ bitOf s.status.busErr ++ bitOf s.status.cmdErr
    ++ bitOf s.status.done ++ bitOf s.busy

/-- A W1C write to STATUS: DONE, CMD_ERR, BUS_ERR and OVERRUN are cleared where 1 is written; CMD_ERR_CAUSE stays (10_state R20,
R27). -/
def Status.w1c (st : Status) (data : Word) : Status :=
  { st with
    done := st.done && !data.getLsbD 1
    cmdErr := st.cmdErr && !data.getLsbD 2
    busErr := st.busErr && !data.getLsbD 3
    overrun := st.overrun && !data.getLsbD 4 }

/-- A bus access that no register takes sets BUS_ERR (10_state R27). -/
def State.busError (s : State) : State := s.setStatus { s.status with busErr := true }

/-- A write that the busy rule ignores sets OVERRUN (40_command_dispatch R134). -/
def State.overrun (s : State) : State := s.setStatus { s.status with overrun := true }

/-- The CH_EVENT word: bit `c` is the event bit of channel `c`, the others read 0 (10_state R29). -/
def State.chEventWord (s : State) : Word :=
  BitVec.ofNat 32 (msbFirst (fun p => (s.ch (31 - p)).event) 0 32)

/-- A W1C write to CH_EVENT (10_state R29): bits that name no channel are reserved. -/
def State.w1cChEvent (s : State) (data : Word) : State :=
  s.setChannels (s.channels.mapIdx fun c x => { x with event := x.event && !data.getLsbD c })

/-- The interrupt output, a function of the state (60_exceptions R268). -/
def State.irq (s : State) : Bool :=
  (s.status.done && s.irqEn.doneIe) || (s.status.cmdErr && s.irqEn.cmdErrIe) || (s.status.busErr && s.irqEn.busErrIe)
    || (s.status.overrun && s.irqEn.overrunIe) || (s.channels.any (·.event) && s.irqEn.chEventIe)

end Sys2Proof.Machine
end

