-- ==== Sys2Proof/Machine/Operands.lean ====
section
/-! DEFINITION. Every operand form: the frame and its transport bytes, the pre-checks and the filter, the classes of frames, the
payload's bits, and the fields of a descriptor (00_scope R12; 30_encoding R88 to R103; 41_frame_ingress R152, R155; 42_reassembly
R176; 43_signal_decode R214 to R224). -/

namespace Sys2Proof.Machine

/-! ### The pushed frame -/

/-- `FinByte(i)` (30_encoding R88). The spec gives 0 ≤ i ≤ 7; a higher index reads 0 and is never used by an accepted frame (log 21). -/
def FrameIn.byte (f : FrameIn) (i : Nat) : Byte := if i < 4 then byteOf f.data0 i else byteOf f.data1 (i - 4)

/-- `k = CFG.EXT` (30_encoding R89). -/
def State.k (s : State) : Nat := if s.cfg.ext then 1 else 0

/-- `n = len - k`, the number of transport bytes (30_encoding R89). -/
def State.n (s : State) : Nat := s.fin.len.toNat - s.k

/-- Transport byte `d(i) = FinByte(k + i)` (30_encoding R89). -/
def State.d (s : State) (i : Nat) : Byte := s.fin.byte (s.k + i)

/-- Transport bytes `d(i) .. d(i+m-1)`. -/
def State.dBytes (s : State) (i m : Nat) : List Byte := (List.range m).map fun j => s.d (i + j)

/-- `precheck(id, len)`: the first fault that keeps the frame from any channel, or none (41_frame_ingress R152). -/
def State.precheck (s : State) : RejectDetail :=
  if s.fin.len.toNat > 8 then .lenGt8
  else if !s.cfg.idw && decide (s.fin.id.toNat > 0x7FF) then .idRange
  else if s.cfg.ext && decide (s.fin.len.toNat = 0) then .noTa
  else .none

/-- Does the channel's filter accept the frame's effective key? (41_frame_ingress R155) -/
def State.accepts (s : State) (c : Channel) : Bool :=
  c.filterEn && decide (c.filterId = s.fin.id) && (!s.cfg.ext || decide (c.ta = s.fin.byte 0))

/-- `route(id, len)`: the lowest-numbered channel whose filter accepts the frame (41_frame_ingress R155). -/
def State.route (s : State) : Option Nat := s.channels.findIdx? s.accepts

/-! ### Frame classes (42_reassembly R176) -/

/-- The class of a frame. -/
inductive FrameClass where
  /-- Malformed, with its detail. -/
  | mal (e : ChErr)
  /-- A single frame of `x` payload bytes. -/
  | sf (x : Nat)
  /-- A single frame that declares more bytes than it carries. -/
  | sfShort
  /-- A first frame of declared length `l`. -/
  | ff (l : Nat)
  /-- A consecutive frame with its sequence number. -/
  | cf (sn : BitVec 4)
  deriving DecidableEq, Repr

/-- The class of a frame of PCI type 0x0 with SF_DL `dl` and `n` transport bytes. -/
def classifySf (dl : BitVec 4) (n : Nat) : FrameClass :=
  if n = 0 then .mal .noPci
  else if dl.toNat = 0 then .mal .sfDlZero
  else if dl.toNat > n - 1 then .sfShort
  else .sf dl.toNat

/-- The class of a frame of PCI type 0x1 with FF_DL `dl`, where `k` is CFG.EXT and `cap` is PAYLOAD_CAP. -/
def classifyFf (dl : BitVec 12) (n k cap : Nat) : FrameClass :=
  if n = 0 then .mal .noPci
  else if n < 2 then .mal .ffTruncated
  else if dl.toNat = 0 then .mal .ffDlEscape
  else if dl.toNat ≤ 7 - k then .mal .ffDlSmall
  else if dl.toNat > cap then .mal .ffDlCap
  else .ff dl.toNat

/-- The class of a frame of PCI type 0x2 with sequence number `sn`. -/
def classifyCf (sn : BitVec 4) (n : Nat) : FrameClass := if n = 0 then .mal .noPci else .cf sn

/-- The class of a frame of a reserved PCI type. -/
def classifyReserved (n : Nat) : FrameClass := if n = 0 then .mal .noPci else .mal .pciType

/-- `classify(n)`, from the two first transport bytes (42_reassembly R176). -/
def classify (d0 d1 : Byte) (n k cap : Nat) : FrameClass :=
  match (d0.extractLsb' 4 4).toNat with
  | 0 => classifySf (d0.extractLsb' 0 4) n
  | 1 => classifyFf (d0.extractLsb' 0 4 ++ d1) n k cap
  | 2 => classifyCf (d0.extractLsb' 0 4) n
  | _ => classifyReserved n

/-! ### Payload bits -/

/-- Payload bit `PBit(c, p)`: bit `7 - (p mod 8)` of payload byte `p div 8` (00_scope R12). -/
def State.pbit (s : State) (c p : Nat) : Bool := (s.buf c (p / 8)).getLsbD (7 - p % 8)

/-- `extract(ch, off, len)` (43_signal_decode R224). -/
def State.extractField (s : State) (c off len : Nat) : Nat := msbFirst (s.pbit c) off len

/-! ### RAM words -/

/-- The implemented bits of descriptor word `w` (30_encoding R96); the others are reserved (10_state R20). -/
def descMask (w : Nat) : Word :=
  match w with
  | 0 => 0x813F7FFF
  | 1 => 0x1FFFFFFF
  | 2 => 0x00FF0FFF
  | 9 => 0x1FFF0FFF
  | _ => 0xFFFFFFFF

/-- The implemented bits of LUT word `w` (10_state R52). -/
def lutMask (w : Nat) : Word := if w = 0 then 0xFFFFFFFF else 0x0000FFFF

/-- What a command reads at a RAM word; a word never written is the fault of 93_implementation_defined U1. -/
def State.ramWord (s : State) (a : Nat) (mask : Word) : Except Fault Word :=
  match s.mem.word? a with
  | some w => .ok (w &&& mask)
  | none => .error (.unwrittenRamWord a)

/-- Word `w` of descriptor slot `i`. -/
def State.descWord (s : State) (i w : Nat) : Except Fault Word := s.ramWord (descAddr i w) (descMask w)

/-- Word `w` of LUT entry `j`. -/
def State.lutWord (s : State) (j w : Nat) : Except Fault Word := s.ramWord (lutAddr j w) (lutMask w)

/-! ### Descriptor fields (30_encoding R96 to R102) -/

/-- D0.BIT_OFFSET. -/
def d0BitOffset (d0 : Word) : Nat := (d0.extractLsb' 0 15).toNat

/-- `bit_length = D0.LEN_M1 + 1` (30_encoding R97). -/
def d0BitLength (d0 : Word) : Nat := (d0.extractLsb' 16 6).toNat + 1

/-- D0.XFORM: false is Linear, true is EnumMap (30_encoding R97). -/
def d0Enum (d0 : Word) : Bool := d0.getLsbD 24

/-- D0.VALID. -/
def d0Valid (d0 : Word) : Bool := d0.getLsbD 31

/-- D1.MATCH_ID (30_encoding R98). -/
def d1MatchId (d1 : Word) : BitVec 29 := d1.extractLsb' 0 29

/-- D2.MATCH_TA (30_encoding R98). -/
def d2MatchTa (d2 : Word) : Byte := d2.extractLsb' 0 8

/-- D2.PFX_LEN (30_encoding R99). -/
def d2PfxLen (d2 : Word) : Nat := (d2.extractLsb' 8 4).toNat

/-- D2.PFX_CARE, bit `j` (30_encoding R99). -/
def d2PfxCare (d2 : Word) (j : Nat) : Bool := (d2.extractLsb' 16 8).getLsbD j

/-- `PFX(j)` (30_encoding R100). -/
def pfxByte (d3 d4 : Word) (j : Nat) : Byte := if j < 4 then byteOf d3 j else byteOf d4 (j - 4)

/-- D9.LUT_BASE (30_encoding R102). -/
def d9LutBase (d9 : Word) : Nat := (d9.extractLsb' 0 12).toNat

/-- D9.LUT_COUNT (30_encoding R102). -/
def d9LutCount (d9 : Word) : Nat := (d9.extractLsb' 16 13).toNat

end Sys2Proof.Machine
end

