-- ==== Sys2Proof/Machine/Bus.lean ====
section
/-! DEFINITION. The host bus: the address map, reads and writes (20_memory R58 to R73; 10_state R20 to R37, R41, R49, R52). -/

namespace Sys2Proof.Machine

/-- The global registers (10_state R21). -/
inductive GlobalReg where
  | blkId | version | param0 | param1 | cfg | cmd | status | irqEn | chEvent | counters | lastReject
  | finId | finLen | finData0 | finData1 | xCfg | resCode | resRawLo | resRawHi | resValLo | resValHi | resLabel
  deriving DecidableEq, Repr

/-- The registers of a channel (10_state R41). -/
inductive ChanReg where
  | filter | ta | status | total
  deriving DecidableEq, Repr

/-- What an aligned address names (20_memory R61). -/
inductive Target where
  | global (r : GlobalReg)
  | chan (c : Nat) (r : ChanReg)
  /-- Word `w` of descriptor slot `i`. -/
  | desc (i w : Nat)
  /-- Word `w` of LUT entry `j`. -/
  | lut (j w : Nat)
  /-- Word `w` of the payload window of channel `c`. -/
  | window (c w : Nat)
  | unmapped
  deriving DecidableEq, Repr

/-- The global register at an offset below 0x100 (10_state R21). -/
def globalAt (a : Nat) : Target :=
  match a with
  | 0x000 => .global .blkId
  | 0x004 => .global .version
  | 0x008 => .global .param0
  | 0x00C => .global .param1
  | 0x010 => .global .cfg
  | 0x014 => .global .cmd
  | 0x018 => .global .status
  | 0x01C => .global .irqEn
  | 0x020 => .global .chEvent
  | 0x024 => .global .counters
  | 0x028 => .global .lastReject
  | 0x030 => .global .finId
  | 0x034 => .global .finLen
  | 0x038 => .global .finData0
  | 0x03C => .global .finData1
  | 0x040 => .global .xCfg
  | 0x050 => .global .resCode
  | 0x054 => .global .resRawLo
  | 0x058 => .global .resRawHi
  | 0x05C => .global .resValLo
  | 0x060 => .global .resValHi
  | 0x064 => .global .resLabel
  | _ => .unmapped

/-- The channel register at offset `r` of a channel's block (10_state R41). -/
def chanRegAt (r : Nat) : ChanReg :=
  match r with
  | 0x0 => .filter
  | 0x4 => .ta
  | 0x8 => .status
  | _ => .total

/-- What the aligned address `a` names in this machine (20_memory R61; 10_state R41, R49, R52; 20_memory R71). -/
def State.target (s : State) (a : Nat) : Target :=
  if a < 0x100 then globalAt a
  else if a < 0x200 then
    if (a - 0x100) / 0x10 < s.numChannels then .chan ((a - 0x100) / 0x10) (chanRegAt ((a - 0x100) % 0x10)) else .unmapped
  else if a < 0x10000 then .unmapped
  else if a < 0x20000 then
    if (a - 0x10000) / 0x40 < s.sizes.numSignals ∧ (a - 0x10000) % 0x40 / 4 < 10 then
      .desc ((a - 0x10000) / 0x40) ((a - 0x10000) % 0x40 / 4)
    else .unmapped
  else if a < 0x30000 then
    if (a - 0x20000) / 8 < s.sizes.enumDepth then .lut ((a - 0x20000) / 8) ((a - 0x20000) % 8 / 4) else .unmapped
  else if (a - 0x30000) / 0x1000 < s.numChannels then .window ((a - 0x30000) / 0x1000) ((a - 0x30000) % 0x1000 / 4)
  else .unmapped

/-! ### Reads -/

/-- What a host read of a global register returns; reserved bits read 0 (10_state R21 to R37). -/
def State.readGlobal (s : State) : GlobalReg → Word
  | .blkId => 0x42465845
  | .version => 0x00010000
  | .param0 => 0#5 ++ BitVec.ofNat 11 s.sizes.numSignals ++ 0#11 ++ BitVec.ofNat 5 s.numChannels
  | .param1 => 0#3 ++ BitVec.ofNat 13 s.sizes.enumDepth ++ 0#4 ++ BitVec.ofNat 12 s.sizes.payloadCap
  | .cfg => 0#30 ++ bitOf s.cfg.ext ++ bitOf s.cfg.idw
  | .cmd => 0
  | .status => s.statusWord
  | .irqEn => 0#26 ++ bitOf s.irqEn.chEventIe ++ bitOf s.irqEn.overrunIe ++ bitOf s.irqEn.busErrIe
      ++ bitOf s.irqEn.cmdErrIe ++ bitOf s.irqEn.doneIe ++ 0#1
  | .chEvent => s.chEventWord
  | .counters => s.counters.reject ++ s.counters.drop
  | .lastReject => 0#28 ++ s.counters.lastReject.code
  | .finId => 0#3 ++ s.fin.id
  | .finLen => 0#28 ++ s.fin.len
  | .finData0 => s.fin.data0
  | .finData1 => s.fin.data1
  | .xCfg => 0#10 ++ s.xcfg.lenM1 ++ 0#1 ++ s.xcfg.bitOffset
  | .resCode => 0#26 ++ s.result.chState.code ++ s.result.code.code
  | .resRawLo => s.result.raw.extractLsb' 0 32
  | .resRawHi => s.result.raw.extractLsb' 32 32
  | .resValLo => s.result.val.extractLsb' 0 32
  | .resValHi => s.result.val.extractLsb' 32 32
  | .resLabel => 0#16 ++ s.result.label

/-- What a host read of a channel register returns (10_state R41). -/
def Channel.readReg (c : Channel) : ChanReg → Word
  | .filter => bitOf c.filterEn ++ 0#2 ++ c.filterId
  | .ta => 0#24 ++ c.ta
  | .status => 0#4 ++ c.len ++ c.err.detail ++ 0#1 ++ c.err.kind ++ c.nextSeq ++ 0#2 ++ c.state.code
  | .total => 0#20 ++ c.total

/-- What a host read of a RAM word returns: the written word, or a free value of the implemented bits (93_implementation_defined U2;
log 6). Reserved bits read 0 (10_state R20). -/
def State.readRam (s : State) (a : Nat) (mask : Word) : Word :=
  (s.mem.word? a).getD (Config.unwrittenWord s.freeCount a) &&& mask

/-- Byte `i` of the payload window of channel `c` (20_memory R72). -/
def State.windowByte (s : State) (c i : Nat) : Byte := if i < (s.ch c).len.toNat then s.buf c i else 0

/-- What a host read of a mapped word returns (20_memory R65, R67, R71). -/
def State.readTarget (s : State) : Target → Word
  | .global r => s.readGlobal r
  | .chan c r => (s.ch c).readReg r
  | .desc i w => s.readRam (descAddr i w) (descMask w)
  | .lut j w => s.readRam (lutAddr j w) (lutMask w)
  | .window c w =>
    packWord (s.windowByte c (4 * w)) (s.windowByte c (4 * w + 1)) (s.windowByte c (4 * w + 2)) (s.windowByte c (4 * w + 3))
  | .unmapped => 0

/-- Is the address of a word? (20_memory R62) -/
def aligned (a : BusAddr) : Bool := decide (a.toNat % 4 = 0)

/-- A host read (20_memory R64 to R68). While `rst` is asserted it returns 0 and has no effect (70_reset_and_hazards R291; log 10). -/
def State.hostRead (s : State) (a : BusAddr) : State :=
  if s.rst then s.setRdata 0
  else if !aligned a then s.busError.setRdata 0
  else if s.target a.toNat = .unmapped then s.busError.setRdata 0
  else s.setRdata (s.readTarget (s.target a.toNat))

/-! ### Writes -/

/-- An accepted write to a global register, by its access type (10_state R20, R21; 20_memory R67, R69). -/
def State.writeGlobal (s : State) (d : Word) : GlobalReg → State
  | .cfg => { s with cfg := { idw := d.getLsbD 0, ext := d.getLsbD 1 } }
  | .cmd => (s.setPending (some d)).setStatus { s.status with done := false }
  | .status => s.setStatus (s.status.w1c d)
  | .irqEn => { s with irqEn := { doneIe := d.getLsbD 1, cmdErrIe := d.getLsbD 2, busErrIe := d.getLsbD 3
                                  overrunIe := d.getLsbD 4, chEventIe := d.getLsbD 5 } }
  | .chEvent => s.w1cChEvent d
  | .counters => s.setCounters { drop := 0, reject := 0, lastReject := .none }
  | .finId => { s with fin := { s.fin with id := d.extractLsb' 0 29 } }
  | .finLen => { s with fin := { s.fin with len := d.extractLsb' 0 4 } }
  | .finData0 => { s with fin := { s.fin with data0 := d } }
  | .finData1 => { s with fin := { s.fin with data1 := d } }
  | .xCfg => { s with xcfg := { bitOffset := d.extractLsb' 0 15, lenM1 := d.extractLsb' 16 6 } }
  | .blkId => s
  | .version => s
  | .param0 => s
  | .param1 => s
  | .lastReject => s
  | .resCode => s
  | .resRawLo => s
  | .resRawHi => s
  | .resValLo => s
  | .resValHi => s
  | .resLabel => s

/-- An accepted write to a channel register: CH_FILTER and CH_TA are RW, CH_STATUS and CH_TOTAL are RO (10_state R41 to R43). -/
def Channel.writeReg (c : Channel) (d : Word) : ChanReg → Channel
  | .filter => { c with filterId := d.extractLsb' 0 29, filterEn := d.getLsbD 31 }
  | .ta => { c with ta := d.extractLsb' 0 8 }
  | .status => c
  | .total => c

/-- An accepted write to a mapped word (20_memory R65 step 4, R67). Reserved bits are discarded (10_state R20). -/
def State.writeTarget (s : State) (d : Word) : Target → State
  | .global r => s.writeGlobal d r
  | .chan c r => s.setChan c ((s.ch c).writeReg d r)
  | .desc i w => s.setMem (s.mem.writeWord (descAddr i w) (d &&& descMask w))
  | .lut j w => s.setMem (s.mem.writeWord (lutAddr j w) (d &&& lutMask w))
  | .window _ _ => s
  | .unmapped => s

/-- A host write, in the order of checks of 20_memory R65: busy (40_command_dispatch R134), misaligned or partial (R63, R64),
unmapped (R66), then the addressed word. While `rst` is asserted it has no effect (70_reset_and_hazards R291; log 10). -/
def State.hostWrite (s : State) (a : BusAddr) (d : Word) (be : BitVec 4) : State :=
  if s.rst then s
  else if s.busy then s.overrun
  else if !aligned a || decide (be ≠ 0b1111#4) then s.busError
  else if s.target a.toNat = .unmapped then s.busError
  else s.writeTarget d (s.target a.toNat)

end Sys2Proof.Machine
end

