-- ==== Sys2Proof/Machine/Reassembly.lean ====
section
/-! DEFINITION. The frame reassembly state machine (42_reassembly R171 to R192) and the meanings of the six PCI rows. A PCI row's
meaning is what a pushed frame with that header does: the pre-checks, the filter, and then its cell of R171's table (log 13). -/

namespace Sys2Proof.Machine

/-- Append `bs` to the buffer of channel `c` at its LEN (42_reassembly R182). -/
def State.append (s : State) (c : Nat) (bs : List Byte) : State :=
  s.setMem (s.mem.writeBytes (bufAddr c (s.ch c).len.toNat) bs)

/-- SF in AwaitingFirst (42_reassembly R179): the payload is `d(1) .. d(x)`, stored from buffer byte 0. -/
def State.startSingle (s : State) (c x : Nat) : State :=
  (s.setMem (s.mem.writeBytes (bufAddr c 0) (s.dBytes 1 x))).setChan c
    { s.ch c with len := BitVec.ofNat 12 x, total := BitVec.ofNat 12 x, state := .complete, event := true }

/-- FF in AwaitingFirst (42_reassembly R181): the first chunk is `d(2) .. d(n-1)`, stored from buffer byte 0. -/
def State.startMulti (s : State) (c l : Nat) : State :=
  (s.setMem (s.mem.writeBytes (bufAddr c 0) (s.dBytes 2 (s.n - 2)))).setChan c
    { s.ch c with len := BitVec.ofNat 12 (s.n - 2), total := BitVec.ofNat 12 l, nextSeq := 1, state := .assembling }

/-- How many bytes a matching CF contributes: `min(n - 1, TOTAL - LEN)` (42_reassembly R184). -/
def State.cfCount (s : State) (c : Nat) : Nat := min (s.n - 1) ((s.ch c).total.toNat - (s.ch c).len.toNat)

/-- A channel after a matching CF of `m` payload bytes (42_reassembly R184, R185). -/
def Channel.advance (x : Channel) (m : Nat) : Channel :=
  if x.len.toNat + m = x.total.toNat then
    { x with len := BitVec.ofNat 12 (x.len.toNat + m), nextSeq := x.nextSeq + 1, state := .complete, event := true }
  else { x with len := BitVec.ofNat 12 (x.len.toNat + m), nextSeq := x.nextSeq + 1 }

/-- CF in Assembling with the expected SN (42_reassembly R184). -/
def State.continueMulti (s : State) (c : Nat) : State :=
  (s.append c (s.dBytes 1 (s.cfCount c))).setChan c ((s.ch c).advance (s.cfCount c))

/-- A frame that is not malformed, in AwaitingFirst (42_reassembly R179, R180, R181, R183). -/
def State.acceptFirst (s : State) (c : Nat) : FrameClass → State
  | .mal e => s.fail c e
  | .sf x => s.startSingle c x
  | .sfShort => s.fail c .sfShort
  | .ff l => s.startMulti c l
  | .cf _ => s.fail c .cfUnexpected

/-- A frame that is not malformed, in Assembling (42_reassembly R184, R186, R187). -/
def State.acceptNext (s : State) (c : Nat) : FrameClass → State
  | .mal e => s.fail c e
  | .sf _ => s.fail c .interrupted
  | .sfShort => s.fail c .interrupted
  | .ff _ => s.fail c .interrupted
  | .cf sn => if sn = (s.ch c).nextSeq then s.continueMulti c else s.fail c .badSn

/-- A frame in Complete: a malformed one fails the channel with its detail, any other with AFTER_COMPLETE (42_reassembly R188, R189). -/
def State.acceptLate (s : State) (c : Nat) : FrameClass → State
  | .mal e => s.fail c e
  | .sf _ => s.fail c .afterComplete
  | .sfShort => s.fail c .afterComplete
  | .ff _ => s.fail c .afterComplete
  | .cf _ => s.fail c .afterComplete

/-- `accept(c, id, len)` for a frame of class `v` (42_reassembly R175): a Failed channel ignores it (R177). -/
def State.acceptFrame (s : State) (c : Nat) (v : FrameClass) : State :=
  match (s.ch c).state with
  | .failed => s
  | .awaitingFirst => s.acceptFirst c v
  | .assembling => s.acceptNext c v
  | .complete => s.acceptLate c v

/-- The body of PUSH_FRAME for a frame of class `v` (41_frame_ingress R150). -/
def State.pushClass (s : State) (v : FrameClass) : State :=
  match s.precheck with
  | .none =>
    match s.route with
    | none => s.dropFrame
    | some c => s.acceptFrame c v
  | p => s.reject p

/-- SF: a pushed frame whose header is a single frame's (42_reassembly R176, R179). -/
def execSf (dl : BitVec 4) (s : State) : Host.Outcome State Fault Refusal :=
  .next (s.pushClass (classifySf dl s.n))

/-- FF: a pushed frame whose header is a first frame's (42_reassembly R176, R178, R181). -/
def execFf (dl : BitVec 12) (s : State) : Host.Outcome State Fault Refusal :=
  .next (s.pushClass (classifyFf dl s.n s.k s.sizes.payloadCap))

/-- CF: a pushed frame whose header is a consecutive frame's (42_reassembly R176, R184). -/
def execCf (sn : BitVec 4) (s : State) : Host.Outcome State Fault Refusal :=
  .next (s.pushClass (classifyCf sn s.n))

/-- PCI type 0x3: malformed, PCI_TYPE (42_reassembly R176). -/
def execPciRsv3 (_low : BitVec 4) (s : State) : Host.Outcome State Fault Refusal :=
  .next (s.pushClass (classifyReserved s.n))

/-- PCI types 0x4 to 0x7: malformed, PCI_TYPE (42_reassembly R176). -/
def execPciRsv47 (_low : BitVec 6) (s : State) : Host.Outcome State Fault Refusal :=
  .next (s.pushClass (classifyReserved s.n))

/-- PCI types 0x8 to 0xF: malformed, PCI_TYPE (42_reassembly R176). -/
def execPciRsv8F (_low : BitVec 7) (s : State) : Host.Outcome State Fault Refusal :=
  .next (s.pushClass (classifyReserved s.n))

end Sys2Proof.Machine
end

