-- ==== Sys2Proof/Machine/Command.lean ====
section
/-! DEFINITION. The commands that act on frames and channels: NOP, PUSH_FRAME, END_CAPTURE, CH_RESET, RESET_CHANNELS. A meaning is a
command's body; the commit around it (40_command_dispatch R133) is the step's. -/

namespace Sys2Proof.Machine

/-- NOP (40_command_dispatch R138): CH and IDX are ignored. -/
def execNop (_ch : BitVec 4) (_idx : BitVec 10) (s : State) : Host.Outcome State Fault Refusal := .next s

/-- PUSH_FRAME (41_frame_ingress R150): CH and IDX are ignored. -/
def execPushFrame (_ch : BitVec 4) (_idx : BitVec 10) (s : State) : Host.Outcome State Fault Refusal :=
  .next (s.pushClass (classify (s.d 0) (s.d 1) s.n s.k s.sizes.payloadCap))

/-- What END_CAPTURE does to a channel (42_reassembly R193, R194). -/
def Channel.endCapture (c : Channel) : Channel :=
  match c.state with
  | .assembling => c.fail .endOfCapture
  | .awaitingFirst => c
  | .complete => c
  | .failed => c

/-- END_CAPTURE (42_reassembly R193): CH and IDX are ignored. -/
def execEndCapture (_ch : BitVec 4) (_idx : BitVec 10) (s : State) : Host.Outcome State Fault Refusal :=
  .next (s.setChannels (s.channels.map Channel.endCapture))

/-- CH_RESET (42_reassembly R195): IDX is ignored; BAD_CHANNEL for a channel that does not exist (40_command_dispatch R137). -/
def execChReset (ch : BitVec 4) (_idx : BitVec 10) (s : State) : Host.Outcome State Fault Refusal :=
  if ch.toNat < s.numChannels then .next (s.setChan ch.toNat (s.ch ch.toNat).clear)
  else .next (s.cmdError .badChannel)

/-- RESET_CHANNELS (42_reassembly R197): CH and IDX are ignored. -/
def execResetChannels (_ch : BitVec 4) (_idx : BitVec 10) (s : State) : Host.Outcome State Fault Refusal :=
  .next (s.setChannels (s.channels.map Channel.clear))

end Sys2Proof.Machine
end

