-- ==== Sys2Proof/Machine/Float64.lean ====
section
/-! DEFINITION. IEEE 754 binary64 multiplication, addition and conversion from an unsigned integer, in roundTiesToEven, with
subnormals in full (43_signal_decode R225 to R228). The definitions are IEEE 754-2008's, which the spec takes from general knowledge
(93_implementation_defined G7; log 12).

Everything is exact until one rounding at the end. A finite binary64 is a whole number of units of 2^-1074, so a product of two is a
whole number of units of 2^-2148. Exact magnitudes are natural numbers of that smaller unit, and `roundMag` is the one place where a
magnitude is rounded. -/

namespace Sys2Proof.Machine.F64

/-- The canonical quiet NaN (43_signal_decode R227). -/
def canonicalNaN : F64 := 0x7FF8000000000000

/-- The sign: true is negative. -/
def neg (x : F64) : Bool := x.getLsbD 63

/-- The biased exponent field. -/
def expo (x : F64) : Nat := (x.extractLsb' 52 11).toNat

/-- The fraction field. -/
def frac (x : F64) : Nat := (x.extractLsb' 0 52).toNat

def isNaN (x : F64) : Bool := decide (expo x = 2047) && decide (frac x ≠ 0)

def isInf (x : F64) : Bool := decide (expo x = 2047) && decide (frac x = 0)

/-- The magnitude of a finite value, in units of 2^-1074. -/
def mag (x : F64) : Nat := if expo x = 0 then frac x else (2 ^ 52 + frac x) * 2 ^ (expo x - 1)

def isZero (x : F64) : Bool := decide (mag x = 0)

/-- A sign on a 63-bit magnitude pattern. -/
def withSign (n : Bool) (m : Nat) : F64 := BitVec.ofBool n ++ BitVec.ofNat 63 m

/-- Infinity with a sign. -/
def inf (n : Bool) : F64 := withSign n (2047 * 2 ^ 52)

/-- How many low bits of an exact magnitude of `u` units of 2^-2148 lie below the last place of its binary64: 53 significant bits
are kept, and never less than the subnormal spacing of 2^-1074. -/
def dropBits (u : Nat) : Nat := max (u.log2 - 52) 1074

/-- `u / 2 ^ sh` rounded to the nearest integer, ties to even. -/
def roundQuot (u sh : Nat) : Nat :=
  let q := u / 2 ^ sh
  let r := u % 2 ^ sh
  if 2 ^ sh < 2 * r ∨ (2 * r = 2 ^ sh ∧ q % 2 = 1) then q + 1 else q

/-- The 63-bit pattern (exponent and fraction) of an exact magnitude of `u` units of 2^-2148, rounded to nearest, ties to even. The
quotient is the significand; adding it to the exponent step carries into the exponent where rounding reaches the next power of two.
A result of 2^1024 or more overflows to infinity. -/
def roundMag (u : Nat) : Nat :=
  min ((dropBits u - 1074) * 2 ^ 52 + roundQuot u (dropBits u)) (2047 * 2 ^ 52)

/-- `f64_of_u64(x)` (00_scope R13; 43_signal_decode R228). -/
def ofNat (x : Nat) : F64 := withSign false (roundMag (x * 2 ^ 2148))

/-- The exact quotient `a / b` cut to a whole number, odd wherever something was cut. Rounding drops at least 1074 bits, so no halfway
point is odd, and the cut number rounds as the exact quotient does. -/
def stickyQuot (a b : Nat) : Nat := if a % b = 0 then a / b else 2 * (a / b / 2) + 1

/-- The binary64 nearest to the quotient `a / b`, with a sign; ties to even. -/
def ofRatio (n : Bool) (a b : Nat) : F64 := withSign n (roundMag (stickyQuot (a * 2 ^ 2148) b))

/-- The binary64 nearest to the decimal value `m * 10 ^ e`, with a sign; ties to even (30_encoding R109; log 18). -/
def ofDecimal (n : Bool) (m : Nat) (e : Int) : F64 := ofRatio n (m * 10 ^ e.toNat) (10 ^ (-e).toNat)

/-- `f64_mul(a, b)` (43_signal_decode R226, R227). -/
def mul (a b : F64) : F64 :=
  if isNaN a || isNaN b then canonicalNaN
  else if isInf a || isInf b then
    if isZero a || isZero b then canonicalNaN else inf (neg a ^^ neg b)
  else withSign (neg a ^^ neg b) (roundMag (mag a * mag b))

/-- The signed value of a finite binary64, in units of 2^-1074. -/
def toInt (x : F64) : Int := if neg x then -(mag x : Int) else (mag x : Int)

/-- `f64_add(a, b)` (43_signal_decode R226, R227). An exact sum of zero is +0, except that -0 + -0 is -0. -/
def add (a b : F64) : F64 :=
  if isNaN a || isNaN b then canonicalNaN
  else if isInf a then
    if isInf b && (neg a ^^ neg b) then canonicalNaN else inf (neg a)
  else if isInf b then inf (neg b)
  else if toInt a + toInt b = 0 then withSign (neg a && neg b) 0
  else withSign (decide (toInt a + toInt b < 0)) (roundMag ((toInt a + toInt b).natAbs * 2 ^ 1074))

/-- `linear(raw, SCALE, OFFSET)` (43_signal_decode R225): a multiply and an add, each rounded, not fused; every NaN is the canonical
one (R227). -/
def linear (raw : Nat) (scale offset : F64) : F64 :=
  if isNaN (add (mul (ofNat raw) scale) offset) then canonicalNaN else add (mul (ofNat raw) scale) offset

end Sys2Proof.Machine.F64
end

