-- ==== Sys2Proof/Machine/Signal.lean ====
section
/-! DEFINITION. Signal matching, extraction and interpretation: DECODE and EXTRACT (43_signal_decode R211 to R236). Every function
here reads descriptor and LUT words in the order of R214, and stops at the first one that was never written (log 7). -/

namespace Sys2Proof.Machine

/-- `result(code, raw, val, label)` on channel `ch` (43_signal_decode R212). -/
def State.mkResult (s : State) (ch : Nat) (code : ResCode) (raw : Nat) (val : F64) (label : BitVec 16) : Result :=
  { code := code, chState := (s.ch ch).state, raw := BitVec.ofNat 64 raw, val := val, label := label }

/-- `invalid(S)` for the slot `i` whose D0 is `d0` (30_encoding R103): D2 is read when VALID = 1, and D9 when also PFX_LEN ≤ 8,
XFORM = 1 and bit_length ≤ 32 (43_signal_decode R214). -/
def State.descInvalid (s : State) (i : Nat) (d0 : Word) : Except Fault Bool :=
  if !d0Valid d0 then .ok true
  else
    match s.descWord i 2 with
    | .error e => .error e
    | .ok d2 =>
      if d2PfxLen d2 > 8 then .ok true
      else if !d0Enum d0 then .ok false
      else if d0BitLength d0 > 32 then .ok true
      else
        match s.descWord i 9 with
        | .error e => .error e
        | .ok d9 => .ok (decide (d9LutBase d9 + d9LutCount d9 > s.sizes.enumDepth))

/-- `id_match(S, ch)` (43_signal_decode R216, R217): FILTER_EN is not read, and TA only under extended addressing. -/
def State.idMatch (s : State) (ch : Nat) (d1 d2 : Word) : Bool :=
  decide (d1MatchId d1 = (s.ch ch).filterId) && (!s.cfg.ext || decide (d2MatchTa d2 = (s.ch ch).ta))

/-- The pattern comparison of `prefix_match` (43_signal_decode R219, R220). -/
def State.pfxBytesMatch (s : State) (ch : Nat) (d2 d3 d4 : Word) : Bool :=
  decide (d2PfxLen d2 ≤ (s.ch ch).len.toNat) &&
    (List.range (d2PfxLen d2)).all fun j => !d2PfxCare d2 j || decide (s.buf ch j = pfxByte d3 d4 j)

/-- Words D3 and D4, each read only where the pattern reaches it: D3 when PFX_LEN ≥ 1, D4 when PFX_LEN ≥ 5 (43_signal_decode R214;
log 8). -/
def State.pfxWords (s : State) (i : Nat) (d2 : Word) : Except Fault (Word × Word) :=
  if d2PfxLen d2 = 0 then .ok (0, 0)
  else
    match s.descWord i 3 with
    | .error e => .error e
    | .ok d3 =>
      if d2PfxLen d2 < 5 then .ok (d3, 0)
      else
        match s.descWord i 4 with
        | .error e => .error e
        | .ok d4 => .ok (d3, d4)

/-- SCALE and OFFSET, words D5 to D8 (30_encoding R101). -/
def State.scaleOffset (s : State) (i : Nat) : Except Fault (F64 × F64) :=
  match s.descWord i 5 with
  | .error e => .error e
  | .ok d5 =>
    match s.descWord i 6 with
    | .error e => .error e
    | .ok d6 =>
      match s.descWord i 7 with
      | .error e => .error e
      | .ok d7 =>
        match s.descWord i 8 with
        | .error e => .error e
        | .ok d8 => .ok (d6 ++ d5, d8 ++ d7)

/-- `lookup(S, raw)` over the `count` entries from `j` up (43_signal_decode R230): the first entry whose KEY is raw (R231). -/
def State.lookup (s : State) (raw : Nat) (j : Nat) : Nat → Except Fault (Option Nat)
  | 0 => .ok none
  | count + 1 =>
    match s.lutWord j 0 with
    | .error e => .error e
    | .ok key => if key.toNat = raw then .ok (some j) else State.lookup s raw (j + 1) count

/-- The EnumMap outcome of raw value `raw` (43_signal_decode R213, R230, R233). -/
def State.enumResult (s : State) (ch i raw : Nat) : Except Fault Result :=
  match s.descWord i 9 with
  | .error e => .error e
  | .ok d9 =>
    match s.lookup raw (d9LutBase d9) (d9LutCount d9) with
    | .error e => .error e
    | .ok none => .ok (s.mkResult ch .unmappedEnum raw 0 0)
    | .ok (some j) =>
      match s.lutWord j 1 with
      | .error e => .error e
      | .ok w => .ok (s.mkResult ch .okLabel raw 0 (w.extractLsb' 0 16))

/-- The Linear outcome of raw value `raw` (43_signal_decode R213, R225). -/
def State.linearResult (s : State) (ch i raw : Nat) : Except Fault Result :=
  match s.scaleOffset i with
  | .error e => .error e
  | .ok (scale, offset) => .ok (s.mkResult ch .okNumeric raw (F64.linear raw scale offset) 0)

/-- DECODE from its bounds check on (43_signal_decode R213, R221, R224). -/
def State.decodeField (s : State) (ch i : Nat) (d0 : Word) : Except Fault Result :=
  if d0BitOffset d0 + d0BitLength d0 > 8 * (s.ch ch).len.toNat then .ok (s.mkResult ch .bitRangeOob 0 0 0)
  else if d0Enum d0 then s.enumResult ch i (s.extractField ch (d0BitOffset d0) (d0BitLength d0))
  else s.linearResult ch i (s.extractField ch (d0BitOffset d0) (d0BitLength d0))

/-- DECODE from its payload check on (43_signal_decode R213, R218, R219). -/
def State.decodePayload (s : State) (ch i : Nat) (d0 d2 : Word) : Except Fault Result :=
  if (s.ch ch).state ≠ .complete then .ok (s.mkResult ch .noPayload 0 0 0)
  else
    match s.pfxWords i d2 with
    | .error e => .error e
    | .ok (d3, d4) =>
      if s.pfxBytesMatch ch d2 d3 d4 then s.decodeField ch i d0 else .ok (s.mkResult ch .notMatched 0 0 0)

/-- DECODE from its ID check on (43_signal_decode R213, R216). -/
def State.decodeMatched (s : State) (ch i : Nat) (d0 : Word) : Except Fault Result :=
  match s.descWord i 1 with
  | .error e => .error e
  | .ok d1 =>
    match s.descWord i 2 with
    | .error e => .error e
    | .ok d2 => if s.idMatch ch d1 d2 then s.decodePayload ch i d0 d2 else .ok (s.mkResult ch .notMatched 0 0 0)

/-- The outcome of DECODE of slot `i` against channel `ch` (43_signal_decode R213). -/
def State.decodeSignal (s : State) (ch i : Nat) : Except Fault Result :=
  match s.descWord i 0 with
  | .error e => .error e
  | .ok d0 =>
    match s.descInvalid i d0 with
    | .error e => .error e
    | .ok true => .ok (s.mkResult ch .invalidDescriptor 0 0 0)
    | .ok false => s.decodeMatched ch i d0

/-- DECODE (43_signal_decode R213): BAD_CHANNEL, then BAD_INDEX (40_command_dispatch R137). -/
def execDecode (ch : BitVec 4) (idx : BitVec 10) (s : State) : Host.Outcome State Fault Refusal :=
  if ch.toNat < s.numChannels then
    if idx.toNat < s.sizes.numSignals then
      match s.decodeSignal ch.toNat idx.toNat with
      | .ok r => .next (s.setResult r)
      | .error e => .fault e
    else .next (s.cmdError .badIndex)
  else .next (s.cmdError .badChannel)

/-- The outcome of EXTRACT on channel `ch` (43_signal_decode R235). -/
def State.extractResult (s : State) (ch : Nat) : Result :=
  if (s.ch ch).state ≠ .complete then s.mkResult ch .noPayload 0 0 0
  else if s.xcfg.bitOffset.toNat + (s.xcfg.lenM1.toNat + 1) > 8 * (s.ch ch).len.toNat then s.mkResult ch .bitRangeOob 0 0 0
  else s.mkResult ch .okRaw (s.extractField ch s.xcfg.bitOffset.toNat (s.xcfg.lenM1.toNat + 1)) 0 0

/-- EXTRACT (43_signal_decode R235): IDX is ignored; BAD_CHANNEL (40_command_dispatch R137). -/
def execExtract (ch : BitVec 4) (_idx : BitVec 10) (s : State) : Host.Outcome State Fault Refusal :=
  if ch.toNat < s.numChannels then .next (s.setResult (s.extractResult ch.toNat))
  else .next (s.cmdError .badChannel)

end Sys2Proof.Machine
end

