-- ==== Sys2Proof/Machine/Dispatch.lean ====
section
/-! DEFINITION. The meaning of every instruction: one direct call for each constructor of Instr. A meaning is the body of a command,
or what a pushed frame with a PCI row's header does; the commit around it is the step's. -/

namespace Sys2Proof.Machine

def exec (i : Instr) (s : State) : Host.Outcome State Fault Refusal :=
  match i with
  | .nop ch idx => Sys2Proof.Machine.execNop ch idx s
  | .pushFrame ch idx => Sys2Proof.Machine.execPushFrame ch idx s
  | .endCapture ch idx => Sys2Proof.Machine.execEndCapture ch idx s
  | .chReset ch idx => Sys2Proof.Machine.execChReset ch idx s
  | .resetChannels ch idx => Sys2Proof.Machine.execResetChannels ch idx s
  | .decode ch idx => Sys2Proof.Machine.execDecode ch idx s
  | .extract ch idx => Sys2Proof.Machine.execExtract ch idx s
  | .sf dl => Sys2Proof.Machine.execSf dl s
  | .ff dl => Sys2Proof.Machine.execFf dl s
  | .cf sn => Sys2Proof.Machine.execCf sn s
  | .pciRsv3 low => Sys2Proof.Machine.execPciRsv3 low s
  | .pciRsv47 low => Sys2Proof.Machine.execPciRsv47 low s
  | .pciRsv8F low => Sys2Proof.Machine.execPciRsv8F low s

end Sys2Proof.Machine
end

