-- ==== Sys2Proof/Machine/Engine.lean ====
section
/-! DEFINITION. The commit of a pending command (40_command_dispatch R133 to R137), what each schedule entry does, and how a program's
instruction is placed where the engine takes its next one. -/

namespace Sys2Proof.Machine

/-- The command error of a word that encodes no command (30_encoding R106; 40_command_dispatch R137). -/
def causeOf : DecodeError → CmdCause
  | .reservedBits => .reservedBits
  | .illegalOp => .illegalOp

/-- The state after a commit, from the state its body left (40_command_dispatch R133). -/
def State.committed (s : State) : State := s.finish.tick

/-- The commit of the command word `w` (40_command_dispatch R133): the body of its command, or `cmd_error`, and then
`PENDING <- none; STATUS.DONE <- 1`. -/
def State.commit (s : State) (w : Word) : Host.Outcome State Fault Refusal :=
  match decodeCmd w with
  | .error e => .next (s.cmdError (causeOf e)).committed
  | .ok i =>
    match exec i s with
    | .next t => .next t.committed
    | .fault r => .fault r
    | .refused r => .refused r

/-- The engine's turn: it commits the pending command, and has nothing to do where there is none (10_state R18) or where `rst` holds
the block in reset (70_reset_and_hazards R291). -/
def State.engineTurn (s : State) : Host.Outcome State Fault Refusal :=
  if s.rst then .next s
  else
    match s.pending with
    | none => .next s
    | some w => s.commit w

/-- What a schedule entry does (log 1). A read draws no new free value (20_memory R68; log 6); everything else may. -/
def State.runEvent (s : State) : Event → Host.Outcome State Fault Refusal
  | .read a => .next (s.hostRead a)
  | .write a d be => .next (s.hostWrite a d be).tick
  | .engine => s.engineTurn
  | .assertRst => .next s.assertRst.tick
  | .releaseRst => .next s.releaseRst.tick
  | .powerOn => .next s.powerOn.tick

/-- The state in which the command word `w` is pending and the engine moves next: what an accepted CMD write leaves
(40_command_dispatch R131; log 14). -/
def State.withCommand (s : State) (w : Word) : State :=
  { s with pending := some w, rst := false, schedule := .engine :: s.schedule }

/-- FIN_DATA0 with the transport bytes d(0) and d(1) replaced, after a target address where there is one (30_encoding R89). -/
def State.headerData (s : State) (d0 d1 : Byte) : Word :=
  if s.cfg.ext then s.fin.data0.extractLsb' 24 8 ++ d1 ++ d0 ++ s.fin.data0.extractLsb' 0 8
  else s.fin.data0.extractLsb' 16 16 ++ d1 ++ d0

/-- The state in which a frame with the header `d0 d1` is in the frame input registers, as 8 bytes of an ID in range, channel 0's
filter accepts it, and PUSH_FRAME is pending with the engine moving next (log 14). -/
def State.withFrameHeader (s : State) (d0 d1 : Byte) : State :=
  let id : BitVec 29 := if s.cfg.idw then s.fin.id else s.fin.id &&& 0x7FF
  let s1 := { s with fin := { id := id, len := 8, data0 := s.headerData d0 d1, data1 := s.fin.data1 } }
  (s1.setChan 0 { s1.ch 0 with filterEn := true, filterId := id, ta := s1.fin.byte 0 }).withCommand (cmdWord 0x01 0 0)

/-- The state whose next step runs the instruction whose bits are `w`, numbered as spec/opcode_table.json numbers them (log 14). -/
def State.withTableWord (s : State) (nbits w : Nat) : State :=
  if nbits ≤ 16 then s.withFrameHeader (BitVec.ofNat 8 w) (BitVec.ofNat 8 (w / 256)) else s.withCommand (BitVec.ofNat 32 w)

end Sys2Proof.Machine
end

