-- ==== Sys2Proof/Machine/Step.lean ====
section
/-! DEFINITION. One step of BFX: a host access, a pin event or an engine turn (00_scope R8). -/

namespace Sys2Proof.Machine

/-- One step: the schedule's next entry, and where the schedule is empty the engine's turn, so that a pending command always commits
(40_command_dispatch R133, R141; log 1). -/
def step (s : State) : Host.Outcome State Fault Refusal :=
  match s.schedule with
  | [] => s.engineTurn
  | e :: rest => State.runEvent { s with schedule := rest } e

/-- `s` with the instruction whose bits are `w` placed where the very next step takes it (log 14). -/
def State.withFetchWord (s : State) (nbits w : Nat) : State := s.withTableWord nbits w

end Sys2Proof.Machine
end

