-- ==== Sys2Proof/Machine/HostText.lean ====
section
/-! DEFINITION. The host's side, as far as the spec gives it: the transcriber of capture text (30_encoding R110, R111), the command
mnemonics (R108), the pseudo-instructions (R109), and the reading of results as the source's failure kinds (43_signal_decode R238;
60_exceptions R266). It is software outside the block: its functions give the entries of a schedule. Text is a list of characters. -/

namespace Sys2Proof.Machine.HostText

/-! ### The transcriber -/

/-- Why the transcriber refuses a capture as MalformedFrame (30_encoding R111). -/
inductive TextFault where
  | noLine | shortId | notHex | oddPayload | tooLong
  deriving DecidableEq, Repr

/-- A transcribed capture line: the ID as its digits spell it, and the payload bytes, first byte first (30_encoding R110). -/
structure RawFrame where
  id : Word
  bytes : List Byte
  deriving DecidableEq, Repr

/-- The value of a hex digit, upper or lower case (30_encoding R110). -/
def hexDigit (c : Char) : Option Nat :=
  if 48 ≤ c.toNat ∧ c.toNat ≤ 57 then some (c.toNat - 48)
  else if 65 ≤ c.toNat ∧ c.toNat ≤ 70 then some (c.toNat - 55)
  else if 97 ≤ c.toNat ∧ c.toNat ≤ 102 then some (c.toNat - 87)
  else none

/-- The values of hex digits, or none where a character is no digit. -/
def hexDigits : List Char → Option (List Nat)
  | [] => some []
  | c :: cs =>
    match hexDigit c, hexDigits cs with
    | some d, some ds => some (d :: ds)
    | _, _ => none

/-- A number from its digits, most significant first. -/
def ofDigits (base : Nat) (ds : List Nat) : Nat := ds.foldl (fun acc d => acc * base + d) 0

/-- Two digits a byte; none where one is left over. -/
def pairBytes : List Nat → Option (List Byte)
  | [] => some []
  | [_] => none
  | h :: l :: ds => (pairBytes ds).map (BitVec.ofNat 8 (16 * h + l) :: ·)

/-- The characters trimmed at both ends of a line: space, tab and carriage return (log 17). -/
def isBlank (c : Char) : Bool := c.toNat = 32 || c.toNat = 9 || c.toNat = 13

def trim (cs : List Char) : List Char := ((cs.dropWhile isBlank).reverse.dropWhile isBlank).reverse

/-- The lines of a text, cut at line feeds. -/
def lines : List Char → List (List Char)
  | [] => [[]]
  | c :: cs =>
    if c.toNat = 10 then [] :: lines cs
    else
      match lines cs with
      | [] => [[c]]
      | l :: ls => (c :: l) :: ls

/-- Digits in the ID: 3 for 11-bit IDs, 8 for 29-bit ones (30_encoding R110). -/
def idDigits (idw : Bool) : Nat := if idw then 8 else 3

/-- One capture line, already trimmed (30_encoding R110, R111). -/
def parseLine (idw : Bool) (cs : List Char) : Except TextFault RawFrame :=
  if cs.length < idDigits idw then .error .shortId
  else
    match hexDigits cs with
    | none => .error .notHex
    | some ds =>
      match pairBytes (ds.drop (idDigits idw)) with
      | none => .error .oddPayload
      | some bs =>
        if bs.length > 8 then .error .tooLong
        else .ok { id := BitVec.ofNat 32 (ofDigits 16 (ds.take (idDigits idw))), bytes := bs }

/-- Every line of a capture, in order, or the first refusal. -/
def parseLines (idw : Bool) : List (List Char) → Except TextFault (List RawFrame)
  | [] => .ok []
  | l :: ls =>
    match parseLine idw l with
    | .error e => .error e
    | .ok f =>
      match parseLines idw ls with
      | .error e => .error e
      | .ok fs => .ok (f :: fs)

/-- The transcriber (30_encoding R110, R111): blank lines are ignored, a capture with no other line is refused. -/
def transcribe (idw : Bool) (text : List Char) : Except TextFault (List RawFrame) :=
  match ((lines text).map trim).filter (· ≠ []) with
  | [] => .error .noLine
  | l :: ls => parseLines idw (l :: ls)

/-! ### Command mnemonics (30_encoding R108) -/

/-- A decimal digit. -/
def decDigit (c : Char) : Option Nat := if 48 ≤ c.toNat ∧ c.toNat ≤ 57 then some (c.toNat - 48) else none

def decDigits : List Char → Option (List Nat)
  | [] => some []
  | c :: cs =>
    match decDigit c, decDigits cs with
    | some d, some ds => some (d :: ds)
    | _, _ => none

/-- A decimal or `0x` hexadecimal number (30_encoding R108); `_` only groups digits (00_scope R11). -/
def number (cs : List Char) : Option Nat :=
  match cs.filter (· ≠ '_') with
  | [] => none
  | '0' :: 'x' :: [] => none
  | '0' :: 'x' :: ds => (hexDigits ds).map (ofDigits 16)
  | ds => (decDigits ds).map (ofDigits 10)

/-- A number operand below `bound`, the first value that its field cannot hold (log 18). -/
def operand (bound : Nat) (cs : List Char) : Option Nat := (number (trim cs)).bind fun n => if n < bound then some n else none

/-- The channel operand: it must fit CH, four bits (log 18). -/
def chOperand (cs : List Char) : Option (BitVec 4) := (operand 16 cs).map (BitVec.ofNat 4)

/-- The slot operand: it must fit IDX, ten bits (log 18). -/
def idxOperand (cs : List Char) : Option (BitVec 10) := (operand 1024 cs).map (BitVec.ofNat 10)

/-- The text before and after the first occurrence of a key. -/
def cut (key : List Char) : List Char → Option (List Char × List Char)
  | [] => none
  | c :: cs =>
    if key.isPrefixOf (c :: cs) then some ([], (c :: cs).drop key.length)
    else (cut key cs).map fun p => (c :: p.1, p.2)

/-- The text between a key at the start, blanks apart, and the next key, and the text after that key. -/
def between (key next cs : List Char) : Option (List Char × List Char) :=
  match cut key cs with
  | some (pre, rest) => if trim pre = [] then cut next rest else none
  | none => none

/-- The CMD word of a line of assembler: `CMD = OP | (ch << 8) | (idx << 16)`, unused fields 0 (30_encoding R108). -/
def assemble (line : List Char) : Option Instr :=
  let t := trim line
  let name := t.takeWhile (fun c => !isBlank c)
  let args := t.drop name.length
  let noArgs (i : Instr) : Option Instr := if trim args = [] then some i else none
  let oneArg (f : BitVec 4 → Instr) : Option Instr := (chOperand args).map f
  if name = ['N', 'O', 'P'] then noArgs (.nop 0 0)
  else if name = ['P', 'U', 'S', 'H', '_', 'F', 'R', 'A', 'M', 'E'] then noArgs (.pushFrame 0 0)
  else if name = ['E', 'N', 'D', '_', 'C', 'A', 'P', 'T', 'U', 'R', 'E'] then noArgs (.endCapture 0 0)
  else if name = ['C', 'H', '_', 'R', 'E', 'S', 'E', 'T'] then oneArg (.chReset · 0)
  else if name = ['R', 'E', 'S', 'E', 'T', '_', 'C', 'H', 'A', 'N', 'N', 'E', 'L', 'S'] then noArgs (.resetChannels 0 0)
  else if name = ['D', 'E', 'C', 'O', 'D', 'E'] then
    match cut [','] args with
    | some (a, b) =>
      match chOperand a, idxOperand b with
      | some ch, some idx => some (.decode ch idx)
      | _, _ => none
    | none => none
  else if name = ['E', 'X', 'T', 'R', 'A', 'C', 'T'] then oneArg (.extract · 0)
  else none

/-! ### Pseudo-instructions (30_encoding R109) -/

/-- The transform of a `SIGNAL` line: a scale and an offset, or a LUT range (30_encoding R109). -/
inductive Transform where
  | linear (scale offset : F64)
  | enum (base : BitVec 12) (count : BitVec 13)
  deriving DecidableEq, Repr

/-- The operands of a `SIGNAL` line (30_encoding R109): `len` is a bit length of 1 to 64, and `pfx` the pattern's bytes, at most 8. -/
structure SignalDef where
  off : BitVec 15
  len : Nat
  id : BitVec 29
  ta : Byte
  pfx : List Byte
  care : Byte
  transform : Transform
  deriving DecidableEq, Repr

/-- `WR addr, data`: a full-word write. -/
def wr (a : Nat) (d : Word) : Event := .write (BitVec.ofNat 18 a) d 0b1111

/-- `POLL`: the engine gets its turn, and STATUS is read (log 18). -/
def poll : List Event := [.engine, .read 0x018]

/-- The word that `CMD` writes for an instruction; a PCI row is no command. -/
def commandWord (i : Instr) : Option Word :=
  match encode i with
  | .cmd w => some w
  | .header _ _ => none

/-- `CMD <mnemonic>`. -/
def cmd (i : Instr) : List Event :=
  match commandWord i with
  | some w => wr 0x014 w :: poll
  | none => []

/-- Bytes `i .. i+3` of a list as a bus word, absent bytes 0. -/
def wordAt (bs : List Byte) (i : Nat) : Word := packWord (bs.getD i 0) (bs.getD (i + 1) 0) (bs.getD (i + 2) 0) (bs.getD (i + 3) 0)

/-- `FRAME <hexline>`: absent bytes are 0. -/
def frame (f : RawFrame) : List Event :=
  [wr 0x030 f.id, wr 0x034 (BitVec.ofNat 32 f.bytes.length), wr 0x038 (wordAt f.bytes 0), wr 0x03C (wordAt f.bytes 4)]
    ++ cmd (.pushFrame 0 0)

/-- `CAPTURE <line>; <line>; ...`. -/
def capture (fs : List RawFrame) : List Event :=
  cmd (.resetChannels 0 0) ++ fs.flatMap frame ++ cmd (.endCapture 0 0)

/-- XFORM of a transform. -/
def Transform.isEnum : Transform → Bool
  | .linear _ _ => false
  | .enum _ _ => true

/-- The descriptor words D0 to D9 of a `SIGNAL` line: LEN_M1 is the length minus one (30_encoding R97), PFX_LEN the number of pattern
bytes (R99), and D3 and D4 hold them (R100). Words the transform does not use are 0. -/
def SignalDef.word (d : SignalDef) (w : Nat) : Word :=
  let sc : F64 × F64 := match d.transform with
    | .linear a b => (a, b)
    | .enum _ _ => (0, 0)
  match w with
  | 0 => 1#1 ++ 0#6 ++ BitVec.ofBool d.transform.isEnum ++ 0#2 ++ BitVec.ofNat 6 (d.len - 1) ++ 0#1 ++ d.off
  | 1 => 0#3 ++ d.id
  | 2 => 0#8 ++ d.care ++ 0#4 ++ BitVec.ofNat 4 d.pfx.length ++ d.ta
  | 3 => wordAt d.pfx 0
  | 4 => wordAt d.pfx 4
  | 5 => sc.1.extractLsb' 0 32
  | 6 => sc.1.extractLsb' 32 32
  | 7 => sc.2.extractLsb' 0 32
  | 8 => sc.2.extractLsb' 32 32
  | _ =>
    match d.transform with
    | .linear _ _ => 0
    | .enum b n => 0#3 ++ n ++ 0#4 ++ b

/-- `SIGNAL <i>: ...`: D1 to D9, and D0 with VALID = 1 last. -/
def signal (i : Nat) (d : SignalDef) : List Event :=
  [1, 2, 3, 4, 5, 6, 7, 8, 9, 0].map fun w => wr (descAddr i w) (d.word w)

/-- `ENUM <j>: <key> -> <label>`. -/
def enum (j : Nat) (key : Word) (label : BitVec 16) : List Event := [wr (lutAddr j 0) key, wr (lutAddr j 1) (0#16 ++ label)]

/-! ### The text of the pseudo-instructions (30_encoding R109; log 18) -/

/-- Digits of a decimal value with at most one point: their number, and how many stand after the point. -/
def pointDigits (cs : List Char) : Option (Nat × Nat) :=
  match cut ['.'] cs with
  | none => if cs = [] then none else (decDigits cs).map fun ds => (ofDigits 10 ds, 0)
  | some (a, b) => if a ++ b = [] then none else (decDigits (a ++ b)).map fun ds => (ofDigits 10 ds, b.length)

/-- A sign, if there is one, and the text after it: true is negative. -/
def signed : List Char → Bool × List Char
  | '-' :: cs => (true, cs)
  | '+' :: cs => (false, cs)
  | cs => (false, cs)

/-- A decimal exponent, with or without a sign. -/
def exponent (cs : List Char) : Option Int :=
  match (signed cs).2 with
  | [] => none
  | ds => (decDigits ds).map fun n => if (signed cs).1 then -(ofDigits 10 n : Int) else (ofDigits 10 n : Int)

/-- A decimal value `m * 10 ^ e` without its sign: digits, a point, and an exponent after `e`. -/
def decimal (cs : List Char) : Option (Nat × Int) :=
  match cut ['e'] cs with
  | none => (pointDigits cs).map fun p => (p.1, -(p.2 : Int))
  | some (a, b) =>
    match pointDigits a, exponent b with
    | some p, some x => some (p.1, x - p.2)
    | _, _ => none

/-- A `<scale>` or `<offset>`: a `0x` 16-digit bit pattern, or a decimal value rounded to binary64 (30_encoding R109). A quotient of two
whole numbers, which 95_test_vectors writes for fl(100/255), is rounded once. -/
def value (text : List Char) : Option F64 :=
  match trim text with
  | '0' :: 'x' :: ds =>
    if (ds.filter (· ≠ '_')).length = 16 then (hexDigits (ds.filter (· ≠ '_'))).map fun h => BitVec.ofNat 64 (ofDigits 16 h) else none
  | cs =>
    let n := (signed cs).1
    match cut ['/'] (signed cs).2 with
    | none => (decimal (signed cs).2).map fun p => F64.ofDecimal n p.1 p.2
    | some (a, b) =>
      match operand (2 ^ 64) a, operand (2 ^ 64) b with
      | some x, some y => if y = 0 then none else some (F64.ofRatio n x y)
      | _, _ => none

/-- `<bytes|->`: pairs of hex digits, blanks apart, at most 8 of them; `-` is none. -/
def pfxBytes (text : List Char) : Option (List Byte) :=
  if trim text = ['-'] then some []
  else ((hexDigits (text.filter (!isBlank ·))).bind pairBytes).bind fun bs => if bs.length ≤ 8 then some bs else none

/-- `linear(<scale>,<offset>)` or `enum(<base>,<count>)`, and the text before it. -/
def transform (cs : List Char) : Option (List Char × Transform) :=
  match cut ['l', 'i', 'n', 'e', 'a', 'r', '('] cs, cut ['e', 'n', 'u', 'm', '('] cs with
  | some (pre, body), _ => do
    let (a, r) ← cut [','] body
    let (b, e) ← cut [')'] r
    if trim e = [] then some (pre, .linear (← value a) (← value b)) else none
  | none, some (pre, body) => do
    let (a, r) ← cut [','] body
    let (b, e) ← cut [')'] r
    if trim e = [] then
      some (pre, .enum (BitVec.ofNat 12 (← operand (2 ^ 12) a)) (BitVec.ofNat 13 (← operand (2 ^ 13) b)))
    else none
  | none, none => none

/-- The `ta=` operand's text, the pattern and the care mask: where `pfx=` and `care=` are left out, there is no pattern. -/
def taPfxCare (cs : List Char) : Option (List Char × List Byte × Byte) :=
  match cut ['p', 'f', 'x', '='] cs with
  | none => some (cs, [], 0)
  | some (ta, r) => do
    let (bytes, care) ← cut ['c', 'a', 'r', 'e', '='] r
    some (ta, ← pfxBytes bytes, BitVec.ofNat 8 (← operand (2 ^ 8) care))

/-- The operands of a `SIGNAL` line, after the word SIGNAL: the slot and its definition. -/
def signalLine (cs : List Char) : Option (Nat × SignalDef) := do
  let (slot, r0) ← cut [':'] cs
  let (off, r1) ← between ['o', 'f', 'f', '='] ['l', 'e', 'n', '='] r0
  let (len, r2) ← cut ['i', 'd', '='] r1
  let (id, r3) ← cut ['t', 'a', '='] r2
  let (head, tr) ← transform r3
  let (ta, pfx, care) ← taPfxCare head
  let l ← operand 65 len
  if l = 0 then none
  else
    some (← operand 1024 slot,
      { off := BitVec.ofNat 15 (← operand (2 ^ 15) off), len := l, id := BitVec.ofNat 29 (← operand (2 ^ 29) id)
        ta := BitVec.ofNat 8 (← operand (2 ^ 8) ta), pfx := pfx, care := care, transform := tr })

/-- The operands of an `ENUM` line, after the word ENUM: `<j>: <key> -> <label>`. -/
def enumLine (cs : List Char) : Option (List Event) := do
  let (j, r) ← cut [':'] cs
  let (key, label) ← cut ['-', '>'] r
  some (enum (← operand 4096 j) (BitVec.ofNat 32 (← operand (2 ^ 32) key)) (BitVec.ofNat 16 (← operand (2 ^ 16) label)))

/-- The transcription of one capture line. -/
def hexLine (idw : Bool) (cs : List Char) : Option RawFrame :=
  match parseLine idw (trim cs) with
  | .ok f => some f
  | .error _ => none

/-- The lines of a `CAPTURE`, cut at semicolons: the text has fewer than `fuel` of them. DESIGN CHOICE (log 18): a blank entry between,
before or after semicolons refuses the whole `CAPTURE`; 30_encoding R110 ignores blank lines of a capture's text, and R109 does not say
whether a `<line>` may be blank. -/
def captureLines (idw : Bool) : Nat → List Char → Option (List RawFrame)
  | 0, _ => none
  | fuel + 1, cs =>
    match cut [';'] cs with
    | none => (hexLine idw cs).map ([·])
    | some (l, rest) => do some ((← hexLine idw l) :: (← captureLines idw fuel rest))

/-- A line of the syntax of 30_encoding R108 and R109, as the host's accesses. -/
def expand (idw : Bool) (line : List Char) : Option (List Event) :=
  let t := trim line
  let name := t.takeWhile (fun c => !isBlank c)
  let args := t.drop name.length
  if name = ['W', 'R'] then do
    let (a, d) ← cut [','] args
    some [wr (← operand (2 ^ 18) a) (BitVec.ofNat 32 (← operand (2 ^ 32) d))]
  else if name = ['R', 'D'] then do some [.read (BitVec.ofNat 18 (← operand (2 ^ 18) args))]
  else if name = ['P', 'O', 'L', 'L'] then if trim args = [] then some poll else none
  else if name = ['C', 'M', 'D'] then (assemble args).map cmd
  else if name = ['F', 'R', 'A', 'M', 'E'] then (hexLine idw args).map frame
  else if name = ['C', 'A', 'P', 'T', 'U', 'R', 'E'] then (captureLines idw (args.length + 1) args).map capture
  else if name = ['S', 'I', 'G', 'N', 'A', 'L'] then (signalLine args).map fun p => signal p.1 p.2
  else if name = ['E', 'N', 'U', 'M'] then enumLine args
  else none

/-! ### The source's failure kinds -/

/-- The five error kinds of the source (60_exceptions R266). -/
inductive SrcError where
  | malformedFrame | sequenceError | incompleteAssembly | bitRangeOutOfBounds | unmappedEnumValue
  deriving DecidableEq, Repr

/-- The source's kind of a channel's recorded error (60_exceptions R262, R266). -/
def srcOfChannel (e : ChErr) : Option SrcError :=
  match e.kind.toNat with
  | 1 => some .malformedFrame
  | 2 => some .sequenceError
  | 3 => some .incompleteAssembly
  | _ => none

/-- The source's kind of a rejected frame (60_exceptions R266). -/
def srcOfReject : RejectDetail → Option SrcError
  | .none => none
  | .lenGt8 | .idRange | .noTa => some .malformedFrame

/-- What the host reports for one DECODE (43_signal_decode R238). -/
inductive Report where
  /-- The value of RES_VAL. -/
  | number (v : F64)
  /-- The label id of RES_LABEL. -/
  | label (l : BitVec 16)
  /-- A failure kind. -/
  | failure (e : SrcError)
  /-- Not part of the matched subset, or left to the host's policy (92_eei_decisions D46; log 19). -/
  | omitted
  deriving DecidableEq, Repr

/-- The report of a result, given the channel's recorded error (43_signal_decode R237, R238). -/
def report (r : Result) (e : ChErr) : Report :=
  match r.code with
  | .okNumeric => .number r.val
  | .okLabel => .label r.label
  | .bitRangeOob => .failure .bitRangeOutOfBounds
  | .unmappedEnum => .failure .unmappedEnumValue
  | .noPayload =>
    match srcOfChannel e with
    | some k => .failure k
    | none => .omitted
  | .notMatched => .omitted
  | .invalidDescriptor => .omitted
  | .okRaw => .omitted
  | .none => .omitted

end Sys2Proof.Machine.HostText
end

