-- ==== Sys2Proof/Safety.lean ====
section
/-! DEFINITION. What a sound state is, in the terms the claims use: the invariants of 10_state R44, the memory's canonical form, and
what the model adds to them. A safe run is one that stays in sound states and never faults. -/

namespace Sys2Proof.Machine

/-- The invariants of 10_state R44 of one channel, where `cap` is PAYLOAD_CAP. R44's `TOTAL ≥ 7 - CFG.EXT + 1` speaks of CFG.EXT as it
stood at the FF, which the state does not keep: its smallest value, 7, is asked for (log 22). -/
structure Channel.Sound (c : Channel) (cap : Nat) : Prop where
  len_le : c.len.toNat ≤ cap
  complete : c.state = .complete → c.len = c.total ∧ 1 ≤ c.len.toNat
  assembling : c.state = .assembling → c.len.toNat < c.total.toNat ∧ 7 ≤ c.total.toNat ∧ c.total.toNat ≤ cap
  awaiting : c.state = .awaitingFirst → c.len = 0
  err_iff : c.err = .none ↔ c.state ≠ .failed

/-- A sound state: legal parameters, sound channels, canonical memory, a stored byte at every buffer index below LEN, and no pending
command while `rst` is asserted (70_reset_and_hazards R292). -/
structure State.Sound (s : State) : Prop where
  legal : s.params.legal
  channels : ∀ c, c < s.numChannels → (s.ch c).Sound s.sizes.payloadCap
  mem : s.mem.wf
  buffers : ∀ c i, c < s.numChannels → i < (s.ch c).len.toNat → (s.mem.read? (bufAddr c i)).isSome = true
  held : s.rst = true → s.pending = none

/-- No reset and no power cycle is scheduled. -/
def State.noReset (s : State) : Prop :=
  ∀ e ∈ s.schedule, e ≠ .assertRst ∧ e ≠ .releaseRst ∧ e ≠ .powerOn

/-- The next step does not fault. -/
def State.safeStep (s : State) : Prop := ∀ r, step s ≠ .fault r

end Sys2Proof.Machine
end

