-- ==== Sys2Proof/Certificates/Slice0/Obligations.lean ====
section
/-! DEFINITION. The statements for the provers: what BFX's rules say, of the model. `Sys2Proof.Claims` holds the vocabulary they share,
written from the rules and not from the model where the rule gives a formula. A frame is written `t = { s with f := t.f, … }`: every
field that is not named is the one of `s`. -/

namespace Sys2Proof.Claims

open Sys2Proof.Machine

/-- The engine moves next, and `rest` is what is scheduled after it. -/
def engineNext (s : State) (rest : List Event) : Prop :=
  s.rst = false ∧ (s.schedule = .engine :: rest ∨ (s.schedule = [] ∧ rest = []))

/-- The commit's own end (40_command_dispatch R133), with the model's free-value counter advanced. -/
def commitOf (t : State) : State :=
  { t with pending := none, status := { t.status with done := true }, freeCount := t.freeCount + 1 }

/-- A commit around the outcome of a body: where the body stops, the step stops. -/
def committing : Host.Outcome State Fault Refusal → Host.Outcome State Fault Refusal
  | .next t => .next (commitOf t)
  | .fault r => .fault r
  | .refused r => .refused r

/-- What R57 and R291 list, but for the RAMs. -/
def registersReset (s t : State) : Prop :=
  t.cfg = ⟨false, false⟩ ∧ t.status = ⟨false, false, false, false, .none⟩ ∧ t.irqEn = ⟨false, false, false, false, false⟩ ∧
  t.counters = ⟨0, 0, .none⟩ ∧ t.fin = ⟨0, 0, 0, 0⟩ ∧ t.xcfg = ⟨0, 0⟩ ∧ t.result = ⟨.none, .awaitingFirst, 0, 0, 0⟩ ∧
  t.pending = none ∧ t.params = s.params ∧
  (∀ c, c < s.numChannels → t.ch c = ⟨false, 0, 0, .awaitingFirst, 0, 0, 0, .none, false⟩) ∧
  (∀ c i, c < s.numChannels → t.windowByte c i = 0)

/-- `validate(w)` (40_command_dispatch R137), none for `ok`. CH is used by opcodes 3, 5 and 6, IDX by opcode 5 (30_encoding R84). -/
def validate (s : State) (w : Word) : Option CmdCause :=
  if w.extractLsb' 12 4 ≠ 0 ∨ w.extractLsb' 26 6 ≠ 0 then some .reservedBits
  else if (w.extractLsb' 0 8).toNat ≥ 0x07 then some .illegalOp
  else if (w.extractLsb' 0 8).toNat ∈ [3, 5, 6] ∧ (w.extractLsb' 8 4).toNat ≥ s.numChannels then some .badChannel
  else if (w.extractLsb' 0 8).toNat = 5 ∧ (w.extractLsb' 16 10).toNat ≥ s.sizes.numSignals then some .badIndex
  else none

/-- The global registers and their offsets (10_state R21). -/
def globalMap : List (Nat × GlobalReg) :=
  [(0x000, .blkId), (0x004, .version), (0x008, .param0), (0x00C, .param1), (0x010, .cfg), (0x014, .cmd), (0x018, .status),
   (0x01C, .irqEn), (0x020, .chEvent), (0x024, .counters), (0x028, .lastReject), (0x030, .finId), (0x034, .finLen),
   (0x038, .finData0), (0x03C, .finData1), (0x040, .xCfg), (0x050, .resCode), (0x054, .resRawLo), (0x058, .resRawHi),
   (0x05C, .resValLo), (0x060, .resValHi), (0x064, .resLabel)]

/-! The codes of the spec's tables. -/

/-- 10_state R39. -/
def stateCode : ChState → Nat
  | .awaitingFirst => 0 | .assembling => 1 | .complete => 2 | .failed => 3

/-- ERR_KIND and ERR_DETAIL (60_exceptions R262, R263). -/
def errCode : ChErr → Nat × Nat
  | .none => (0, 0)
  | .noPci => (1, 1) | .sfDlZero => (1, 2) | .ffTruncated => (1, 3) | .ffDlEscape => (1, 4) | .ffDlSmall => (1, 5)
  | .ffDlCap => (1, 6) | .pciType => (1, 7)
  | .badSn => (2, 1) | .cfUnexpected => (2, 2) | .afterComplete => (2, 3)
  | .sfShort => (3, 1) | .interrupted => (3, 2) | .endOfCapture => (3, 3)

/-- 60_exceptions R263. -/
def rejectCode : RejectDetail → Nat
  | .none => 0 | .lenGt8 => 1 | .idRange => 2 | .noTa => 3

/-- 60_exceptions R264. -/
def causeCode : CmdCause → Nat
  | .none => 0 | .illegalOp => 1 | .badChannel => 2 | .badIndex => 3 | .reservedBits => 4

/-- 60_exceptions R265. -/
def resCode : ResCode → Nat
  | .none => 0 | .okNumeric => 1 | .okLabel => 2 | .okRaw => 3 | .notMatched => 4 | .noPayload => 5
  | .bitRangeOob => 6 | .unmappedEnum => 7 | .invalidDescriptor => 8

/-- The defined bits of every RW word (10_state R21, R41, R52; 30_encoding R96); none for a word that is not RW. -/
def rwMask : Target → Option Word
  | .global .cfg => some 0x00000003
  | .global .irqEn => some 0x0000003E
  | .global .finId => some 0x1FFFFFFF
  | .global .finLen => some 0x0000000F
  | .global .finData0 => some 0xFFFFFFFF
  | .global .finData1 => some 0xFFFFFFFF
  | .global .xCfg => some 0x003F7FFF
  | .chan _ .filter => some 0x9FFFFFFF
  | .chan _ .ta => some 0x000000FF
  | .desc _ 0 => some 0x813F7FFF
  | .desc _ 1 => some 0x1FFFFFFF
  | .desc _ 2 => some 0x00FF0FFF
  | .desc _ 9 => some 0x1FFF0FFF
  | .desc _ _ => some 0xFFFFFFFF
  | .lut _ 0 => some 0xFFFFFFFF
  | .lut _ _ => some 0x0000FFFF
  | _ => none

/-- The RO words (10_state R21, R41; 20_memory R71). -/
def readOnly : Target → Bool
  | .global .blkId | .global .version | .global .param0 | .global .param1 | .global .lastReject => true
  | .global .resCode | .global .resRawLo | .global .resRawHi | .global .resValLo | .global .resValHi | .global .resLabel => true
  | .chan _ .status | .chan _ .total => true
  | .window _ _ => true
  | _ => false

/-- PUSH_FRAME and the PCI rows: the instructions that push a frame. What a statement says of a PCI row rests on log 13: a row stands for a pushed
frame with its header. -/
def pushes : Instr → Bool
  | .pushFrame _ _ | .sf _ | .ff _ | .cf _ | .pciRsv3 _ | .pciRsv47 _ | .pciRsv8F _ => true
  | _ => false

/-- `i` pushes a frame with the header of the PCI row `row`: it is that row, or a PUSH_FRAME of a frame with that header. -/
def pushesRow (i row : Instr) (s : State) : Prop :=
  i = row ∨ ∃ ch idx, i = .pushFrame ch idx ∧ decodePci (s.d 0) (s.d 1) = row

/-- A reserved PCI row (30_encoding R90, R107). -/
def reservedRow (row : Instr) : Prop :=
  (∃ x, row = .pciRsv3 x) ∨ (∃ x, row = .pciRsv47 x) ∨ (∃ x, row = .pciRsv8F x)

/-- Pre-check `p` of 41_frame_ingress R152 is the first that holds. -/
def precheckFails (s : State) (p : RejectDetail) : Prop :=
  (s.fin.len.toNat > 8 ∧ p = .lenGt8) ∨
  (s.fin.len.toNat ≤ 8 ∧ (s.cfg.idw = false ∧ s.fin.id.toNat > 0x7FF) ∧ p = .idRange) ∨
  (s.fin.len.toNat ≤ 8 ∧ ¬ (s.cfg.idw = false ∧ s.fin.id.toNat > 0x7FF) ∧ (s.cfg.ext = true ∧ s.fin.len.toNat = 0) ∧ p = .noTa)

/-- The filter of channel `c` accepts the frame's key: the three conditions of 41_frame_ingress R155. -/
def filterMatches (s : State) (c : Nat) : Prop :=
  (s.ch c).filterEn = true ∧ (s.ch c).filterId = s.fin.id ∧ (s.cfg.ext = false ∨ (s.ch c).ta = s.fin.byte 0)

/-- The frame passes the pre-checks, and channel `c` is the lowest-numbered one whose filter accepts it. -/
def routedTo (s : State) (c : Nat) : Prop :=
  (∀ p, ¬ precheckFails s p) ∧ c < s.numChannels ∧ filterMatches s c ∧ ∀ d, d < c → ¬ filterMatches s d

/-- `s` after `fail(c, kind, detail)` (42_reassembly R173). -/
def failed (s : State) (c : Nat) (e : ChErr) : State :=
  { s with channels := s.channels.set c { s.ch c with state := .failed, err := e, event := true } }

/-- The frame of an accepted frame that stores `m` bytes from buffer byte `p` of channel `c` on: every register and every other channel is
as before, and so is every byte of memory outside the stored ones. -/
def stored (s t : State) (c p m : Nat) : Prop :=
  t = { s with channels := t.channels, mem := t.mem } ∧ t.numChannels = s.numChannels ∧ (∀ d, d ≠ c → t.ch d = s.ch d) ∧
  (∀ a, a < bufAddr c p ∨ bufAddr c p + m ≤ a → t.mem.read? a = s.mem.read? a)

/-- A channel as a channel reset leaves it (42_reassembly R195, R196). -/
def cleared (x : Channel) : Channel :=
  { x with state := .awaitingFirst, len := 0, total := 0, nextSeq := 0, err := .none }

/-- `extract(ch, off, len)` as the sum of 43_signal_decode R224. -/
def fieldSum (s : State) (c off len : Nat) : Nat :=
  ∑ q ∈ Finset.range len, (if (s.buf c ((off + q) / 8)).getLsbD (7 - (off + q) % 8) then 1 else 0) * 2 ^ (len - 1 - q)

/-- The operands of DECODE name a channel and a slot that exist, and each word `w` of the slot with `need w` was written and holds `d w`. -/
def slotHolds (s : State) (ch : BitVec 4) (idx : BitVec 10) (d : Nat → Word) (need : Nat → Prop) : Prop :=
  ch.toNat < s.numChannels ∧ idx.toNat < s.sizes.numSignals ∧ ∀ w, need w → s.mem.word? (descAddr idx.toNat w) = some (d w)

/-! The fields of a descriptor, by the bit positions of 30_encoding R96. -/

def dBitOffset (d : Nat → Word) : Nat := (d 0).toNat % 2 ^ 15
def dBitLength (d : Nat → Word) : Nat := (d 0).toNat / 2 ^ 16 % 2 ^ 6 + 1
def dEnum (d : Nat → Word) : Prop := (d 0).toNat / 2 ^ 24 % 2 = 1
def dValid (d : Nat → Word) : Prop := (d 0).toNat / 2 ^ 31 % 2 = 1
def dMatchId (d : Nat → Word) : Nat := (d 1).toNat % 2 ^ 29
def dMatchTa (d : Nat → Word) : Nat := (d 2).toNat % 2 ^ 8
def dPfxLen (d : Nat → Word) : Nat := (d 2).toNat / 2 ^ 8 % 2 ^ 4
def dPfxCare (d : Nat → Word) (j : Nat) : Prop := (d 2).toNat / 2 ^ (16 + j) % 2 = 1
def dPfxByte (d : Nat → Word) (j : Nat) : Nat := (d (3 + j / 4)).toNat / 2 ^ (8 * (j % 4)) % 2 ^ 8
def dLutBase (d : Nat → Word) : Nat := (d 9).toNat % 2 ^ 12
def dLutCount (d : Nat → Word) : Nat := (d 9).toNat / 2 ^ 16 % 2 ^ 13
def dScale (d : Nat → Word) : F64 := d 6 ++ d 5
def dOffset (d : Nat → Word) : F64 := d 8 ++ d 7

/-- `invalid(S)`: a condition of 30_encoding R103 holds. -/
def dInvalid (s : State) (d : Nat → Word) : Prop :=
  ¬ dValid d ∨ dPfxLen d > 8 ∨ (dEnum d ∧ dBitLength d > 32) ∨ (dEnum d ∧ dLutBase d + dLutCount d > s.sizes.enumDepth)

/-- The words that the validity check reads (43_signal_decode R214, item 2). -/
def readForValidity (d : Nat → Word) (w : Nat) : Prop :=
  w = 0 ∨ (w = 2 ∧ dValid d) ∨ (w = 9 ∧ dValid d ∧ dPfxLen d ≤ 8 ∧ dEnum d ∧ dBitLength d ≤ 32)

/-- The words read up to the ID match (43_signal_decode R214, item 3). -/
def readForId (d : Nat → Word) (w : Nat) : Prop := readForValidity d w ∨ w = 1

/-- The words read up to the prefix match and the bounds check (43_signal_decode R214, item 4). -/
def readForPfx (d : Nat → Word) (w : Nat) : Prop :=
  readForId d w ∨ (w = 3 ∧ 1 ≤ dPfxLen d) ∨ (w = 4 ∧ 5 ≤ dPfxLen d)

/-- The words read by a Linear signal that reaches its transform (43_signal_decode R214, item 5). -/
def readForLinear (d : Nat → Word) (w : Nat) : Prop := readForPfx d w ∨ (5 ≤ w ∧ w ≤ 8)

/-- `id_match(S, ch)` (43_signal_decode R216, R217). -/
def dIdMatch (s : State) (c : Nat) (d : Nat → Word) : Prop :=
  dMatchId d = (s.ch c).filterId.toNat ∧ (s.cfg.ext = true → dMatchTa d = (s.ch c).ta.toNat)

/-- `prefix_match(S, ch)` (43_signal_decode R219, R220). -/
def dPfxMatch (s : State) (c : Nat) (d : Nat → Word) : Prop :=
  dPfxLen d ≤ (s.ch c).len.toNat ∧ ∀ j, j < dPfxLen d → dPfxCare d j → (s.buf c j).toNat = dPfxByte d j

/-- Every check of DECODE before the bounds check passes. -/
def dAccepted (s : State) (c : Nat) (d : Nat → Word) : Prop :=
  ¬ dInvalid s d ∧ dIdMatch s c d ∧ (s.ch c).state = .complete ∧ dPfxMatch s c d

/-- Every check of DECODE passes: the field lies in the payload. -/
def dInBounds (s : State) (c : Nat) (d : Nat → Word) : Prop :=
  dAccepted s c d ∧ dBitOffset d + dBitLength d ≤ 8 * (s.ch c).len.toNat

/-- `s` with the result registers written by `result(code, raw, val, label)` on channel `c` (43_signal_decode R212). -/
def withResult (s : State) (c : Nat) (code : ResCode) (raw : Nat) (val : F64) (label : BitVec 16) : State :=
  { s with result := ⟨code, (s.ch c).state, BitVec.ofNat 64 raw, val, label⟩ }

/-- The distance of two natural numbers. -/
def gap (x y : Nat) : Nat := (x - y) + (y - x)

/-- A finite binary64. -/
def finite (y : F64) : Prop := F64.expo y ≠ 2047

/-- A NaN. -/
def nan (y : F64) : Prop := ¬ finite y ∧ y.toNat % 2 ^ 52 ≠ 0

/-! A binary64's sign and magnitude from its pattern, the magnitude in units of 2^-1074 (IEEE 754; log 12). -/

def signOf (y : F64) : Bool := decide (2 ^ 63 ≤ y.toNat)

def magnitude (y : F64) : Nat :=
  if y.toNat / 2 ^ 52 % 2 ^ 11 = 0 then y.toNat % 2 ^ 52 else (2 ^ 52 + y.toNat % 2 ^ 52) * 2 ^ (y.toNat / 2 ^ 52 % 2 ^ 11 - 1)

/-- The signed value of a finite binary64, in units of 2^-1074. -/
def signedOf (y : F64) : Int := if signOf y then -(magnitude y : Int) else magnitude y

/-- `y` has the sign `n`, and its magnitude is `num / den` units of 2^-2148 rounded to nearest, ties to even: infinity from the midpoint of
the largest finite value and 2^1024 on, and else a finite one that none is nearer than, even where another is as near. -/
def nearest (n : Bool) (num den : Nat) (y : F64) : Prop :=
  signOf y = n ∧
  ((2 ^ 54 - 1) * 2 ^ 970 * 2 ^ 2148 * den ≤ num → y.toNat % 2 ^ 63 = 2047 * 2 ^ 52) ∧
  (num < (2 ^ 54 - 1) * 2 ^ 970 * 2 ^ 2148 * den → finite y ∧
    ∀ z, finite z →
      gap (magnitude y * 2 ^ 1074 * den) num ≤ gap (magnitude z * 2 ^ 1074 * den) num ∧
      (gap (magnitude y * 2 ^ 1074 * den) num = gap (magnitude z * 2 ^ 1074 * den) num →
        magnitude z = magnitude y ∨ y.toNat % 2 = 0))

/-- A block reset or a power cycle is scheduled next. -/
def resetNext (s : State) : Prop := ∃ rest, s.schedule = .assertRst :: rest ∨ s.schedule = .powerOn :: rest

/-- The next step commits a command word that decodes to `i`. -/
def commitsNext (s : State) (i : Instr) : Prop := ∃ rest w, engineNext s rest ∧ s.pending = some w ∧ decodeCmd w = .ok i

/-- The next step is a host write to the address `a`. -/
def writesNext (s : State) (a : Nat) : Prop := ∃ x d be rest, s.schedule = .write x d be :: rest ∧ x.toNat = a

/-- A host read of the address `a` returns the word `v`. -/
def reads (s : State) (a v : Nat) : Prop :=
  ∀ rest, ∃ t, step { s with schedule := .read (BitVec.ofNat 18 a) :: rest } = .next t ∧ t.rdata.toNat = v

/-- A full-word host write of `d` to the address `a` leaves the state `u`, the model's own fields apart. -/
def writeLeaves (s : State) (a : Nat) (d : Word) (u : State) : Prop :=
  ∀ rest, step { s with schedule := .write (BitVec.ofNat 18 a) d 0b1111 :: rest } =
    .next { u with schedule := rest, freeCount := s.freeCount + 1 }

/-- A full-word host write of `d` to the RAM word at `a` stores the bits of the mask `m`, and changes no other byte and no register. -/
def storesMasked (s : State) (a : Nat) (d m : Word) : Prop :=
  ∃ ram, writeLeaves s a d { s with mem := ram } ∧ ram.word? a = some (d &&& m) ∧
    ∀ x, x < a ∨ a + 4 ≤ x → ram.read? x = s.mem.read? x

/-- DECODE of slot `idx` against channel `ch` stops at the word at `a` where that was never written (43_signal_decode R214). -/
def stopsAt (s : State) (ch : BitVec 4) (idx : BitVec 10) (a : Nat) : Prop :=
  s.mem.word? a = none → exec (.decode ch idx) s = .fault (.unwrittenRamWord a)

/-- A host access. -/
def access : Event → Bool
  | .read _ | .write _ _ _ => true
  | _ => false

end Sys2Proof.Claims

open Sys2Proof Sys2Proof.Machine Sys2Proof.Claims

/-! ### Reset -/

/-- R57, R292: an asserted reset leaves every register at its reset value, discards a pending command, shows no payload byte and keeps the
RAMs; a power cycle does the same and leaves every RAM word unwritten. -/
def Obligations.BlockResetGivesListedValues : Prop :=
  ∀ (s : State) (rest : List Event),
    (s.schedule = .assertRst :: rest → ∃ t, step s = .next t ∧ registersReset s t ∧ t.mem = s.mem ∧ t.rst = true) ∧
    (s.schedule = .powerOn :: rest → ∃ t, step s = .next t ∧ registersReset s t ∧ t.rst = true ∧
      (∀ a, t.mem.word? a = none))

/-- R291, last paragraph: while reset is asserted, a host write has no effect and a read returns 0 (log 10). -/
def Obligations.AccessDuringResetHasNoEffect : Prop :=
  ∀ (s : State) (rest : List Event), s.rst = true →
    (∀ a, s.schedule = .read a :: rest → step s = .next { s with schedule := rest, rdata := 0 }) ∧
    (∀ a d be, s.schedule = .write a d be :: rest → step s = .next { s with schedule := rest, freeCount := s.freeCount + 1 })

/-- The model's State.reset is what power-on and the release of reset leave of any state, at its own parameters; the port and the model's
own fields apart (log 11). -/
def Obligations.PowerOnThenReleaseGivesResetState : Prop :=
  ∀ (s : State) (rest : List Event), s.schedule = .powerOn :: .releaseRst :: rest →
    Host.Core.run Sys2Proof.core 2 s =
      .next ({ State.resetOf s.params with rdata := s.rdata, schedule := rest, freeCount := s.freeCount + 2 } : State)

/-- The invariant holds of the machine at reset, at every legal choice of the parameters; R9: the machine is built exactly where each
parameter is within its bounds, with those parameters, and the reset state is the one of the reference values. -/
def Obligations.ResetStateIsSound : Prop :=
  State.reset.Sound ∧ (∀ p : Config.Params, p.legal → (State.resetOf p).Sound) ∧
  (∀ (p : Config.Params) (t : State), State.configure p = some t → t = State.resetOf p ∧ t.params = p) ∧
  (∀ p : Config.Params, (State.configure p).isSome = true ↔
    (1 ≤ p.numChannels ∧ p.numChannels ≤ 16) ∧ (1 ≤ p.numSignals ∧ p.numSignals ≤ 1024) ∧
    (1 ≤ p.enumDepth ∧ p.enumDepth ≤ 4096) ∧ (8 ≤ p.payloadCap ∧ p.payloadCap ≤ 4095)) ∧
  State.configure { numChannels := 4, numSignals := 256, enumDepth := 1024, payloadCap := 4095 } = some State.reset

/-- R44 and more: every step from a sound state answers a sound state. -/
def Obligations.EveryStepKeepsSoundness : Prop :=
  ∀ s t : State, s.Sound → step s = .next t → t.Sound

/-! ### Encoding -/

/-- Decoding the encoding of an instruction gives it back, with every operand at every value. -/
def Obligations.DecodeOfEncodeIsIdentity : Prop := ∀ i : Instr, decode (encode i) = .ok i

/-- Encoding what was decoded gives the word back: no two words decode to one command, and no two headers to one PCI row. -/
def Obligations.EncodeOfDecodeIsIdentity : Prop :=
  (∀ (w : Word) (i : Instr), decodeCmd w = .ok i → encode i = .cmd w) ∧
  (∀ d0 d1 : Byte, ∃ x, encode (decodePci d0 d1) = .header d0 x ∧ (d0.toNat / 16 = 1 → x = d1))

/-- Words written out from R83, R84 and R91 to R93 decode to the instructions they stand for. -/
def Obligations.WrittenOutWordsDecode : Prop :=
  decodeCmd 0x00000F00 = .ok (.nop 15 0) ∧ decodeCmd 0x00000001 = .ok (.pushFrame 0 0) ∧
  decodeCmd 0x00000402 = .ok (.endCapture 4 0) ∧ decodeCmd 0x00000203 = .ok (.chReset 2 0) ∧
  decodeCmd 0x00000004 = .ok (.resetChannels 0 0) ∧ decodeCmd 0x00030105 = .ok (.decode 1 3) ∧
  decodeCmd 0x00FF0006 = .ok (.extract 0 255) ∧ decodePci 0x05 0x62 = .sf 5 ∧ decodePci 0x10 0x08 = .ff 8 ∧
  decodePci 0x21 0x02 = .cf 1 ∧ decodePci 0x30 0x00 = .pciRsv3 0 ∧ decodePci 0x7F 0x00 = .pciRsv47 63 ∧
  decodePci 0xFF 0x00 = .pciRsv8F 127

/-- R84, R85: a command word with a nonzero reserved field is rejected as such; otherwise OP 0x00 to 0x06 encodes a command and any other OP is
illegal. -/
def Obligations.CommandWordsAreClassified : Prop :=
  ∀ w : Word,
    (decodeCmd w = .error .reservedBits ↔ (w.toNat / 2 ^ 12 % 2 ^ 4 ≠ 0 ∨ w.toNat / 2 ^ 26 ≠ 0)) ∧
    (decodeCmd w = .error .illegalOp ↔
      (w.toNat / 2 ^ 12 % 2 ^ 4 = 0 ∧ w.toNat / 2 ^ 26 = 0 ∧ 0x07 ≤ w.toNat % 2 ^ 8)) ∧
    ((∃ i, decodeCmd w = .ok i) ↔ (w.toNat / 2 ^ 12 % 2 ^ 4 = 0 ∧ w.toNat / 2 ^ 26 = 0 ∧ w.toNat % 2 ^ 8 < 0x07))

/-! ### Issue and commit -/

/-- A step that commits a command word runs the instruction it decodes to, and ends the commit as R133 says. -/
def Obligations.StepRunsDecodedCommand : Prop :=
  ∀ (s : State) (rest : List Event) (w : Word) (i : Instr),
    engineNext s rest → s.pending = some w → decodeCmd w = .ok i → step s = committing (exec i { s with schedule := rest })

/-- The placed instruction is the one the next step runs, and a placed frame header is of a frame that reaches channel 0 (log 14). -/
def Obligations.PlacedInstructionRunsNext : Prop :=
  ∀ (s : State) (nbits w : Nat) (i : Instr), s.channels ≠ [] → decodeTableWord nbits w = some i →
    let s0 : State := { s.withFetchWord nbits w with schedule := s.schedule }
    step (s.withFetchWord nbits w) = committing (exec i s0) ∧ (nbits ≤ 16 → routedTo s0 0)

/-- R133, R136, R137: a command word that fails validation commits too, and records the first failing check and nothing else; a command word
that passes runs a body that records no command error. -/
def Obligations.InvalidCommandOnlyRecordsItsCause : Prop :=
  ∀ (s : State) (rest : List Event) (w : Word), engineNext s rest → s.pending = some w →
    (∀ c, validate s w = some c →
      step s = .next { s with
        schedule := rest, pending := none, freeCount := s.freeCount + 1
        status := { s.status with done := true, cmdErr := true, cause := c } }) ∧
    (validate s w = none →
      ∃ i, decodeCmd w = .ok i ∧ ∀ t, exec i { s with schedule := rest } = .next t → t.status = s.status)

/-- R131: an accepted CMD write sets PENDING to the written word and DONE to 0, and nothing else (the model's own fields apart). -/
def Obligations.AcceptedCommandWriteIssues : Prop :=
  ∀ (s : State) (rest : List Event) (d : Word),
    s.rst = false → s.pending = none → s.schedule = .write 0x014 d 0b1111 :: rest →
      ∃ t, step s = .next t ∧ t.busy = true ∧
        t = { s with pending := some d, status := { s.status with done := false }, schedule := rest, freeCount := s.freeCount + 1 }

/-- R292, R134: a pending command leaves PENDING by its own commit or by a reset, and by nothing else. -/
def Obligations.OnlyCommitOrResetRemovesPending : Prop :=
  ∀ (s t : State) (w : Word), s.pending = some w → step s = .next t → t.pending ≠ some w →
    t.pending = none ∧ (resetNext s ∨ (∃ rest, engineNext s rest) ∧ t.status.done = true)

/-- R141: with no reset scheduled, a pending command commits after finitely many steps (or its DECODE faults, log 7): the schedule is finite,
and when it is empty the engine moves. -/
def Obligations.PendingCommandEventuallyCommits : Prop :=
  ∀ (s : State) (w : Word), s.pending = some w → s.rst = false → s.noReset →
    ∃ k, k ≤ s.schedule.length + 1 ∧
      ((∃ t : State, Host.Core.run Sys2Proof.core k s = .next t ∧ t.pending = none ∧ t.status.done = true) ∨
       (∃ r : Fault, Host.Core.run Sys2Proof.core k s = .fault r))

/-- R77, R135, R142: host accesses between a command's issue and its commit change neither the commit's outcome nor anything it leaves but
BUS_ERR, OVERRUN and the port (and the model's free-value counter). -/
def Obligations.CommitIgnoresInterleavedAccesses : Prop :=
  ∀ (s : State) (w : Word) (es rest : List Event), s.rst = false → s.pending = some w →
    s.schedule = es ++ .engine :: rest → (∀ e, e ∈ es → access e = true) →
      (∀ t0, step { s with schedule := .engine :: rest } = .next t0 →
        ∃ t : State, Host.Core.run Sys2Proof.core (es.length + 1) s = .next t ∧
          t = { t0 with
            rdata := t.rdata, freeCount := t.freeCount
            status := { t0.status with busErr := t.status.busErr, overrun := t.status.overrun } }) ∧
      (∀ r, step { s with schedule := .engine :: rest } = .fault r →
        Host.Core.run Sys2Proof.core (es.length + 1) s = .fault r)

/-! ### The bus -/

/-- R134: while a command is pending, a host write of any address, data and byte enables sets OVERRUN and does nothing else. -/
def Obligations.BusyWriteOnlySetsOverrun : Prop :=
  ∀ (s : State) (rest : List Event) (w : Word) (a : BusAddr) (d : Word) (be : BitVec 4),
    s.rst = false → s.pending = some w → s.schedule = .write a d be :: rest →
      step s = .next { s with schedule := rest, freeCount := s.freeCount + 1, status := { s.status with overrun := true } }

/-- R63, R64, R66: a partial, misaligned or unmapped write changes nothing, a misaligned or unmapped read returns 0, and each sets BUS_ERR. -/
def Obligations.BadAccessOnlySetsBusError : Prop :=
  ∀ (s : State) (rest : List Event) (a : BusAddr), s.rst = false →
    (∀ d be, s.pending = none → s.schedule = .write a d be :: rest →
      be ≠ 0b1111 ∨ a.toNat % 4 ≠ 0 ∨ s.target a.toNat = .unmapped →
        step s = .next { s with
          schedule := rest, freeCount := s.freeCount + 1, status := { s.status with busErr := true } }) ∧
    (s.schedule = .read a :: rest → a.toNat % 4 ≠ 0 ∨ s.target a.toNat = .unmapped →
      step s = .next { s with schedule := rest, rdata := 0, status := { s.status with busErr := true } })

/-- R61, R41, R49, R52, R71: which word each address names, and that every other aligned address is unmapped. -/
def Obligations.AddressMapNamesEveryWord : Prop :=
  ∀ s : State, s.params.legal →
    (∀ p ∈ globalMap, s.target p.1 = .global p.2) ∧
    (∀ c, c < s.numChannels →
      s.target (0x100 + 0x10 * c) = .chan c .filter ∧ s.target (0x100 + 0x10 * c + 4) = .chan c .ta ∧
      s.target (0x100 + 0x10 * c + 8) = .chan c .status ∧ s.target (0x100 + 0x10 * c + 12) = .chan c .total) ∧
    (∀ i w, i < s.sizes.numSignals → w < 10 → s.target (0x10000 + 0x40 * i + 4 * w) = .desc i w) ∧
    (∀ j w, j < s.sizes.enumDepth → w < 2 → s.target (0x20000 + 8 * j + 4 * w) = .lut j w) ∧
    (∀ c w, c < s.numChannels → w < 1024 → s.target (0x30000 + 0x1000 * c + 4 * w) = .window c w) ∧
    (∀ a, a < 2 ^ 18 → a % 4 = 0 → s.target a ≠ .unmapped →
      a ∈ globalMap.map Prod.fst ∨
      (∃ c w, c < s.numChannels ∧ w < 4 ∧ a = 0x100 + 0x10 * c + 4 * w) ∨
      (∃ i w, i < s.sizes.numSignals ∧ w < 10 ∧ a = 0x10000 + 0x40 * i + 4 * w) ∨
      (∃ j w, j < s.sizes.enumDepth ∧ w < 2 ∧ a = 0x20000 + 8 * j + 4 * w) ∨
      (∃ c w, c < s.numChannels ∧ w < 1024 ∧ a = 0x30000 + 0x1000 * c + 4 * w))

/-- R68: a host read changes nothing but the port, and BUS_ERR where the block is out of reset and the access is misaligned or unmapped; the
same read again returns the same word. -/
def Obligations.HostReadHasNoSideEffect : Prop :=
  ∀ (s : State) (a : BusAddr) (rest : List Event), s.schedule = .read a :: rest →
    ∃ t, step s = .next t ∧
      (∃ b, t = { s with schedule := rest, rdata := t.rdata, status := { s.status with busErr := s.status.busErr || b } } ∧
        (b = true ↔ s.rst = false ∧ (a.toNat % 4 ≠ 0 ∨ s.target a.toNat = .unmapped))) ∧
      (∀ t', step { t with schedule := .read a :: rest } = .next t' → t'.rdata = t.rdata)

/-- R20, R21, R41, R49, R52, R96: an accepted write to a RW word stores its defined bits, and a read returns them with the reserved bits 0; R25,
R28, R32 to R35, R41, R69: which field each bit sets, and that the write changes nothing else. -/
def Obligations.RwWordsReadBackTheirDefinedBits : Prop :=
  ∀ (s : State) (d : Word), s.rst = false → s.pending = none →
    (∀ (a : BusAddr) (m : Word) (rest : List Event), a.toNat % 4 = 0 → rwMask (s.target a.toNat) = some m →
      s.schedule = .write a d 0b1111 :: .read a :: rest →
        ∃ t : State, Host.Core.run Sys2Proof.core 2 s = .next t ∧ t.rdata = d &&& m ∧ t.status = s.status) ∧
    writeLeaves s 0x010 d { s with cfg := { idw := d.getLsbD 0, ext := d.getLsbD 1 } } ∧
    writeLeaves s 0x01C d { s with irqEn :=
      { doneIe := d.getLsbD 1, cmdErrIe := d.getLsbD 2, busErrIe := d.getLsbD 3, overrunIe := d.getLsbD 4, chEventIe := d.getLsbD 5 } } ∧
    writeLeaves s 0x030 d { s with fin := { s.fin with id := BitVec.ofNat 29 d.toNat } } ∧
    writeLeaves s 0x034 d { s with fin := { s.fin with len := BitVec.ofNat 4 d.toNat } } ∧
    writeLeaves s 0x038 d { s with fin := { s.fin with data0 := d } } ∧
    writeLeaves s 0x03C d { s with fin := { s.fin with data1 := d } } ∧
    writeLeaves s 0x040 d
      { s with xcfg := { bitOffset := BitVec.ofNat 15 d.toNat, lenM1 := BitVec.ofNat 6 (d.toNat / 2 ^ 16) } } ∧
    (s.params.legal →
      (∀ c, c < s.numChannels →
        writeLeaves s (0x100 + 0x10 * c) d
          { s with channels := s.channels.set c { s.ch c with filterEn := d.getLsbD 31, filterId := BitVec.ofNat 29 d.toNat } } ∧
        writeLeaves s (0x100 + 0x10 * c + 4) d { s with channels := s.channels.set c { s.ch c with ta := BitVec.ofNat 8 d.toNat } }) ∧
      (∀ i w m, i < s.sizes.numSignals → w < 10 → rwMask (.desc i w) = some m → storesMasked s (0x10000 + 0x40 * i + 4 * w) d m) ∧
      (∀ j w m, j < s.sizes.enumDepth → w < 2 → rwMask (.lut j w) = some m → storesMasked s (0x20000 + 8 * j + 4 * w) d m))

/-- R27, R29, R30: a write to STATUS or CH_EVENT clears exactly the W1C bits written as 1, and a write to COUNTERS clears both counters and
LAST_REJECT, whatever its data. -/
def Obligations.ClearingWritesClearWhatTheyName : Prop :=
  ∀ (s : State) (rest : List Event) (d : Word), s.rst = false → s.pending = none →
    (s.schedule = .write 0x018 d 0b1111 :: rest →
      step s = .next { s with
        schedule := rest, freeCount := s.freeCount + 1
        status := ⟨s.status.done && !d.getLsbD 1, s.status.cmdErr && !d.getLsbD 2, s.status.busErr && !d.getLsbD 3,
          s.status.overrun && !d.getLsbD 4, s.status.cause⟩ }) ∧
    (s.schedule = .write 0x020 d 0b1111 :: rest →
      ∃ t, step s = .next t ∧ t = { s with schedule := rest, freeCount := s.freeCount + 1, channels := t.channels } ∧
        t.numChannels = s.numChannels ∧
        ∀ c, c < s.numChannels → t.ch c = { s.ch c with event := (s.ch c).event && !d.getLsbD c }) ∧
    (s.schedule = .write 0x024 d 0b1111 :: rest →
      step s = .next { s with schedule := rest, freeCount := s.freeCount + 1, counters := ⟨0, 0, .none⟩ })

/-- R67: an accepted write to a RO register or to the payload window changes nothing and sets no BUS_ERR; a read of CMD returns 0 and sets
none. -/
def Obligations.ReadOnlyWritesAndCommandReadsDoNothing : Prop :=
  ∀ (s : State) (rest : List Event), s.rst = false →
    (∀ a d, s.pending = none → a.toNat % 4 = 0 → readOnly (s.target a.toNat) = true → s.schedule = .write a d 0b1111 :: rest →
      step s = .next { s with schedule := rest, freeCount := s.freeCount + 1 }) ∧
    (s.schedule = .read 0x014 :: rest → step s = .next { s with schedule := rest, rdata := 0 })

/-- R72: byte `i` of a channel's payload window reads as the buffer byte where `i < LEN`, and as 0 elsewhere. -/
def Obligations.PayloadWindowShowsTheFirstLenBytes : Prop :=
  ∀ (s : State) (rest : List Event) (c i : Nat) (a : BusAddr),
    s.rst = false → c < s.numChannels → i < 4096 → a.toNat = 0x30000 + 0x1000 * c + 4 * (i / 4) →
    s.schedule = .read a :: rest →
      ∃ t, step s = .next t ∧
        t.rdata.toNat / 2 ^ (8 * (i % 4)) % 2 ^ 8 = if i < (s.ch c).len.toNat then (s.buf c i).toNat else 0

/-- R22, R23, R24: BLK_ID, VERSION and the parameters read as the spec fixes them, in every state out of reset. -/
def Obligations.IdentificationRegistersRead : Prop :=
  ∀ (s : State) (rest : List Event), s.rst = false → s.params.legal →
    (s.schedule = .read 0x000 :: rest → ∃ t, step s = .next t ∧ t.rdata = 0x42465845) ∧
    (s.schedule = .read 0x004 :: rest → ∃ t, step s = .next t ∧ t.rdata = 0x00010000) ∧
    (s.schedule = .read 0x008 :: rest → ∃ t, step s = .next t ∧ t.rdata.toNat = s.sizes.numSignals * 2 ^ 16 + s.numChannels) ∧
    (s.schedule = .read 0x00C :: rest → ∃ t, step s = .next t ∧ t.rdata.toNat = s.sizes.enumDepth * 2 ^ 16 + s.sizes.payloadCap)

/-- 93 U2, R51, R54: a host read of a RAM word that was never written sets no BUS_ERR, leaves the word unwritten, and shows 0 in the reserved
bits; in the others it shows a free value (log 6), of which nothing is said. -/
def Obligations.UnwrittenRamReadsShowReservedBitsZero : Prop :=
  ∀ (s : State) (a : BusAddr) (m : Word) (rest : List Event),
    s.rst = false → a.toNat % 4 = 0 → ((∃ i w, s.target a.toNat = .desc i w) ∨ ∃ j w, s.target a.toNat = .lut j w) →
    rwMask (s.target a.toNat) = some m → s.mem.word? a.toNat = none → s.schedule = .read a :: rest →
      ∃ t, step s = .next t ∧ t = { s with schedule := rest, rdata := t.rdata } ∧ t.rdata &&& ~~~m = 0

/-- R268: the interrupt line is the stated function of STATUS, CH_EVENT and IRQ_EN, at every instant. -/
def Obligations.InterruptLineIsItsFunction : Prop :=
  ∀ s : State, s.numChannels ≤ 16 →
    (s.irq = true ↔
      (s.status.done = true ∧ s.irqEn.doneIe = true) ∨ (s.status.cmdErr = true ∧ s.irqEn.cmdErrIe = true) ∨
      (s.status.busErr = true ∧ s.irqEn.busErrIe = true) ∨ (s.status.overrun = true ∧ s.irqEn.overrunIe = true) ∨
      (s.chEventWord ≠ 0 ∧ s.irqEn.chEventIe = true))

/-- R21, R27, R29, R30, R31, R36, R37, R41: what a host read of STATUS, CH_EVENT, COUNTERS, LAST_REJECT, the result registers, CH_STATUS and
CH_TOTAL returns: where their fields stand in the word, with the codes of R39 and R262 to R265. -/
def Obligations.StatusWordsHoldTheirFields : Prop :=
  ∀ s : State, s.rst = false → s.numChannels ≤ 16 →
    reads s 0x018 (s.busy.toNat + 2 * s.status.done.toNat + 4 * s.status.cmdErr.toNat + 8 * s.status.busErr.toNat
      + 16 * s.status.overrun.toNat + 2 ^ 8 * causeCode s.status.cause) ∧
    (∃ v, reads s 0x020 v ∧ ∀ c, v.testBit c = decide (c < s.numChannels ∧ (s.ch c).event = true)) ∧
    reads s 0x024 (s.counters.drop.toNat + 2 ^ 16 * s.counters.reject.toNat) ∧
    reads s 0x028 (rejectCode s.counters.lastReject) ∧
    reads s 0x050 (resCode s.result.code + 2 ^ 4 * stateCode s.result.chState) ∧
    reads s 0x054 (s.result.raw.toNat % 2 ^ 32) ∧ reads s 0x058 (s.result.raw.toNat / 2 ^ 32) ∧
    reads s 0x05C (s.result.val.toNat % 2 ^ 32) ∧ reads s 0x060 (s.result.val.toNat / 2 ^ 32) ∧
    reads s 0x064 s.result.label.toNat ∧
    (∀ c, c < s.numChannels →
      reads s (0x100 + 0x10 * c + 8) (stateCode (s.ch c).state + 2 ^ 4 * (s.ch c).nextSeq.toNat
        + 2 ^ 8 * (errCode (s.ch c).err).1 + 2 ^ 12 * (errCode (s.ch c).err).2 + 2 ^ 16 * (s.ch c).len.toNat) ∧
      reads s (0x100 + 0x10 * c + 12) (s.ch c).total.toNat)

/-! ### Pushed frames -/

/-- PUSH_FRAME runs the PCI row of the pushed frame's header (R150, R175, R176). -/
def Obligations.PushFrameRunsTheRowOfItsHeader : Prop :=
  ∀ (s : State) (ch : BitVec 4) (idx : BitVec 10), exec (.pushFrame ch idx) s = exec (decodePci (s.d 0) (s.d 1)) s

/-- R152, R154: a frame that fails a pre-check is counted with the first check that it fails, and does nothing else; a frame that fails none is not
counted as rejected. -/
def Obligations.RejectedFrameIsOnlyCounted : Prop :=
  ∀ (i : Instr) (s : State), pushes i = true →
    (∀ p, precheckFails s p →
      ∃ t, exec i s = .next t ∧ t = { s with counters := t.counters } ∧
        t.counters.reject.toNat = min (s.counters.reject.toNat + 1) 0xFFFF ∧ t.counters.drop = s.counters.drop ∧
        t.counters.lastReject = p) ∧
    ((∀ p, ¬ precheckFails s p) → ∃ t, exec i s = .next t ∧
      t.counters.reject = s.counters.reject ∧ t.counters.lastReject = s.counters.lastReject)

/-- R156: a frame that no filter accepts is counted in DROP, saturating, and does nothing else. -/
def Obligations.UnmatchedFrameIsOnlyDropped : Prop :=
  ∀ (i : Instr) (s : State), pushes i = true → (∀ p, ¬ precheckFails s p) → (∀ c, c < s.numChannels → ¬ filterMatches s c) →
    ∃ t, exec i s = .next t ∧ t = { s with counters := t.counters } ∧
      t.counters.drop.toNat = min (s.counters.drop.toNat + 1) 0xFFFF ∧ t.counters.reject = s.counters.reject ∧
      t.counters.lastReject = s.counters.lastReject

/-- R155, R157: a frame goes to the lowest-numbered channel whose filter accepts its key, and to no channel where none does. -/
def Obligations.RouteIsTheLowestMatchingChannel : Prop :=
  ∀ s : State,
    (∀ c, s.route = some c ↔ c < s.numChannels ∧ filterMatches s c ∧ ∀ d, d < c → ¬ filterMatches s d) ∧
    (s.route = none ↔ ∀ c, c < s.numChannels → ¬ filterMatches s c)

/-- R179: a single frame routed to a channel in AwaitingFirst completes it with the frame's SF_DL bytes. -/
def Obligations.SingleFrameCompletesTheChannel : Prop :=
  ∀ (i : Instr) (dl : BitVec 4) (s : State) (c : Nat), pushesRow i (.sf dl) s → routedTo s c →
    (s.ch c).state = .awaitingFirst → 1 ≤ dl.toNat → dl.toNat ≤ s.n - 1 →
      ∃ t, exec i s = .next t ∧
        t.ch c = { s.ch c with
          len := BitVec.ofNat 12 dl.toNat, total := BitVec.ofNat 12 dl.toNat, state := .complete, event := true } ∧
        (∀ j, j < dl.toNat → t.buf c j = s.d (1 + j)) ∧ stored s t c 0 dl.toNat

/-- R181: a first frame routed to a channel in AwaitingFirst starts a message of FF_DL bytes with the frame's first chunk. -/
def Obligations.FirstFrameStartsTheMessage : Prop :=
  ∀ (i : Instr) (dl : BitVec 12) (s : State) (c : Nat), pushesRow i (.ff dl) s → routedTo s c →
    (s.ch c).state = .awaitingFirst → 2 ≤ s.n → 7 - s.k < dl.toNat → dl.toNat ≤ s.sizes.payloadCap →
      ∃ t, exec i s = .next t ∧
        t.ch c = { s.ch c with
          len := BitVec.ofNat 12 (s.n - 2), total := dl, nextSeq := 1, state := .assembling } ∧
        (∀ j, j < s.n - 2 → t.buf c j = s.d (2 + j)) ∧ stored s t c 0 (s.n - 2)

/-- R184, R185: a consecutive frame with the expected SN appends min(n - 1, TOTAL - LEN) bytes and advances the counter modulo 16; the channel is
Complete exactly when LEN reaches TOTAL. -/
def Obligations.ConsecutiveFrameAppends : Prop :=
  ∀ (i : Instr) (sn : BitVec 4) (s : State) (c : Nat), pushesRow i (.cf sn) s → routedTo s c →
    (s.ch c).state = .assembling → 1 ≤ s.n → sn = (s.ch c).nextSeq →
      let m := min (s.n - 1) ((s.ch c).total.toNat - (s.ch c).len.toNat)
      ∃ t, exec i s = .next t ∧
        (t.ch c).len.toNat = (s.ch c).len.toNat + m ∧ (t.ch c).nextSeq.toNat = ((s.ch c).nextSeq.toNat + 1) % 16 ∧
        ((s.ch c).len.toNat + m = (s.ch c).total.toNat → (t.ch c).state = .complete ∧ (t.ch c).event = true) ∧
        ((s.ch c).len.toNat + m ≠ (s.ch c).total.toNat →
          (t.ch c).state = .assembling ∧ (t.ch c).event = (s.ch c).event) ∧
        t.ch c = { s.ch c with
          len := (t.ch c).len, nextSeq := (t.ch c).nextSeq, state := (t.ch c).state, event := (t.ch c).event } ∧
        (∀ j, j < m → t.buf c ((s.ch c).len.toNat + j) = s.d (1 + j)) ∧ stored s t c (s.ch c).len.toNat m

/-- R189, R192 with the details of R176: a malformed frame fails a channel that is not Failed, with the first detail that applies, and changes nothing
else. For the reserved PCI types this is their whole effect. -/
def Obligations.MalformedFrameFailsWithItsDetail : Prop :=
  ∀ (i row : Instr) (s : State) (c : Nat), pushesRow i row s → routedTo s c → (s.ch c).state ≠ .failed →
    (pushes row = true ∧ (∀ x y, row ≠ .pushFrame x y) ∧ s.n = 0 → exec i s = .next (failed s c .noPci)) ∧
    (row = .sf 0 ∧ s.n ≠ 0 → exec i s = .next (failed s c .sfDlZero)) ∧
    (∀ dl, row = .ff dl →
      (s.n = 1 → exec i s = .next (failed s c .ffTruncated)) ∧
      (2 ≤ s.n ∧ dl.toNat = 0 → exec i s = .next (failed s c .ffDlEscape)) ∧
      (2 ≤ s.n ∧ dl.toNat ≠ 0 ∧ dl.toNat ≤ 7 - s.k → exec i s = .next (failed s c .ffDlSmall)) ∧
      (2 ≤ s.n ∧ 7 - s.k < dl.toNat ∧ s.sizes.payloadCap < dl.toNat → exec i s = .next (failed s c .ffDlCap))) ∧
    (reservedRow row ∧ s.n ≠ 0 → exec i s = .next (failed s c .pciType))

/-- R180, R183, R186, R187, R188: a frame that is not malformed, in a state that does not expect it, fails the channel with the table's code and changes
nothing else: no byte of it is stored. -/
def Obligations.UnexpectedFrameFailsWithItsDetail : Prop :=
  ∀ (i : Instr) (s : State) (c : Nat), routedTo s c → s.n ≠ 0 →
    (∀ dl, pushesRow i (.sf dl) s → dl.toNat ≠ 0 →
      ((s.ch c).state = .awaitingFirst ∧ s.n - 1 < dl.toNat → exec i s = .next (failed s c .sfShort)) ∧
      ((s.ch c).state = .assembling → exec i s = .next (failed s c .interrupted)) ∧
      ((s.ch c).state = .complete → exec i s = .next (failed s c .afterComplete))) ∧
    (∀ dl, pushesRow i (.ff dl) s → 2 ≤ s.n → 7 - s.k < dl.toNat → dl.toNat ≤ s.sizes.payloadCap →
      ((s.ch c).state = .assembling → exec i s = .next (failed s c .interrupted)) ∧
      ((s.ch c).state = .complete → exec i s = .next (failed s c .afterComplete))) ∧
    (∀ sn, pushesRow i (.cf sn) s →
      ((s.ch c).state = .awaitingFirst → exec i s = .next (failed s c .cfUnexpected)) ∧
      ((s.ch c).state = .assembling ∧ sn ≠ (s.ch c).nextSeq → exec i s = .next (failed s c .badSn)) ∧
      ((s.ch c).state = .complete → exec i s = .next (failed s c .afterComplete)))

/-- R177: a frame routed to a Failed channel changes nothing. -/
def Obligations.FailedChannelIgnoresFrames : Prop :=
  ∀ (i : Instr) (s : State) (c : Nat), pushes i = true → routedTo s c → (s.ch c).state = .failed → exec i s = .next s

/-- R172: a pushed frame changes at most the channel it is routed to, its payload buffer, and the counters. -/
def Obligations.PushedFrameTouchesOneChannelOnly : Prop :=
  ∀ (i : Instr) (s : State), pushes i = true →
    ∃ t, exec i s = .next t ∧
      t = { s with counters := t.counters, channels := t.channels, mem := t.mem } ∧ t.numChannels = s.numChannels ∧
      (∀ d, ¬ routedTo s d → t.ch d = s.ch d) ∧
      (∀ a, (∀ c, routedTo s c → a < bufAddr c 0 ∨ bufAddr c 0 + 4096 ≤ a) → t.mem.read? a = s.mem.read? a)

/-! ### NOP and the channel commands -/

/-- R138: NOP does nothing, whatever its CH and IDX; the example of R138. -/
def Obligations.NopDoesNothing : Prop :=
  (∀ (ch : BitVec 4) (idx : BitVec 10) (s : State), exec (.nop ch idx) s = .next s) ∧
  ∃ t : State, Host.Core.run Sys2Proof.core 2 { State.reset with schedule := [.write 0x014 0x00000F00 0b1111] } = .next t ∧
    t.statusWord = 0x00000002

/-- R193, R194: END_CAPTURE fails every Assembling channel with IncompleteAssembly END_OF_CAPTURE and changes nothing else; a second one has no
effect. -/
def Obligations.EndCaptureFailsUnfinishedChannels : Prop :=
  ∀ (ch : BitVec 4) (idx : BitVec 10) (s : State),
    ∃ t, exec (.endCapture ch idx) s = .next t ∧ t = { s with channels := t.channels } ∧ t.numChannels = s.numChannels ∧
      (∀ c, c < s.numChannels → t.ch c =
        if (s.ch c).state = .assembling then { s.ch c with state := .failed, err := .endOfCapture, event := true } else s.ch c) ∧
      errCode .endOfCapture = (3, 3) ∧ exec (.endCapture ch idx) t = .next t

/-- R195, R196: CH_RESET of an existing channel returns it to AwaitingFirst and keeps its filter, TA and CH_EVENT bit, the counters and every other
channel; it ignores IDX. -/
def Obligations.ChResetClearsItsChannel : Prop :=
  ∀ (ch : BitVec 4) (idx : BitVec 10) (s : State), ch.toNat < s.numChannels →
    ∃ t, exec (.chReset ch idx) s = .next t ∧ t = { s with channels := t.channels } ∧ t.numChannels = s.numChannels ∧
      t.ch ch.toNat = cleared (s.ch ch.toNat) ∧ (∀ d, d ≠ ch.toNat → t.ch d = s.ch d) ∧
      (∀ i, t.windowByte ch.toNat i = 0)

/-- R197: RESET_CHANNELS does what CH_RESET does to every channel, and nothing else. -/
def Obligations.ResetChannelsClearsEveryChannel : Prop :=
  ∀ (ch : BitVec 4) (idx : BitVec 10) (s : State),
    ∃ t, exec (.resetChannels ch idx) s = .next t ∧ t = { s with channels := t.channels } ∧ t.numChannels = s.numChannels ∧
      ∀ c, c < s.numChannels → t.ch c = cleared (s.ch c)

/-! ### EXTRACT and DECODE -/

/-- R235 with R224: EXTRACT of an existing channel gives NO_PAYLOAD, BIT_RANGE_OOB, or the field of X_CFG as the sum of R224; it ignores IDX. -/
def Obligations.ExtractGivesTheField : Prop :=
  ∀ (ch : BitVec 4) (idx : BitVec 10) (s : State), ch.toNat < s.numChannels →
    ((s.ch ch.toNat).state ≠ .complete → exec (.extract ch idx) s = .next (withResult s ch.toNat .noPayload 0 0 0)) ∧
    ((s.ch ch.toNat).state = .complete →
      s.xcfg.bitOffset.toNat + (s.xcfg.lenM1.toNat + 1) > 8 * (s.ch ch.toNat).len.toNat →
      exec (.extract ch idx) s = .next (withResult s ch.toNat .bitRangeOob 0 0 0)) ∧
    ((s.ch ch.toNat).state = .complete →
      s.xcfg.bitOffset.toNat + (s.xcfg.lenM1.toNat + 1) ≤ 8 * (s.ch ch.toNat).len.toNat →
      exec (.extract ch idx) s = .next
        (withResult s ch.toNat .okRaw (fieldSum s ch.toNat s.xcfg.bitOffset.toNat (s.xcfg.lenM1.toNat + 1)) 0 0))

/-- R223, R224: an extracted field is the sum of R224, below 2 to its length; inside one byte it is the shift of R224. -/
def Obligations.ExtractedFieldIsMsbFirst : Prop :=
  ∀ (s : State) (c off len : Nat),
    s.extractField c off len = fieldSum s c off len ∧ s.extractField c off len < 2 ^ len ∧
    (off % 8 + len ≤ 8 → s.extractField c off len = (s.buf c (off / 8)).toNat / 2 ^ (8 - off % 8 - len) % 2 ^ len)

/-- R213, R214, R215 to R221: the failing checks of DECODE, in their order, each with its code and with raw, value and label 0; each check needs
no word to have been written but those that R214 reads up to it. -/
def Obligations.DecodeChecksComeInOrder : Prop :=
  ∀ (ch : BitVec 4) (idx : BitVec 10) (s : State) (d : Nat → Word),
    (slotHolds s ch idx d (readForValidity d) → dInvalid s d →
      exec (.decode ch idx) s = .next (withResult s ch.toNat .invalidDescriptor 0 0 0)) ∧
    (slotHolds s ch idx d (readForId d) → ¬ dInvalid s d → ¬ dIdMatch s ch.toNat d →
      exec (.decode ch idx) s = .next (withResult s ch.toNat .notMatched 0 0 0)) ∧
    (slotHolds s ch idx d (readForId d) → ¬ dInvalid s d → dIdMatch s ch.toNat d → (s.ch ch.toNat).state ≠ .complete →
      exec (.decode ch idx) s = .next (withResult s ch.toNat .noPayload 0 0 0)) ∧
    (slotHolds s ch idx d (readForPfx d) → ¬ dInvalid s d → dIdMatch s ch.toNat d → (s.ch ch.toNat).state = .complete →
      ¬ dPfxMatch s ch.toNat d → exec (.decode ch idx) s = .next (withResult s ch.toNat .notMatched 0 0 0)) ∧
    (slotHolds s ch idx d (readForPfx d) → dAccepted s ch.toNat d →
      dBitOffset d + dBitLength d > 8 * (s.ch ch.toNat).len.toNat →
      exec (.decode ch idx) s = .next (withResult s ch.toNat .bitRangeOob 0 0 0))

/-- R225: a Linear signal that passes every check gives OK_NUMERIC, the raw field, and the product and the sum, each rounded, with every NaN made
canonical; D9 need not have been written. -/
def Obligations.DecodeOfLinearSignal : Prop :=
  ∀ (ch : BitVec 4) (idx : BitVec 10) (s : State) (d : Nat → Word), slotHolds s ch idx d (readForLinear d) →
    dInBounds s ch.toNat d → ¬ dEnum d →
    let raw := fieldSum s ch.toNat (dBitOffset d) (dBitLength d)
    let v := F64.add (F64.mul (F64.ofNat raw) (dScale d)) (dOffset d)
    exec (.decode ch idx) s =
      .next (withResult s ch.toNat .okNumeric raw (if F64.isNaN v then 0x7FF8000000000000 else v) 0)

/-- R230, R231, R232, R233: an EnumMap signal that passes every check gives the label of the lowest-numbered entry of its range whose KEY is the raw field,
and UNMAPPED_ENUM with the raw field where there is none. The keys up to the match, or of the whole range, and the label of the match are the LUT words
that must have been written. -/
def Obligations.DecodeOfEnumSignal : Prop :=
  ∀ (ch : BitVec 4) (idx : BitVec 10) (s : State) (d : Nat → Word) (key : Nat → Word), slotHolds s ch idx d (readForPfx d) →
    dInBounds s ch.toNat d → dEnum d →
    let raw := fieldSum s ch.toNat (dBitOffset d) (dBitLength d)
    (∀ (j : Nat) (l : Word), dLutBase d ≤ j → j < dLutBase d + dLutCount d →
      (∀ x, dLutBase d ≤ x → x ≤ j → s.mem.word? (lutAddr x 0) = some (key x)) → (key j).toNat = raw →
      (∀ x, dLutBase d ≤ x → x < j → (key x).toNat ≠ raw) → s.mem.word? (lutAddr j 1) = some l →
        exec (.decode ch idx) s = .next (withResult s ch.toNat .okLabel raw 0 (BitVec.ofNat 16 l.toNat))) ∧
    ((∀ x, dLutBase d ≤ x → x < dLutBase d + dLutCount d →
        s.mem.word? (lutAddr x 0) = some (key x) ∧ (key x).toNat ≠ raw) →
      exec (.decode ch idx) s = .next (withResult s ch.toNat .unmappedEnum raw 0 0))

/-- R211, R38, R136: DECODE and EXTRACT, with operands that exist, write the result registers and nothing else, and never the code NONE; with operands that
do not, they leave the result registers alone. -/
def Obligations.DecodeAndExtractWriteOnlyResults : Prop :=
  ∀ (i : Instr) (ch : BitVec 4) (idx : BitVec 10) (s t : State), i = .decode ch idx ∨ i = .extract ch idx → exec i s = .next t →
    (ch.toNat < s.numChannels → (i = .decode ch idx → idx.toNat < s.sizes.numSignals) →
      t = { s with result := t.result } ∧ t.result.code ≠ .none ∧ t.result.chState = (s.ch ch.toNat).state) ∧
    (¬ (ch.toNat < s.numChannels ∧ (i = .decode ch idx → idx.toNat < s.sizes.numSignals)) →
      t = { s with status := { s.status with cmdErr := true, cause := t.status.cause } })

/-- R296, 93 U1: the machine stops only in a DECODE that reads a descriptor or LUT word that was never written, and no instruction is refused. In
the order of R214, it does stop at each such word that DECODE reads, where the words before it were written and the checks before it pass. -/
def Obligations.OnlyUnwrittenWordsStopTheMachine : Prop :=
  (∀ (i : Instr) (s : State),
    (∀ f, exec i s = .fault f →
      ∃ ch idx a, i = .decode ch idx ∧ f = .unwrittenRamWord a ∧ s.mem.word? a = none ∧
        ((∃ w, w < 10 ∧ a = descAddr idx.toNat w) ∨ ∃ j w, w < 2 ∧ a = lutAddr j w)) ∧
    (∀ r, exec i s ≠ .refused r)) ∧
  ∀ (ch : BitVec 4) (idx : BitVec 10) (s : State) (d : Nat → Word),
    (slotHolds s ch idx d (fun _ => False) → stopsAt s ch idx (descAddr idx.toNat 0)) ∧
    (slotHolds s ch idx d (· = 0) → dValid d → stopsAt s ch idx (descAddr idx.toNat 2)) ∧
    (slotHolds s ch idx d (fun w => w = 0 ∨ w = 2) → dValid d → dPfxLen d ≤ 8 → dEnum d → dBitLength d ≤ 32 →
      stopsAt s ch idx (descAddr idx.toNat 9)) ∧
    (slotHolds s ch idx d (readForValidity d) → ¬ dInvalid s d → stopsAt s ch idx (descAddr idx.toNat 1)) ∧
    (slotHolds s ch idx d (readForId d) → ¬ dInvalid s d → dIdMatch s ch.toNat d → (s.ch ch.toNat).state = .complete → 1 ≤ dPfxLen d →
      stopsAt s ch idx (descAddr idx.toNat 3)) ∧
    (slotHolds s ch idx d (fun w => readForId d w ∨ w = 3) → ¬ dInvalid s d → dIdMatch s ch.toNat d →
      (s.ch ch.toNat).state = .complete → 5 ≤ dPfxLen d → stopsAt s ch idx (descAddr idx.toNat 4)) ∧
    (∀ w, 5 ≤ w → w ≤ 8 → slotHolds s ch idx d (fun x => readForPfx d x ∨ (5 ≤ x ∧ x < w)) → dInBounds s ch.toNat d → ¬ dEnum d →
      stopsAt s ch idx (descAddr idx.toNat w)) ∧
    (∀ (key : Nat → Word) (j : Nat), slotHolds s ch idx d (readForPfx d) → dInBounds s ch.toNat d → dEnum d →
      dLutBase d ≤ j → j < dLutBase d + dLutCount d →
      let raw := fieldSum s ch.toNat (dBitOffset d) (dBitLength d)
      (∀ x, dLutBase d ≤ x → x < j → s.mem.word? (lutAddr x 0) = some (key x) ∧ (key x).toNat ≠ raw) →
        stopsAt s ch idx (lutAddr j 0) ∧
        (s.mem.word? (lutAddr j 0) = some (key j) → (key j).toNat = raw → stopsAt s ch idx (lutAddr j 1)))

/-! ### binary64 -/

/-- R226, D31: rounding an exact magnitude gives a nearest binary64, and of two nearest ones the even one; it overflows exactly from the midpoint of the
largest finite value and 2^1024 on. Magnitudes are in units of 2^-2148, and `F64.mag` in units of 2^-1074. -/
def Obligations.RoundingIsToNearestTiesToEven : Prop :=
  ∀ u : Nat,
    (F64.roundMag u = 2047 * 2 ^ 52 ↔ (2 ^ 54 - 1) * 2 ^ 970 * 2 ^ 2148 ≤ u) ∧
    (F64.roundMag u < 2047 * 2 ^ 52 →
      ∀ y : F64, finite y →
        gap (F64.mag (F64.withSign false (F64.roundMag u)) * 2 ^ 1074) u ≤ gap (F64.mag y * 2 ^ 1074) u ∧
        (gap (F64.mag (F64.withSign false (F64.roundMag u)) * 2 ^ 1074) u = gap (F64.mag y * 2 ^ 1074) u →
          F64.mag y = F64.mag (F64.withSign false (F64.roundMag u)) ∨ F64.roundMag u % 2 = 0))

/-- R228: the conversion of a raw field is exact below 2^53; the two examples above it. -/
def Obligations.RawConversionIsExactBelow53Bits : Prop :=
  (∀ raw : Nat, raw < 2 ^ 53 → finite (F64.ofNat raw) ∧ F64.neg (F64.ofNat raw) = false ∧ F64.mag (F64.ofNat raw) = raw * 2 ^ 1074) ∧
  F64.ofNat (2 ^ 53 + 1) = F64.ofNat (2 ^ 53) ∧ F64.ofNat (2 ^ 64 - 1) = 0x43F0000000000000

/-- R227: special values. Every NaN result is the canonical one, from a NaN operand, from 0 times infinity and from infinity minus infinity; an infinite
operand gives infinity with the sign of the product or of the sum, and so does an overflow; raw 0 with a negative finite scale gives -0; a sum of
zeros is -0 only where both are; x + (-x) is +0. -/
def Obligations.SpecialValuesFollowIeee : Prop :=
  (∀ raw scale offset, nan (F64.linear raw scale offset) → F64.linear raw scale offset = 0x7FF8000000000000) ∧
  (∀ raw scale offset, nan scale ∨ nan offset → F64.linear raw scale offset = 0x7FF8000000000000) ∧
  (∀ x y, nan x ∨ nan y → F64.mul x y = 0x7FF8000000000000 ∧ F64.add x y = 0x7FF8000000000000) ∧
  (∀ m n, F64.mul (F64.withSign m 0) (F64.inf n) = 0x7FF8000000000000 ∧ F64.mul (F64.inf n) (F64.withSign m 0) = 0x7FF8000000000000) ∧
  (∀ n, F64.add (F64.inf n) (F64.inf !n) = 0x7FF8000000000000) ∧
  (∀ n y, ¬ nan y → magnitude y ≠ 0 →
    F64.mul (F64.inf n) y = F64.inf (n ^^ signOf y) ∧ F64.mul y (F64.inf n) = F64.inf (n ^^ signOf y)) ∧
  (∀ n, F64.add (F64.inf n) (F64.inf n) = F64.inf n) ∧
  (∀ n y, finite y → F64.add (F64.inf n) y = F64.inf n ∧ F64.add y (F64.inf n) = F64.inf n) ∧
  (∀ x y, finite x → finite y →
    (¬ finite (F64.mul x y) → F64.mul x y = F64.inf (signOf x ^^ signOf y)) ∧
    (¬ finite (F64.add x y) → F64.add x y = F64.inf (decide (signedOf x + signedOf y < 0)))) ∧
  (∀ scale, finite scale → signOf scale = true → F64.mul (F64.ofNat 0) scale = 0x8000000000000000) ∧
  (∀ m n, F64.add (F64.withSign m 0) (F64.withSign n 0) = F64.withSign (m && n) 0) ∧
  (∀ x, finite x → magnitude x ≠ 0 → F64.add x (x ^^^ 0x8000000000000000) = 0)

/-- R226, R228, R109: the product and the sum of finite operands, the conversion of an unsigned integer, and the assembler's quotient and decimal
value (log 18) are each the nearest binary64 to the exact one, ties to even, and infinity from the overflow threshold on; an exact sum of 0 is
+0, but for -0 + -0. -/
def Obligations.FiniteArithmeticRoundsToNearest : Prop :=
  (∀ x y, finite x → finite y → nearest (signOf x ^^ signOf y) (magnitude x * magnitude y) 1 (F64.mul x y)) ∧
  (∀ x y, finite x → finite y →
    (signedOf x + signedOf y ≠ 0 →
      nearest (decide (signedOf x + signedOf y < 0)) ((signedOf x + signedOf y).natAbs * 2 ^ 1074) 1 (F64.add x y)) ∧
    (signedOf x + signedOf y = 0 → F64.add x y = if signOf x = true ∧ signOf y = true then 0x8000000000000000 else 0)) ∧
  (∀ x : Nat, nearest false (x * 2 ^ 2148) 1 (F64.ofNat x)) ∧
  (∀ (n : Bool) (a b : Nat), b ≠ 0 → nearest n (a * 2 ^ 2148) b (F64.ofRatio n a b)) ∧
  (∀ (n : Bool) (m k : Nat),
    nearest n (m * 10 ^ k * 2 ^ 2148) 1 (F64.ofDecimal n m k) ∧ nearest n (m * 2 ^ 2148) (10 ^ k) (F64.ofDecimal n m (-k)))

/-! ### The whole machine -/

/-- R36: a step changes the result registers only by the commit of a DECODE or an EXTRACT, or by a reset. -/
def Obligations.OnlyDecodeAndExtractChangeResults : Prop :=
  ∀ s t : State, step s = .next t → t.result ≠ s.result →
    resetNext s ∨ ∃ ch idx, commitsNext s (.decode ch idx) ∨ commitsNext s (.extract ch idx)

/-- R43: a step changes a channel's filter or TA only by a host write to its CH_FILTER or CH_TA, or by a reset. -/
def Obligations.OnlyHostWritesAndResetChangeFilters : Prop :=
  ∀ (s t : State) (c : Nat), step s = .next t →
    (t.ch c).filterEn ≠ (s.ch c).filterEn ∨ (t.ch c).filterId ≠ (s.ch c).filterId ∨ (t.ch c).ta ≠ (s.ch c).ta →
      resetNext s ∨ writesNext s (0x100 + 0x10 * c) ∨ writesNext s (0x100 + 0x10 * c + 4)

/-- R42: a step changes what CH_STATUS and CH_TOTAL of a channel show only by the commit of a PUSH_FRAME whose frame is routed to it, of END_CAPTURE, of
RESET_CHANNELS or of a CH_RESET of it, or by a reset. -/
def Obligations.OnlyFrameAndResetCommandsChangeChannelStatus : Prop :=
  ∀ (s t : State) (c : Nat), step s = .next t →
    ((t.ch c).readReg .status ≠ (s.ch c).readReg .status ∨ (t.ch c).readReg .total ≠ (s.ch c).readReg .total) →
      resetNext s ∨ ∃ (ch : BitVec 4) (idx : BitVec 10), (commitsNext s (.pushFrame ch idx) ∧ routedTo s c) ∨
        commitsNext s (.endCapture ch idx) ∨ commitsNext s (.resetChannels ch idx) ∨ (commitsNext s (.chReset ch idx) ∧ ch.toNat = c)

/-- R50, R53: no command writes the descriptor RAM or the LUT RAM: a step changes a byte of them only by a host write to its word, or by a power cycle. -/
def Obligations.OnlyHostWritesChangeTheRams : Prop :=
  ∀ (s t : State) (a : Nat), step s = .next t → 0x10000 ≤ a → a < 0x30000 → t.mem.read? a ≠ s.mem.read? a →
    (∃ rest, s.schedule = .powerOn :: rest) ∨ writesNext s (a / 4 * 4)

/-- R46, R45: a Failed channel keeps its state, its recorded error, LEN, TOTAL and NEXT_SEQ over every step but a reset, a RESET_CHANNELS, or a
CH_RESET of it. -/
def Obligations.FirstFailureSticks : Prop :=
  ∀ (s t : State) (c : Nat), step s = .next t → (s.ch c).state = .failed →
    ((t.ch c).state = .failed ∧ (t.ch c).err = (s.ch c).err ∧ (t.ch c).len = (s.ch c).len ∧ (t.ch c).total = (s.ch c).total ∧
      (t.ch c).nextSeq = (s.ch c).nextSeq) ∨ resetNext s ∨
      ∃ (ch : BitVec 4) (idx : BitVec 10), commitsNext s (.resetChannels ch idx) ∨ (commitsNext s (.chReset ch idx) ∧ ch.toNat = c)

/-! ### The host's text -/

/-- R109: the accesses that FRAME expands to load the frame, with absent bytes 0, and push it: seven steps leave what the body of PUSH_FRAME leaves,
with DONE set and STATUS on the port (log 18). -/
def Obligations.FramePseudoInstructionPushesTheFrame : Prop :=
  ∀ (s : State) (f : HostText.RawFrame) (rest : List Event), s.rst = false → s.pending = none → f.bytes.length ≤ 8 →
    s.schedule = HostText.frame f ++ rest →
      ∃ t t0 : State, Host.Core.run Sys2Proof.core 7 s = .next t ∧ exec (.pushFrame 0 0) { s with fin := t.fin } = .next t0 ∧
        t = { t0 with
          schedule := rest, status := { t0.status with done := true }, rdata := t.statusWord, freeCount := t.freeCount } ∧
        t.fin.id.toNat = f.id.toNat % 2 ^ 29 ∧ t.fin.len.toNat = f.bytes.length ∧ (∀ i, i < 8 → t.fin.byte i = f.bytes.getD i 0)
end

