-- ==== Sys2Proof/Laws/Memory.lean ====
section
/-! SUPPORT. The laws of memory: a read after a write, what a write leaves alone, and that every memory operation keeps the canonical
form. -/

namespace Sys2Proof.Machine

/-- A read of a memory with a byte in front. -/
theorem Memory.read?_cons (k : Nat) (v : Byte) (m : Memory) (x : Nat) :
    Memory.read? ((k, v) :: m) x = if k = x then some v else m.read? x := rfl

/-- A read after a write of one byte. -/
theorem Memory.read?_write (m : Memory) (a : Nat) (b : Byte) (x : Nat) :
    (m.write a b).read? x = if x = a then some b else m.read? x := by
  induction m with
  | nil => simp only [Memory.write, Memory.read?_cons, eq_comm]
  | cons kv m ih =>
    obtain ⟨k, v⟩ := kv
    simp only [Memory.write]
    by_cases h1 : a < k
    · simp only [h1, if_true, Memory.read?_cons, eq_comm (a := a) (b := x)]
    · by_cases h2 : a = k
      · subst h2
        simp only [lt_irrefl, if_false, if_true, Memory.read?_cons]
        by_cases hx : x = a
        · simp [hx]
        · simp [hx, Ne.symm hx]
      · simp only [h1, h2, if_false, Memory.read?_cons, ih]
        by_cases hk : k = x
        · subst hk; simp [Ne.symm h2]
        · simp [hk]

/-- Every address of a memory after a write is the written one or an old one. -/
theorem Memory.mem_write {m : Memory} {a : Nat} {b : Byte} {p : Host.Cell} (h : p ∈ m.write a b) : p.1 = a ∨ p ∈ m := by
  induction m with
  | nil => simp [Memory.write] at h; simp [h]
  | cons kv m ih =>
    obtain ⟨k, v⟩ := kv
    simp only [Memory.write] at h
    split_ifs at h with h1 h2
    · rcases List.mem_cons.1 h with h | h
      · left; rw [h]
      · exact .inr h
    · rcases List.mem_cons.1 h with h | h
      · left; rw [h]
      · exact .inr (List.mem_cons_of_mem _ h)
    · rcases List.mem_cons.1 h with h | h
      · right; simp [h]
      · rcases ih h with h | h
        · exact .inl h
        · exact .inr (List.mem_cons_of_mem _ h)

/-- A write keeps the canonical form. -/
theorem Memory.wf_write {m : Memory} (h : m.wf) (a : Nat) (b : Byte) : (m.write a b).wf := by
  induction m with
  | nil => simp [Memory.write, Memory.wf]
  | cons kv m ih =>
    obtain ⟨k, v⟩ := kv
    obtain ⟨h1, h2⟩ := List.pairwise_cons.1 h
    simp only [Memory.write]
    split_ifs with c1 c2
    · refine List.pairwise_cons.2 ⟨fun p hp => ?_, h⟩
      rcases List.mem_cons.1 hp with hp | hp
      · rw [hp]; exact c1
      · exact lt_trans c1 (h1 p hp)
    · subst c2; exact List.pairwise_cons.2 ⟨h1, h2⟩
    · refine List.pairwise_cons.2 ⟨fun p hp => ?_, ih h2⟩
      rcases Memory.mem_write hp with hp | hp
      · show k < p.1
        omega
      · exact h1 p hp

/-- A read after a write of consecutive bytes. -/
theorem Memory.read?_writeBytes (bs : List Byte) (m : Memory) (a x : Nat) :
    (m.writeBytes a bs).read? x = if a ≤ x ∧ x < a + bs.length then bs[x - a]? else m.read? x := by
  induction bs generalizing m a with
  | nil =>
    rw [if_neg (by simp only [List.length_nil]; omega)]
    rfl
  | cons b bs ih =>
    simp only [Memory.writeBytes, ih, Memory.read?_write, List.length_cons]
    by_cases hx : x = a
    · subst hx; simp
    · by_cases h1 : a + 1 ≤ x ∧ x < a + 1 + bs.length
      · have h2 : a ≤ x ∧ x < a + (bs.length + 1) := by omega
        have h3 : x - a = (x - (a + 1)) + 1 := by omega
        simp only [h1, h2, and_self, if_true, h3, List.getElem?_cons_succ]
      · have h2 : ¬ (a ≤ x ∧ x < a + (bs.length + 1)) := by omega
        rw [if_neg h1, if_neg h2, if_neg hx]

/-- A stored byte stays stored. -/
theorem Memory.isSome_writeBytes (bs : List Byte) (m : Memory) (a x : Nat) (h : (m.read? x).isSome = true) :
    ((m.writeBytes a bs).read? x).isSome = true := by
  rw [Memory.read?_writeBytes]
  split_ifs with hx
  · rw [List.getElem?_eq_getElem (by omega)]
    rfl
  · exact h

/-- Writing bytes keeps the canonical form. -/
theorem Memory.wf_writeBytes (bs : List Byte) {m : Memory} (h : m.wf) (a : Nat) : (m.writeBytes a bs).wf := by
  induction bs generalizing m a with
  | nil => exact h
  | cons b bs ih => exact ih (Memory.wf_write h a b) (a + 1)

/-- Writing a word keeps the canonical form. -/
theorem Memory.wf_writeWord {m : Memory} (h : m.wf) (a : Nat) (w : Word) : (m.writeWord a w).wf := Memory.wf_writeBytes _ h a

/-- A word is its four bytes (20_memory R73). -/
theorem packWord_unpack (w : Word) : packWord (byteOf w 0) (byteOf w 1) (byteOf w 2) (byteOf w 3) = w := by
  apply BitVec.eq_of_getLsbD_eq
  intro i hi
  simp only [packWord, byteOf, BitVec.getLsbD_append, BitVec.getLsbD_extractLsb']
  split_ifs with h1 h2 h3
  · simp [h1]
  · rw [show 8 * 1 + (i - 8) = i by omega]; simp [h2]
  · rw [show 8 * 2 + (i - 8 - 8) = i by omega]; simp [h3]
  · rw [show 8 * 3 + (i - 8 - 8 - 8) = i by omega]
    simp only [Bool.and_eq_right_iff_imp, decide_eq_true_eq]
    intro _; omega

/-- A word read where it was written. -/
theorem Memory.word?_writeWord_self (m : Memory) (a : Nat) (w : Word) : (m.writeWord a w).word? a = some w := by
  simp [Memory.word?, Memory.writeWord, Memory.read?_writeBytes, unpackWord, packWord_unpack]

/-- A word read outside the four bytes that were written. -/
theorem Memory.word?_writeWord_ne (m : Memory) (a x : Nat) (w : Word) (h : x + 4 ≤ a ∨ a + 4 ≤ x) :
    (m.writeWord a w).word? x = m.word? x := by
  have hr : ∀ k, k < 4 → (m.writeWord a w).read? (x + k) = m.read? (x + k) := by
    intro k hk
    simp only [Memory.writeWord, Memory.read?_writeBytes, unpackWord, List.length_cons, List.length_nil]
    rw [if_neg (by omega)]
  have h0 := hr 0 (by omega)
  have h1 := hr 1 (by omega)
  have h2 := hr 2 (by omega)
  have h3 := hr 3 (by omega)
  simp only [Nat.add_zero] at h0
  simp only [Memory.word?, h0, h1, h2, h3]

/-- The buffer byte of a state whose memory had bytes written. -/
theorem State.buf_setMem_writeBytes (s : State) (a : Nat) (bs : List Byte) (c i : Nat) :
    (s.setMem (s.mem.writeBytes a bs)).buf c i =
      if a ≤ bufAddr c i ∧ bufAddr c i < a + bs.length then (bs[bufAddr c i - a]?).getD (Config.unwrittenByte (bufAddr c i))
      else s.buf c i := by
  simp only [State.buf, State.setMem, Memory.read?_writeBytes]
  split_ifs <;> rfl

@[simp] theorem State.dBytes_length (s : State) (i m : Nat) : (s.dBytes i m).length = m := by simp [State.dBytes]

theorem State.dBytes_getElem? (s : State) (i m j : Nat) (h : j < m) : (s.dBytes i m)[j]? = some (s.d (i + j)) := by
  simp [State.dBytes, h]

/-- `msbFirst` of `n` bits is below `2 ^ n`. -/
theorem msbFirst_lt (f : Nat → Bool) (p n : Nat) : msbFirst f p n < 2 ^ n := by
  induction n with
  | zero => simp [msbFirst]
  | succ n ih =>
    have hb : (f (p + n)).toNat ≤ 1 := Bool.toNat_le _
    simp only [msbFirst, pow_succ]
    omega

/-- `msbFirst` reads its bits and nothing else. -/
theorem msbFirst_congr (f g : Nat → Bool) (p n : Nat) (h : ∀ i, i < n → f (p + i) = g (p + i)) : msbFirst f p n = msbFirst g p n := by
  induction n with
  | zero => rfl
  | succ n ih =>
    simp only [msbFirst]
    rw [ih fun i hi => h i (by omega), h n (by omega)]

end Sys2Proof.Machine
end

