-- ==== Sys2Proof/Laws/State.lean ====
section
/-! SUPPORT. One lemma per field per update of State, true by rfl, so that no later proof unfolds a record update; and what each update
does to channel `d`. -/

namespace Sys2Proof.Machine

variable (s : State)

@[simp] theorem State.setChan_sizes (c : Nat) (x : Channel) : (s.setChan c x).sizes = s.sizes := rfl
@[simp] theorem State.setChan_cfg (c : Nat) (x : Channel) : (s.setChan c x).cfg = s.cfg := rfl
@[simp] theorem State.setChan_status (c : Nat) (x : Channel) : (s.setChan c x).status = s.status := rfl
@[simp] theorem State.setChan_irqEn (c : Nat) (x : Channel) : (s.setChan c x).irqEn = s.irqEn := rfl
@[simp] theorem State.setChan_counters (c : Nat) (x : Channel) : (s.setChan c x).counters = s.counters := rfl
@[simp] theorem State.setChan_fin (c : Nat) (x : Channel) : (s.setChan c x).fin = s.fin := rfl
@[simp] theorem State.setChan_xcfg (c : Nat) (x : Channel) : (s.setChan c x).xcfg = s.xcfg := rfl
@[simp] theorem State.setChan_result (c : Nat) (x : Channel) : (s.setChan c x).result = s.result := rfl
@[simp] theorem State.setChan_channels (c : Nat) (x : Channel) : (s.setChan c x).channels = s.channels.set c x := rfl
@[simp] theorem State.setChan_pending (c : Nat) (x : Channel) : (s.setChan c x).pending = s.pending := rfl
@[simp] theorem State.setChan_mem (c : Nat) (x : Channel) : (s.setChan c x).mem = s.mem := rfl
@[simp] theorem State.setChan_rst (c : Nat) (x : Channel) : (s.setChan c x).rst = s.rst := rfl
@[simp] theorem State.setChan_rdata (c : Nat) (x : Channel) : (s.setChan c x).rdata = s.rdata := rfl
@[simp] theorem State.setChan_schedule (c : Nat) (x : Channel) : (s.setChan c x).schedule = s.schedule := rfl
@[simp] theorem State.setChan_freeCount (c : Nat) (x : Channel) : (s.setChan c x).freeCount = s.freeCount := rfl

@[simp] theorem State.setChannels_sizes (cs : List Channel) : (s.setChannels cs).sizes = s.sizes := rfl
@[simp] theorem State.setChannels_cfg (cs : List Channel) : (s.setChannels cs).cfg = s.cfg := rfl
@[simp] theorem State.setChannels_status (cs : List Channel) : (s.setChannels cs).status = s.status := rfl
@[simp] theorem State.setChannels_irqEn (cs : List Channel) : (s.setChannels cs).irqEn = s.irqEn := rfl
@[simp] theorem State.setChannels_counters (cs : List Channel) : (s.setChannels cs).counters = s.counters := rfl
@[simp] theorem State.setChannels_fin (cs : List Channel) : (s.setChannels cs).fin = s.fin := rfl
@[simp] theorem State.setChannels_xcfg (cs : List Channel) : (s.setChannels cs).xcfg = s.xcfg := rfl
@[simp] theorem State.setChannels_result (cs : List Channel) : (s.setChannels cs).result = s.result := rfl
@[simp] theorem State.setChannels_channels (cs : List Channel) : (s.setChannels cs).channels = cs := rfl
@[simp] theorem State.setChannels_pending (cs : List Channel) : (s.setChannels cs).pending = s.pending := rfl
@[simp] theorem State.setChannels_mem (cs : List Channel) : (s.setChannels cs).mem = s.mem := rfl
@[simp] theorem State.setChannels_rst (cs : List Channel) : (s.setChannels cs).rst = s.rst := rfl
@[simp] theorem State.setChannels_rdata (cs : List Channel) : (s.setChannels cs).rdata = s.rdata := rfl
@[simp] theorem State.setChannels_schedule (cs : List Channel) : (s.setChannels cs).schedule = s.schedule := rfl
@[simp] theorem State.setChannels_freeCount (cs : List Channel) : (s.setChannels cs).freeCount = s.freeCount := rfl

@[simp] theorem State.setMem_sizes (m : Memory) : (s.setMem m).sizes = s.sizes := rfl
@[simp] theorem State.setMem_cfg (m : Memory) : (s.setMem m).cfg = s.cfg := rfl
@[simp] theorem State.setMem_status (m : Memory) : (s.setMem m).status = s.status := rfl
@[simp] theorem State.setMem_irqEn (m : Memory) : (s.setMem m).irqEn = s.irqEn := rfl
@[simp] theorem State.setMem_counters (m : Memory) : (s.setMem m).counters = s.counters := rfl
@[simp] theorem State.setMem_fin (m : Memory) : (s.setMem m).fin = s.fin := rfl
@[simp] theorem State.setMem_xcfg (m : Memory) : (s.setMem m).xcfg = s.xcfg := rfl
@[simp] theorem State.setMem_result (m : Memory) : (s.setMem m).result = s.result := rfl
@[simp] theorem State.setMem_channels (m : Memory) : (s.setMem m).channels = s.channels := rfl
@[simp] theorem State.setMem_pending (m : Memory) : (s.setMem m).pending = s.pending := rfl
@[simp] theorem State.setMem_mem (m : Memory) : (s.setMem m).mem = m := rfl
@[simp] theorem State.setMem_rst (m : Memory) : (s.setMem m).rst = s.rst := rfl
@[simp] theorem State.setMem_rdata (m : Memory) : (s.setMem m).rdata = s.rdata := rfl
@[simp] theorem State.setMem_schedule (m : Memory) : (s.setMem m).schedule = s.schedule := rfl
@[simp] theorem State.setMem_freeCount (m : Memory) : (s.setMem m).freeCount = s.freeCount := rfl

@[simp] theorem State.setResult_sizes (r : Result) : (s.setResult r).sizes = s.sizes := rfl
@[simp] theorem State.setResult_cfg (r : Result) : (s.setResult r).cfg = s.cfg := rfl
@[simp] theorem State.setResult_status (r : Result) : (s.setResult r).status = s.status := rfl
@[simp] theorem State.setResult_irqEn (r : Result) : (s.setResult r).irqEn = s.irqEn := rfl
@[simp] theorem State.setResult_counters (r : Result) : (s.setResult r).counters = s.counters := rfl
@[simp] theorem State.setResult_fin (r : Result) : (s.setResult r).fin = s.fin := rfl
@[simp] theorem State.setResult_xcfg (r : Result) : (s.setResult r).xcfg = s.xcfg := rfl
@[simp] theorem State.setResult_result (r : Result) : (s.setResult r).result = r := rfl
@[simp] theorem State.setResult_channels (r : Result) : (s.setResult r).channels = s.channels := rfl
@[simp] theorem State.setResult_pending (r : Result) : (s.setResult r).pending = s.pending := rfl
@[simp] theorem State.setResult_mem (r : Result) : (s.setResult r).mem = s.mem := rfl
@[simp] theorem State.setResult_rst (r : Result) : (s.setResult r).rst = s.rst := rfl
@[simp] theorem State.setResult_rdata (r : Result) : (s.setResult r).rdata = s.rdata := rfl
@[simp] theorem State.setResult_schedule (r : Result) : (s.setResult r).schedule = s.schedule := rfl
@[simp] theorem State.setResult_freeCount (r : Result) : (s.setResult r).freeCount = s.freeCount := rfl

@[simp] theorem State.setStatus_sizes (st : Status) : (s.setStatus st).sizes = s.sizes := rfl
@[simp] theorem State.setStatus_cfg (st : Status) : (s.setStatus st).cfg = s.cfg := rfl
@[simp] theorem State.setStatus_status (st : Status) : (s.setStatus st).status = st := rfl
@[simp] theorem State.setStatus_irqEn (st : Status) : (s.setStatus st).irqEn = s.irqEn := rfl
@[simp] theorem State.setStatus_counters (st : Status) : (s.setStatus st).counters = s.counters := rfl
@[simp] theorem State.setStatus_fin (st : Status) : (s.setStatus st).fin = s.fin := rfl
@[simp] theorem State.setStatus_xcfg (st : Status) : (s.setStatus st).xcfg = s.xcfg := rfl
@[simp] theorem State.setStatus_result (st : Status) : (s.setStatus st).result = s.result := rfl
@[simp] theorem State.setStatus_channels (st : Status) : (s.setStatus st).channels = s.channels := rfl
@[simp] theorem State.setStatus_pending (st : Status) : (s.setStatus st).pending = s.pending := rfl
@[simp] theorem State.setStatus_mem (st : Status) : (s.setStatus st).mem = s.mem := rfl
@[simp] theorem State.setStatus_rst (st : Status) : (s.setStatus st).rst = s.rst := rfl
@[simp] theorem State.setStatus_rdata (st : Status) : (s.setStatus st).rdata = s.rdata := rfl
@[simp] theorem State.setStatus_schedule (st : Status) : (s.setStatus st).schedule = s.schedule := rfl
@[simp] theorem State.setStatus_freeCount (st : Status) : (s.setStatus st).freeCount = s.freeCount := rfl

@[simp] theorem State.setCounters_sizes (k : Counters) : (s.setCounters k).sizes = s.sizes := rfl
@[simp] theorem State.setCounters_cfg (k : Counters) : (s.setCounters k).cfg = s.cfg := rfl
@[simp] theorem State.setCounters_status (k : Counters) : (s.setCounters k).status = s.status := rfl
@[simp] theorem State.setCounters_irqEn (k : Counters) : (s.setCounters k).irqEn = s.irqEn := rfl
@[simp] theorem State.setCounters_counters (k : Counters) : (s.setCounters k).counters = k := rfl
@[simp] theorem State.setCounters_fin (k : Counters) : (s.setCounters k).fin = s.fin := rfl
@[simp] theorem State.setCounters_xcfg (k : Counters) : (s.setCounters k).xcfg = s.xcfg := rfl
@[simp] theorem State.setCounters_result (k : Counters) : (s.setCounters k).result = s.result := rfl
@[simp] theorem State.setCounters_channels (k : Counters) : (s.setCounters k).channels = s.channels := rfl
@[simp] theorem State.setCounters_pending (k : Counters) : (s.setCounters k).pending = s.pending := rfl
@[simp] theorem State.setCounters_mem (k : Counters) : (s.setCounters k).mem = s.mem := rfl
@[simp] theorem State.setCounters_rst (k : Counters) : (s.setCounters k).rst = s.rst := rfl
@[simp] theorem State.setCounters_rdata (k : Counters) : (s.setCounters k).rdata = s.rdata := rfl
@[simp] theorem State.setCounters_schedule (k : Counters) : (s.setCounters k).schedule = s.schedule := rfl
@[simp] theorem State.setCounters_freeCount (k : Counters) : (s.setCounters k).freeCount = s.freeCount := rfl

@[simp] theorem State.setPending_sizes (p : Option Word) : (s.setPending p).sizes = s.sizes := rfl
@[simp] theorem State.setPending_cfg (p : Option Word) : (s.setPending p).cfg = s.cfg := rfl
@[simp] theorem State.setPending_status (p : Option Word) : (s.setPending p).status = s.status := rfl
@[simp] theorem State.setPending_irqEn (p : Option Word) : (s.setPending p).irqEn = s.irqEn := rfl
@[simp] theorem State.setPending_counters (p : Option Word) : (s.setPending p).counters = s.counters := rfl
@[simp] theorem State.setPending_fin (p : Option Word) : (s.setPending p).fin = s.fin := rfl
@[simp] theorem State.setPending_xcfg (p : Option Word) : (s.setPending p).xcfg = s.xcfg := rfl
@[simp] theorem State.setPending_result (p : Option Word) : (s.setPending p).result = s.result := rfl
@[simp] theorem State.setPending_channels (p : Option Word) : (s.setPending p).channels = s.channels := rfl
@[simp] theorem State.setPending_pending (p : Option Word) : (s.setPending p).pending = p := rfl
@[simp] theorem State.setPending_mem (p : Option Word) : (s.setPending p).mem = s.mem := rfl
@[simp] theorem State.setPending_rst (p : Option Word) : (s.setPending p).rst = s.rst := rfl
@[simp] theorem State.setPending_rdata (p : Option Word) : (s.setPending p).rdata = s.rdata := rfl
@[simp] theorem State.setPending_schedule (p : Option Word) : (s.setPending p).schedule = s.schedule := rfl
@[simp] theorem State.setPending_freeCount (p : Option Word) : (s.setPending p).freeCount = s.freeCount := rfl

@[simp] theorem State.setRdata_sizes (w : Word) : (s.setRdata w).sizes = s.sizes := rfl
@[simp] theorem State.setRdata_cfg (w : Word) : (s.setRdata w).cfg = s.cfg := rfl
@[simp] theorem State.setRdata_status (w : Word) : (s.setRdata w).status = s.status := rfl
@[simp] theorem State.setRdata_irqEn (w : Word) : (s.setRdata w).irqEn = s.irqEn := rfl
@[simp] theorem State.setRdata_counters (w : Word) : (s.setRdata w).counters = s.counters := rfl
@[simp] theorem State.setRdata_fin (w : Word) : (s.setRdata w).fin = s.fin := rfl
@[simp] theorem State.setRdata_xcfg (w : Word) : (s.setRdata w).xcfg = s.xcfg := rfl
@[simp] theorem State.setRdata_result (w : Word) : (s.setRdata w).result = s.result := rfl
@[simp] theorem State.setRdata_channels (w : Word) : (s.setRdata w).channels = s.channels := rfl
@[simp] theorem State.setRdata_pending (w : Word) : (s.setRdata w).pending = s.pending := rfl
@[simp] theorem State.setRdata_mem (w : Word) : (s.setRdata w).mem = s.mem := rfl
@[simp] theorem State.setRdata_rst (w : Word) : (s.setRdata w).rst = s.rst := rfl
@[simp] theorem State.setRdata_rdata (w : Word) : (s.setRdata w).rdata = w := rfl
@[simp] theorem State.setRdata_schedule (w : Word) : (s.setRdata w).schedule = s.schedule := rfl
@[simp] theorem State.setRdata_freeCount (w : Word) : (s.setRdata w).freeCount = s.freeCount := rfl

@[simp] theorem State.tick_sizes : (s.tick).sizes = s.sizes := rfl
@[simp] theorem State.tick_cfg : (s.tick).cfg = s.cfg := rfl
@[simp] theorem State.tick_status : (s.tick).status = s.status := rfl
@[simp] theorem State.tick_irqEn : (s.tick).irqEn = s.irqEn := rfl
@[simp] theorem State.tick_counters : (s.tick).counters = s.counters := rfl
@[simp] theorem State.tick_fin : (s.tick).fin = s.fin := rfl
@[simp] theorem State.tick_xcfg : (s.tick).xcfg = s.xcfg := rfl
@[simp] theorem State.tick_result : (s.tick).result = s.result := rfl
@[simp] theorem State.tick_channels : (s.tick).channels = s.channels := rfl
@[simp] theorem State.tick_pending : (s.tick).pending = s.pending := rfl
@[simp] theorem State.tick_mem : (s.tick).mem = s.mem := rfl
@[simp] theorem State.tick_rst : (s.tick).rst = s.rst := rfl
@[simp] theorem State.tick_rdata : (s.tick).rdata = s.rdata := rfl
@[simp] theorem State.tick_schedule : (s.tick).schedule = s.schedule := rfl
@[simp] theorem State.tick_freeCount : (s.tick).freeCount = s.freeCount + 1 := rfl

@[simp] theorem State.fail_sizes (c : Nat) (e : ChErr) : (s.fail c e).sizes = s.sizes := rfl
@[simp] theorem State.fail_cfg (c : Nat) (e : ChErr) : (s.fail c e).cfg = s.cfg := rfl
@[simp] theorem State.fail_status (c : Nat) (e : ChErr) : (s.fail c e).status = s.status := rfl
@[simp] theorem State.fail_irqEn (c : Nat) (e : ChErr) : (s.fail c e).irqEn = s.irqEn := rfl
@[simp] theorem State.fail_counters (c : Nat) (e : ChErr) : (s.fail c e).counters = s.counters := rfl
@[simp] theorem State.fail_fin (c : Nat) (e : ChErr) : (s.fail c e).fin = s.fin := rfl
@[simp] theorem State.fail_xcfg (c : Nat) (e : ChErr) : (s.fail c e).xcfg = s.xcfg := rfl
@[simp] theorem State.fail_result (c : Nat) (e : ChErr) : (s.fail c e).result = s.result := rfl
@[simp] theorem State.fail_channels (c : Nat) (e : ChErr) : (s.fail c e).channels = s.channels.set c ((s.ch c).fail e) := rfl
@[simp] theorem State.fail_pending (c : Nat) (e : ChErr) : (s.fail c e).pending = s.pending := rfl
@[simp] theorem State.fail_mem (c : Nat) (e : ChErr) : (s.fail c e).mem = s.mem := rfl
@[simp] theorem State.fail_rst (c : Nat) (e : ChErr) : (s.fail c e).rst = s.rst := rfl
@[simp] theorem State.fail_rdata (c : Nat) (e : ChErr) : (s.fail c e).rdata = s.rdata := rfl
@[simp] theorem State.fail_schedule (c : Nat) (e : ChErr) : (s.fail c e).schedule = s.schedule := rfl
@[simp] theorem State.fail_freeCount (c : Nat) (e : ChErr) : (s.fail c e).freeCount = s.freeCount := rfl

@[simp] theorem State.reject_sizes (p : RejectDetail) : (s.reject p).sizes = s.sizes := rfl
@[simp] theorem State.reject_cfg (p : RejectDetail) : (s.reject p).cfg = s.cfg := rfl
@[simp] theorem State.reject_status (p : RejectDetail) : (s.reject p).status = s.status := rfl
@[simp] theorem State.reject_irqEn (p : RejectDetail) : (s.reject p).irqEn = s.irqEn := rfl
@[simp] theorem State.reject_counters (p : RejectDetail) : (s.reject p).counters = { s.counters with reject := satInc s.counters.reject, lastReject := p } := rfl
@[simp] theorem State.reject_fin (p : RejectDetail) : (s.reject p).fin = s.fin := rfl
@[simp] theorem State.reject_xcfg (p : RejectDetail) : (s.reject p).xcfg = s.xcfg := rfl
@[simp] theorem State.reject_result (p : RejectDetail) : (s.reject p).result = s.result := rfl
@[simp] theorem State.reject_channels (p : RejectDetail) : (s.reject p).channels = s.channels := rfl
@[simp] theorem State.reject_pending (p : RejectDetail) : (s.reject p).pending = s.pending := rfl
@[simp] theorem State.reject_mem (p : RejectDetail) : (s.reject p).mem = s.mem := rfl
@[simp] theorem State.reject_rst (p : RejectDetail) : (s.reject p).rst = s.rst := rfl
@[simp] theorem State.reject_rdata (p : RejectDetail) : (s.reject p).rdata = s.rdata := rfl
@[simp] theorem State.reject_schedule (p : RejectDetail) : (s.reject p).schedule = s.schedule := rfl
@[simp] theorem State.reject_freeCount (p : RejectDetail) : (s.reject p).freeCount = s.freeCount := rfl

@[simp] theorem State.dropFrame_sizes : (s.dropFrame).sizes = s.sizes := rfl
@[simp] theorem State.dropFrame_cfg : (s.dropFrame).cfg = s.cfg := rfl
@[simp] theorem State.dropFrame_status : (s.dropFrame).status = s.status := rfl
@[simp] theorem State.dropFrame_irqEn : (s.dropFrame).irqEn = s.irqEn := rfl
@[simp] theorem State.dropFrame_counters : (s.dropFrame).counters = { s.counters with drop := satInc s.counters.drop } := rfl
@[simp] theorem State.dropFrame_fin : (s.dropFrame).fin = s.fin := rfl
@[simp] theorem State.dropFrame_xcfg : (s.dropFrame).xcfg = s.xcfg := rfl
@[simp] theorem State.dropFrame_result : (s.dropFrame).result = s.result := rfl
@[simp] theorem State.dropFrame_channels : (s.dropFrame).channels = s.channels := rfl
@[simp] theorem State.dropFrame_pending : (s.dropFrame).pending = s.pending := rfl
@[simp] theorem State.dropFrame_mem : (s.dropFrame).mem = s.mem := rfl
@[simp] theorem State.dropFrame_rst : (s.dropFrame).rst = s.rst := rfl
@[simp] theorem State.dropFrame_rdata : (s.dropFrame).rdata = s.rdata := rfl
@[simp] theorem State.dropFrame_schedule : (s.dropFrame).schedule = s.schedule := rfl
@[simp] theorem State.dropFrame_freeCount : (s.dropFrame).freeCount = s.freeCount := rfl

@[simp] theorem State.cmdError_sizes (k : CmdCause) : (s.cmdError k).sizes = s.sizes := rfl
@[simp] theorem State.cmdError_cfg (k : CmdCause) : (s.cmdError k).cfg = s.cfg := rfl
@[simp] theorem State.cmdError_status (k : CmdCause) : (s.cmdError k).status = { s.status with cmdErr := true, cause := k } := rfl
@[simp] theorem State.cmdError_irqEn (k : CmdCause) : (s.cmdError k).irqEn = s.irqEn := rfl
@[simp] theorem State.cmdError_counters (k : CmdCause) : (s.cmdError k).counters = s.counters := rfl
@[simp] theorem State.cmdError_fin (k : CmdCause) : (s.cmdError k).fin = s.fin := rfl
@[simp] theorem State.cmdError_xcfg (k : CmdCause) : (s.cmdError k).xcfg = s.xcfg := rfl
@[simp] theorem State.cmdError_result (k : CmdCause) : (s.cmdError k).result = s.result := rfl
@[simp] theorem State.cmdError_channels (k : CmdCause) : (s.cmdError k).channels = s.channels := rfl
@[simp] theorem State.cmdError_pending (k : CmdCause) : (s.cmdError k).pending = s.pending := rfl
@[simp] theorem State.cmdError_mem (k : CmdCause) : (s.cmdError k).mem = s.mem := rfl
@[simp] theorem State.cmdError_rst (k : CmdCause) : (s.cmdError k).rst = s.rst := rfl
@[simp] theorem State.cmdError_rdata (k : CmdCause) : (s.cmdError k).rdata = s.rdata := rfl
@[simp] theorem State.cmdError_schedule (k : CmdCause) : (s.cmdError k).schedule = s.schedule := rfl
@[simp] theorem State.cmdError_freeCount (k : CmdCause) : (s.cmdError k).freeCount = s.freeCount := rfl

@[simp] theorem State.busError_sizes : (s.busError).sizes = s.sizes := rfl
@[simp] theorem State.busError_cfg : (s.busError).cfg = s.cfg := rfl
@[simp] theorem State.busError_status : (s.busError).status = { s.status with busErr := true } := rfl
@[simp] theorem State.busError_irqEn : (s.busError).irqEn = s.irqEn := rfl
@[simp] theorem State.busError_counters : (s.busError).counters = s.counters := rfl
@[simp] theorem State.busError_fin : (s.busError).fin = s.fin := rfl
@[simp] theorem State.busError_xcfg : (s.busError).xcfg = s.xcfg := rfl
@[simp] theorem State.busError_result : (s.busError).result = s.result := rfl
@[simp] theorem State.busError_channels : (s.busError).channels = s.channels := rfl
@[simp] theorem State.busError_pending : (s.busError).pending = s.pending := rfl
@[simp] theorem State.busError_mem : (s.busError).mem = s.mem := rfl
@[simp] theorem State.busError_rst : (s.busError).rst = s.rst := rfl
@[simp] theorem State.busError_rdata : (s.busError).rdata = s.rdata := rfl
@[simp] theorem State.busError_schedule : (s.busError).schedule = s.schedule := rfl
@[simp] theorem State.busError_freeCount : (s.busError).freeCount = s.freeCount := rfl

@[simp] theorem State.overrun_sizes : (s.overrun).sizes = s.sizes := rfl
@[simp] theorem State.overrun_cfg : (s.overrun).cfg = s.cfg := rfl
@[simp] theorem State.overrun_status : (s.overrun).status = { s.status with overrun := true } := rfl
@[simp] theorem State.overrun_irqEn : (s.overrun).irqEn = s.irqEn := rfl
@[simp] theorem State.overrun_counters : (s.overrun).counters = s.counters := rfl
@[simp] theorem State.overrun_fin : (s.overrun).fin = s.fin := rfl
@[simp] theorem State.overrun_xcfg : (s.overrun).xcfg = s.xcfg := rfl
@[simp] theorem State.overrun_result : (s.overrun).result = s.result := rfl
@[simp] theorem State.overrun_channels : (s.overrun).channels = s.channels := rfl
@[simp] theorem State.overrun_pending : (s.overrun).pending = s.pending := rfl
@[simp] theorem State.overrun_mem : (s.overrun).mem = s.mem := rfl
@[simp] theorem State.overrun_rst : (s.overrun).rst = s.rst := rfl
@[simp] theorem State.overrun_rdata : (s.overrun).rdata = s.rdata := rfl
@[simp] theorem State.overrun_schedule : (s.overrun).schedule = s.schedule := rfl
@[simp] theorem State.overrun_freeCount : (s.overrun).freeCount = s.freeCount := rfl

@[simp] theorem State.finish_sizes : (s.finish).sizes = s.sizes := rfl
@[simp] theorem State.finish_cfg : (s.finish).cfg = s.cfg := rfl
@[simp] theorem State.finish_status : (s.finish).status = { s.status with done := true } := rfl
@[simp] theorem State.finish_irqEn : (s.finish).irqEn = s.irqEn := rfl
@[simp] theorem State.finish_counters : (s.finish).counters = s.counters := rfl
@[simp] theorem State.finish_fin : (s.finish).fin = s.fin := rfl
@[simp] theorem State.finish_xcfg : (s.finish).xcfg = s.xcfg := rfl
@[simp] theorem State.finish_result : (s.finish).result = s.result := rfl
@[simp] theorem State.finish_channels : (s.finish).channels = s.channels := rfl
@[simp] theorem State.finish_pending : (s.finish).pending = none := rfl
@[simp] theorem State.finish_mem : (s.finish).mem = s.mem := rfl
@[simp] theorem State.finish_rst : (s.finish).rst = s.rst := rfl
@[simp] theorem State.finish_rdata : (s.finish).rdata = s.rdata := rfl
@[simp] theorem State.finish_schedule : (s.finish).schedule = s.schedule := rfl
@[simp] theorem State.finish_freeCount : (s.finish).freeCount = s.freeCount := rfl

@[simp] theorem State.committed_sizes : (s.committed).sizes = s.sizes := rfl
@[simp] theorem State.committed_cfg : (s.committed).cfg = s.cfg := rfl
@[simp] theorem State.committed_status : (s.committed).status = { s.status with done := true } := rfl
@[simp] theorem State.committed_irqEn : (s.committed).irqEn = s.irqEn := rfl
@[simp] theorem State.committed_counters : (s.committed).counters = s.counters := rfl
@[simp] theorem State.committed_fin : (s.committed).fin = s.fin := rfl
@[simp] theorem State.committed_xcfg : (s.committed).xcfg = s.xcfg := rfl
@[simp] theorem State.committed_result : (s.committed).result = s.result := rfl
@[simp] theorem State.committed_channels : (s.committed).channels = s.channels := rfl
@[simp] theorem State.committed_pending : (s.committed).pending = none := rfl
@[simp] theorem State.committed_mem : (s.committed).mem = s.mem := rfl
@[simp] theorem State.committed_rst : (s.committed).rst = s.rst := rfl
@[simp] theorem State.committed_rdata : (s.committed).rdata = s.rdata := rfl
@[simp] theorem State.committed_schedule : (s.committed).schedule = s.schedule := rfl
@[simp] theorem State.committed_freeCount : (s.committed).freeCount = s.freeCount + 1 := rfl

@[simp] theorem State.append_sizes (c : Nat) (bs : List Byte) : (s.append c bs).sizes = s.sizes := rfl
@[simp] theorem State.append_cfg (c : Nat) (bs : List Byte) : (s.append c bs).cfg = s.cfg := rfl
@[simp] theorem State.append_status (c : Nat) (bs : List Byte) : (s.append c bs).status = s.status := rfl
@[simp] theorem State.append_irqEn (c : Nat) (bs : List Byte) : (s.append c bs).irqEn = s.irqEn := rfl
@[simp] theorem State.append_counters (c : Nat) (bs : List Byte) : (s.append c bs).counters = s.counters := rfl
@[simp] theorem State.append_fin (c : Nat) (bs : List Byte) : (s.append c bs).fin = s.fin := rfl
@[simp] theorem State.append_xcfg (c : Nat) (bs : List Byte) : (s.append c bs).xcfg = s.xcfg := rfl
@[simp] theorem State.append_result (c : Nat) (bs : List Byte) : (s.append c bs).result = s.result := rfl
@[simp] theorem State.append_channels (c : Nat) (bs : List Byte) : (s.append c bs).channels = s.channels := rfl
@[simp] theorem State.append_pending (c : Nat) (bs : List Byte) : (s.append c bs).pending = s.pending := rfl
@[simp] theorem State.append_mem (c : Nat) (bs : List Byte) : (s.append c bs).mem = s.mem.writeBytes (bufAddr c (s.ch c).len.toNat) bs := rfl
@[simp] theorem State.append_rst (c : Nat) (bs : List Byte) : (s.append c bs).rst = s.rst := rfl
@[simp] theorem State.append_rdata (c : Nat) (bs : List Byte) : (s.append c bs).rdata = s.rdata := rfl
@[simp] theorem State.append_schedule (c : Nat) (bs : List Byte) : (s.append c bs).schedule = s.schedule := rfl
@[simp] theorem State.append_freeCount (c : Nat) (bs : List Byte) : (s.append c bs).freeCount = s.freeCount := rfl

/-! ### Channels -/

@[simp] theorem State.setChan_numChannels (c : Nat) (x : Channel) : (s.setChan c x).numChannels = s.numChannels := by
  simp [State.numChannels]

/-- An update of one channel, seen at channel `d`. -/
theorem State.ch_setChan (c d : Nat) (x : Channel) :
    (s.setChan c x).ch d = if c = d ∧ d < s.numChannels then x else s.ch d := by
  simp only [State.ch, State.setChan_channels, List.getD_eq_getElem?_getD, List.getElem?_set, State.numChannels]
  split_ifs <;> simp_all

@[simp] theorem State.ch_setChan_self (c : Nat) (x : Channel) (h : c < s.numChannels) : (s.setChan c x).ch c = x := by
  simp [State.ch_setChan, h]

theorem State.ch_setChan_ne (c d : Nat) (x : Channel) (h : d ≠ c) : (s.setChan c x).ch d = s.ch d := by
  simp [State.ch_setChan, h.symm]

/-- Writing a channel back changes nothing. -/
theorem State.setChan_ch (c : Nat) : s.setChan c (s.ch c) = s := by
  have h : s.channels.set c (s.channels.getD c Channel.reset) = s.channels := by
    apply List.ext_getElem?
    intro i
    simp only [List.getElem?_set, List.getD_eq_getElem?_getD]
    split_ifs with h1 h2
    · subst h1; simp [h2]
    · subst h1; simp only [not_lt] at h2; simp [List.getElem?_eq_none h2]
    · rfl
  simp only [State.setChan, State.ch, h]

/-- A function applied to every channel, seen at channel `d`. -/
theorem State.ch_map (f : Channel → Channel) (d : Nat) (h : d < s.numChannels) :
    (s.setChannels (s.channels.map f)).ch d = f (s.ch d) := by
  have h' : d < s.channels.length := h
  simp [State.ch, List.getD_eq_getElem?_getD, h']

/-- The channels read from their list alone. -/
theorem State.ch_congr {s t : State} (h : t.channels = s.channels) (d : Nat) : t.ch d = s.ch d := by
  simp only [State.ch, h]

@[simp] theorem State.setMem_ch (m : Memory) (d : Nat) : (s.setMem m).ch d = s.ch d := rfl
@[simp] theorem State.setResult_ch (r : Result) (d : Nat) : (s.setResult r).ch d = s.ch d := rfl
@[simp] theorem State.setStatus_ch (st : Status) (d : Nat) : (s.setStatus st).ch d = s.ch d := rfl
@[simp] theorem State.setCounters_ch (k : Counters) (d : Nat) : (s.setCounters k).ch d = s.ch d := rfl
@[simp] theorem State.committed_ch (d : Nat) : s.committed.ch d = s.ch d := rfl

/-- `fail` changes its own channel alone (42_reassembly R172, R173). -/
theorem State.ch_fail (c d : Nat) (e : ChErr) :
    (s.fail c e).ch d = if c = d ∧ d < s.numChannels then (s.ch c).fail e else s.ch d := State.ch_setChan s c d _

@[simp] theorem Channel.fail_len (x : Channel) (e : ChErr) : (x.fail e).len = x.len := rfl
@[simp] theorem Channel.fail_total (x : Channel) (e : ChErr) : (x.fail e).total = x.total := rfl
@[simp] theorem Channel.fail_nextSeq (x : Channel) (e : ChErr) : (x.fail e).nextSeq = x.nextSeq := rfl
@[simp] theorem Channel.fail_state (x : Channel) (e : ChErr) : (x.fail e).state = .failed := rfl
@[simp] theorem Channel.fail_err (x : Channel) (e : ChErr) : (x.fail e).err = e := rfl
@[simp] theorem Channel.fail_event (x : Channel) (e : ChErr) : (x.fail e).event = true := rfl
@[simp] theorem Channel.fail_filterEn (x : Channel) (e : ChErr) : (x.fail e).filterEn = x.filterEn := rfl
@[simp] theorem Channel.fail_filterId (x : Channel) (e : ChErr) : (x.fail e).filterId = x.filterId := rfl
@[simp] theorem Channel.fail_ta (x : Channel) (e : ChErr) : (x.fail e).ta = x.ta := rfl

end Sys2Proof.Machine
end

