-- ==== Sys2Proof/Laws/Bus.lean ====
section
/-! SUPPORT. The host bus: what each target's address is, and everything a read and a write can do, said once. -/

namespace Sys2Proof.Machine

variable (s : State)

/-! ### Addresses of targets -/

/-- The offset of a global register (10_state R21). -/
def GlobalReg.offset : GlobalReg → Nat
  | .blkId => 0x000 | .version => 0x004 | .param0 => 0x008 | .param1 => 0x00C | .cfg => 0x010 | .cmd => 0x014
  | .status => 0x018 | .irqEn => 0x01C | .chEvent => 0x020 | .counters => 0x024 | .lastReject => 0x028
  | .finId => 0x030 | .finLen => 0x034 | .finData0 => 0x038 | .finData1 => 0x03C | .xCfg => 0x040
  | .resCode => 0x050 | .resRawLo => 0x054 | .resRawHi => 0x058 | .resValLo => 0x05C | .resValHi => 0x060 | .resLabel => 0x064

/-- The offset of a channel register in its channel's block (10_state R41). -/
def ChanReg.offset : ChanReg → Nat
  | .filter => 0x0 | .ta => 0x4 | .status => 0x8 | .total => 0xC

/-- A global register is at its offset, whatever the parameters. -/
theorem State.target_global (r : GlobalReg) : s.target r.offset = .global r := by
  cases r <;> rfl

/-- What an offset below 0x100 names, it names alone. -/
theorem globalAt_eq {a : Nat} {x : Target} (h : globalAt a = x) (hx : x ≠ .unmapped) : ∃ r : GlobalReg, a = r.offset ∧ x = .global r := by
  unfold globalAt at h
  split at h <;> subst h
  any_goals exact ⟨_, rfl, rfl⟩
  exact absurd rfl hx

/-- A channel register is at its offset. -/
theorem State.target_chan {c : Nat} (hc : c < s.numChannels) (hn : s.numChannels ≤ 16) (r : ChanReg) :
    s.target (0x100 + 0x10 * c + r.offset) = .chan c r := by
  have hr : r.offset < 16 := by cases r <;> decide
  unfold State.target
  rw [if_neg (by omega), if_pos (by omega)]
  have h1 : (0x100 + 0x10 * c + r.offset - 0x100) / 0x10 = c := by omega
  have h2 : (0x100 + 0x10 * c + r.offset - 0x100) % 0x10 = r.offset := by omega
  rw [h1, h2, if_pos hc]
  cases r <;> rfl

/-- A descriptor word is at its address (10_state R49). -/
theorem State.target_desc {i w : Nat} (hi : i < s.sizes.numSignals) (hn : s.sizes.numSignals ≤ 1024) (hw : w < 10) :
    s.target (descAddr i w) = .desc i w := by
  unfold State.target descAddr
  rw [if_neg (by omega), if_neg (by omega), if_neg (by omega), if_pos (by omega)]
  have h1 : (0x10000 + 0x40 * i + 4 * w - 0x10000) / 0x40 = i := by omega
  have h2 : (0x10000 + 0x40 * i + 4 * w - 0x10000) % 0x40 / 4 = w := by omega
  rw [h1, h2, if_pos ⟨hi, hw⟩]

/-- A LUT word is at its address (10_state R52). -/
theorem State.target_lut {j w : Nat} (hj : j < s.sizes.enumDepth) (hn : s.sizes.enumDepth ≤ 4096) (hw : w < 2) :
    s.target (lutAddr j w) = .lut j w := by
  unfold State.target lutAddr
  rw [if_neg (by omega), if_neg (by omega), if_neg (by omega), if_neg (by omega), if_pos (by omega)]
  have h1 : (0x20000 + 8 * j + 4 * w - 0x20000) / 8 = j := by omega
  have h2 : (0x20000 + 8 * j + 4 * w - 0x20000) % 8 / 4 = w := by omega
  rw [h1, h2, if_pos hj]

/-- A payload window word is at its address (20_memory R71). -/
theorem State.target_window {c w : Nat} (hc : c < s.numChannels) (hw : w < 1024) :
    s.target (0x30000 + 0x1000 * c + 4 * w) = .window c w := by
  unfold State.target
  rw [if_neg (by omega), if_neg (by omega), if_neg (by omega), if_neg (by omega), if_neg (by omega)]
  have h1 : (0x30000 + 0x1000 * c + 4 * w - 0x30000) / 0x1000 = c := by omega
  have h2 : (0x30000 + 0x1000 * c + 4 * w - 0x30000) % 0x1000 / 4 = w := by omega
  rw [h1, h2, if_pos hc]

/-- The address of a mapped word, and that its indices exist. -/
def State.Names (a : Nat) : Target → Prop
  | .global r => a = r.offset
  | .chan c r => c < s.numChannels ∧ a = 0x100 + 0x10 * c + r.offset
  | .desc i w => i < s.sizes.numSignals ∧ w < 10 ∧ a = descAddr i w
  | .lut j w => j < s.sizes.enumDepth ∧ w < 2 ∧ a = lutAddr j w
  | .window c w => c < s.numChannels ∧ w < 1024 ∧ a = 0x30000 + 0x1000 * c + 4 * w
  | .unmapped => True

/-- What an aligned address names stands at that address. -/
theorem State.target_names (a : Nat) (h4 : a % 4 = 0) : s.Names a (s.target a) := by
  unfold State.target
  split_ifs with h1 h2 h3 h4' h5 h6 h7 h8 h9
  · cases hx : globalAt a with
    | unmapped => trivial
    | _ =>
      obtain ⟨r, ha, hr⟩ := globalAt_eq hx (by simp)
      simp_all [State.Names]
  · have hlt : (a - 0x100) % 0x10 < 16 := Nat.mod_lt _ (by omega)
    refine ⟨h3, ?_⟩
    have : (a - 0x100) % 0x10 = (chanRegAt ((a - 0x100) % 0x10)).offset := by
      have hm : (a - 0x100) % 0x10 = 0 ∨ (a - 0x100) % 0x10 = 4 ∨ (a - 0x100) % 0x10 = 8 ∨ (a - 0x100) % 0x10 = 12 := by omega
      rcases hm with hm | hm | hm | hm <;> rw [hm] <;> rfl
    omega
  · trivial
  · trivial
  · refine ⟨h6.1, h6.2, ?_⟩
    unfold descAddr
    omega
  · trivial
  · refine ⟨h8, by omega, ?_⟩
    unfold lutAddr
    omega
  · trivial
  · exact ⟨h9, by omega, by omega⟩
  · trivial

/-- The target reads the parameters of the state alone. -/
theorem State.target_congr {s t : State} (h1 : t.numChannels = s.numChannels) (h2 : t.sizes = s.sizes) (a : Nat) :
    t.target a = s.target a := by
  simp only [State.target, h1, h2]

/-! ### Reads -/

/-- Everything a host read can do: it gives a word to the port, and sets BUS_ERR where the access is bad (20_memory R68). -/
theorem State.hostRead_cases (a : BusAddr) :
    (s.rst = true ∧ s.hostRead a = s.setRdata 0) ∨
    (s.rst = false ∧ (a.toNat % 4 ≠ 0 ∨ s.target a.toNat = .unmapped) ∧ s.hostRead a = s.busError.setRdata 0) ∨
    (s.rst = false ∧ a.toNat % 4 = 0 ∧ s.target a.toNat ≠ .unmapped ∧
      s.hostRead a = s.setRdata (s.readTarget (s.target a.toNat))) := by
  unfold State.hostRead aligned
  cases hr : s.rst
  · by_cases ha : a.toNat % 4 = 0
    · by_cases ht : s.target a.toNat = .unmapped <;> simp [ha, ht]
    · simp [ha]
  · simp

/-! ### Writes -/

/-- Everything a host write can do (20_memory R65). -/
theorem State.hostWrite_cases (a : BusAddr) (d : Word) (be : BitVec 4) :
    (s.rst = true ∧ s.hostWrite a d be = s) ∨
    (s.rst = false ∧ s.busy = true ∧ s.hostWrite a d be = s.overrun) ∨
    (s.rst = false ∧ s.busy = false ∧ (be ≠ 0b1111#4 ∨ a.toNat % 4 ≠ 0 ∨ s.target a.toNat = .unmapped) ∧
      s.hostWrite a d be = s.busError) ∨
    (s.rst = false ∧ s.busy = false ∧ be = 0b1111#4 ∧ a.toNat % 4 = 0 ∧ s.target a.toNat ≠ .unmapped ∧
      s.hostWrite a d be = s.writeTarget d (s.target a.toNat)) := by
  unfold State.hostWrite aligned
  cases hr : s.rst
  · cases hb : s.busy
    · by_cases hbe : be = 0b1111#4
      · by_cases ha : a.toNat % 4 = 0
        · by_cases ht : s.target a.toNat = .unmapped <;> simp [hbe, ha, ht]
        · simp [ha]
      · simp [hbe]
    · simp
  · simp

/-- The busy rule (40_command_dispatch R134). -/
theorem State.hostWrite_busy {s : State} {w : Word} (hr : s.rst = false) (hp : s.pending = some w) (a : BusAddr) (d : Word)
    (be : BitVec 4) : s.hostWrite a d be = s.overrun := by
  simp [State.hostWrite, hr, State.busy, hp]

/-- A write that no check turns away (20_memory R65). -/
theorem State.hostWrite_accepted {s : State} {a : BusAddr} {x : Target} (hr : s.rst = false) (hp : s.pending = none)
    (ha : a.toNat % 4 = 0) (hx : s.target a.toNat = x) (hm : x ≠ .unmapped) (d : Word) {be : BitVec 4} (hbe : be = 0b1111#4) :
    s.hostWrite a d be = s.writeTarget d x := by
  simp [State.hostWrite, hr, State.busy, hp, aligned, ha, hx, hm, hbe]

/-- A write that is partial, misaligned or unmapped (20_memory R63, R64, R66). -/
theorem State.hostWrite_bad {s : State} {a : BusAddr} {be : BitVec 4} (hr : s.rst = false) (hp : s.pending = none)
    (h : be ≠ 0b1111#4 ∨ a.toNat % 4 ≠ 0 ∨ s.target a.toNat = .unmapped) (d : Word) : s.hostWrite a d be = s.busError := by
  rcases s.hostWrite_cases a d be with ⟨h1, -⟩ | ⟨-, h1, -⟩ | ⟨-, -, -, h1⟩ | ⟨-, -, h1, h2, h3, -⟩
  · simp [hr] at h1
  · simp [State.busy, hp] at h1
  · exact h1
  · exact absurd h (by simp [h1, h2, h3])

/-- A read of a mapped word (20_memory R65). -/
theorem State.hostRead_mapped {s : State} {a : BusAddr} {x : Target} (hr : s.rst = false) (ha : a.toNat % 4 = 0)
    (hx : s.target a.toNat = x) (hm : x ≠ .unmapped) : s.hostRead a = s.setRdata (s.readTarget x) := by
  simp [State.hostRead, hr, aligned, ha, hx, hm]

/-- A read that is misaligned or unmapped (20_memory R64, R66). -/
theorem State.hostRead_bad {s : State} {a : BusAddr} (hr : s.rst = false) (h : a.toNat % 4 ≠ 0 ∨ s.target a.toNat = .unmapped) :
    s.hostRead a = s.busError.setRdata 0 := by
  rcases s.hostRead_cases a with ⟨h1, -⟩ | ⟨-, -, h1⟩ | ⟨-, h1, h2, -⟩
  · simp [hr] at h1
  · exact h1
  · exact absurd h (by simp [h1, h2])

/-- An accepted write keeps memory's canonical form. -/
theorem State.writeTarget_wf (d : Word) (x : Target) (hm : s.mem.wf) : (s.writeTarget d x).mem.wf := by
  cases x with
  | global r => cases r <;> exact hm
  | chan c r => exact hm
  | desc i w => exact Memory.wf_writeWord hm _ _
  | lut j w => exact Memory.wf_writeWord hm _ _
  | window c w => exact hm
  | unmapped => exact hm

/-- A host write keeps memory's canonical form. -/
theorem State.hostWrite_wf (a : BusAddr) (d : Word) (be : BitVec 4) (hm : s.mem.wf) : (s.hostWrite a d be).mem.wf := by
  rcases s.hostWrite_cases a d be with ⟨-, h⟩ | ⟨-, -, h⟩ | ⟨-, -, -, h⟩ | ⟨-, -, -, -, -, h⟩ <;> rw [h]
  · exact hm
  · exact hm
  · exact hm
  · exact s.writeTarget_wf d _ hm

/-- Channel `c` after a write to CH_EVENT (10_state R29). -/
theorem State.ch_w1cChEvent (d : Word) (c : Nat) (hc : c < s.numChannels) :
    (s.w1cChEvent d).ch c = { s.ch c with event := (s.ch c).event && !d.getLsbD c } := by
  have hc' : c < s.channels.length := hc
  simp [State.w1cChEvent, State.ch, List.getD_eq_getElem?_getD, hc']

/-- The channels after an accepted write: only a filter, a TA or an event bit can change (10_state R42, R43). -/
theorem State.writeTarget_ch (d : Word) (x : Target) (c : Nat) :
    ((s.writeTarget d x).ch c).state = (s.ch c).state ∧ ((s.writeTarget d x).ch c).len = (s.ch c).len ∧
      ((s.writeTarget d x).ch c).total = (s.ch c).total ∧ ((s.writeTarget d x).ch c).nextSeq = (s.ch c).nextSeq ∧
      ((s.writeTarget d x).ch c).err = (s.ch c).err := by
  cases x with
  | global r =>
    cases r
    case chEvent =>
      by_cases hc : c < s.numChannels
      · rw [State.writeTarget, State.writeGlobal, s.ch_w1cChEvent d c hc]
        exact ⟨rfl, rfl, rfl, rfl, rfl⟩
      · have hc1 : s.channels.length ≤ c := not_lt.1 hc
        have h1 : s.ch c = Channel.reset := by simp [State.ch, List.getD_eq_getElem?_getD, hc1]
        have h2 : (s.w1cChEvent d).ch c = Channel.reset := by
          simp [State.w1cChEvent, State.ch, List.getD_eq_getElem?_getD, hc1]
        rw [State.writeTarget, State.writeGlobal, h1, h2]
        exact ⟨rfl, rfl, rfl, rfl, rfl⟩
    all_goals exact ⟨rfl, rfl, rfl, rfl, rfl⟩
  | chan e r =>
    simp only [State.writeTarget, State.ch_setChan]
    split_ifs with h
    · obtain ⟨rfl, -⟩ := h
      cases r <;> exact ⟨rfl, rfl, rfl, rfl, rfl⟩
    · exact ⟨rfl, rfl, rfl, rfl, rfl⟩
  | desc i w => exact ⟨rfl, rfl, rfl, rfl, rfl⟩
  | lut j w => exact ⟨rfl, rfl, rfl, rfl, rfl⟩
  | window e w => exact ⟨rfl, rfl, rfl, rfl, rfl⟩
  | unmapped => exact ⟨rfl, rfl, rfl, rfl, rfl⟩

/-- What no accepted write changes. -/
theorem State.writeTarget_fields (d : Word) (x : Target) :
    (s.writeTarget d x).sizes = s.sizes ∧ (s.writeTarget d x).numChannels = s.numChannels ∧
      (s.writeTarget d x).result = s.result ∧ (s.writeTarget d x).rst = s.rst ∧ (s.writeTarget d x).rdata = s.rdata ∧
      (s.writeTarget d x).schedule = s.schedule ∧ (s.writeTarget d x).freeCount = s.freeCount := by
  cases x with
  | global r => cases r <;> simp [State.writeTarget, State.writeGlobal, State.numChannels, State.w1cChEvent]
  | chan c r => simp [State.writeTarget]
  | desc i w => simp [State.writeTarget, State.numChannels]
  | lut j w => simp [State.writeTarget, State.numChannels]
  | window c w => simp [State.writeTarget]
  | unmapped => simp [State.writeTarget]

/-- An accepted write to a RAM word writes its four bytes; every other accepted write leaves memory alone. -/
theorem State.writeTarget_read? (d : Word) (x : Target) (a : Nat) (h : (s.writeTarget d x).mem.read? a ≠ s.mem.read? a) :
    (∃ i w, x = .desc i w ∧ descAddr i w ≤ a ∧ a < descAddr i w + 4) ∨
      ∃ j w, x = .lut j w ∧ lutAddr j w ≤ a ∧ a < lutAddr j w + 4 := by
  cases x with
  | global r => cases r <;> exact absurd rfl h
  | chan c r => exact absurd rfl h
  | desc i w =>
    simp only [State.writeTarget, State.setMem_mem, Memory.writeWord, Memory.read?_writeBytes, unpackWord, List.length_cons,
      List.length_nil] at h
    split_ifs at h with hc
    · exact .inl ⟨i, w, rfl, by omega, by omega⟩
    · exact absurd rfl h
  | lut j w =>
    simp only [State.writeTarget, State.setMem_mem, Memory.writeWord, Memory.read?_writeBytes, unpackWord, List.length_cons,
      List.length_nil] at h
    split_ifs at h with hc
    · exact .inr ⟨j, w, rfl, by omega, by omega⟩
    · exact absurd rfl h
  | window c w => exact absurd rfl h
  | unmapped => exact absurd rfl h

/-- A stored byte stays stored through an accepted write. -/
theorem State.writeTarget_isSome (d : Word) (x : Target) (a : Nat) (h : (s.mem.read? a).isSome = true) :
    ((s.writeTarget d x).mem.read? a).isSome = true := by
  cases x with
  | global r => cases r <;> exact h
  | chan c r => exact h
  | desc i w => exact Memory.isSome_writeBytes _ _ _ _ h
  | lut j w => exact Memory.isSome_writeBytes _ _ _ _ h
  | window c w => exact h
  | unmapped => exact h

end Sys2Proof.Machine
end

