-- ==== Sys2Proof/Laws/Decode.lean ====
section
/-! SUPPORT. The decoder and the encoder: the fields of a command word (30_encoding R83), and the decoder's cases. -/

namespace Sys2Proof

/-- The fields of a command word are the ones it was made of, and its reserved fields are 0 (30_encoding R83). -/
theorem cmdWord_fields (op : BitVec 8) (ch : BitVec 4) (idx : BitVec 10) :
    (cmdWord op ch idx).extractLsb' 0 8 = op ∧ (cmdWord op ch idx).extractLsb' 8 4 = ch ∧
      (cmdWord op ch idx).extractLsb' 12 4 = 0#4 ∧ (cmdWord op ch idx).extractLsb' 16 10 = idx ∧
      (cmdWord op ch idx).extractLsb' 26 6 = 0#6 := by
  unfold cmdWord
  refine ⟨?_, ?_, ?_, ?_, ?_⟩ <;> apply BitVec.eq_of_getLsbD_eq <;> intro j hj <;>
    simp only [BitVec.getLsbD_extractLsb', BitVec.getLsbD_append, BitVec.getLsbD_zero] <;>
    split_ifs <;> simp_all <;> first | omega | (congr 1; omega)

/-- The header byte of a PCI row of four low bits (30_encoding R89). -/
theorem pciByte_fields (a b : BitVec 4) : (a ++ b).extractLsb' 4 4 = a ∧ (a ++ b).extractLsb' 0 4 = b := by
  revert a b; decide

/-- The decoder's cases: the two refusals, in the order of 40_command_dispatch R137, and the seven opcodes of 30_encoding R84. -/
theorem decodeCmd_cases (w : Word) :
    ((w.extractLsb' 12 4 ≠ 0#4 ∨ w.extractLsb' 26 6 ≠ 0#6) ∧ decodeCmd w = .error .reservedBits) ∨
    (w.extractLsb' 12 4 = 0#4 ∧ w.extractLsb' 26 6 = 0#6 ∧ 7 ≤ (w.extractLsb' 0 8).toNat ∧ decodeCmd w = .error .illegalOp) ∨
    (w.extractLsb' 12 4 = 0#4 ∧ w.extractLsb' 26 6 = 0#6 ∧
      ((w.extractLsb' 0 8 = 0x00#8 ∧ decodeCmd w = .ok (.nop (w.extractLsb' 8 4) (w.extractLsb' 16 10))) ∨
       (w.extractLsb' 0 8 = 0x01#8 ∧ decodeCmd w = .ok (.pushFrame (w.extractLsb' 8 4) (w.extractLsb' 16 10))) ∨
       (w.extractLsb' 0 8 = 0x02#8 ∧ decodeCmd w = .ok (.endCapture (w.extractLsb' 8 4) (w.extractLsb' 16 10))) ∨
       (w.extractLsb' 0 8 = 0x03#8 ∧ decodeCmd w = .ok (.chReset (w.extractLsb' 8 4) (w.extractLsb' 16 10))) ∨
       (w.extractLsb' 0 8 = 0x04#8 ∧ decodeCmd w = .ok (.resetChannels (w.extractLsb' 8 4) (w.extractLsb' 16 10))) ∨
       (w.extractLsb' 0 8 = 0x05#8 ∧ decodeCmd w = .ok (.decode (w.extractLsb' 8 4) (w.extractLsb' 16 10))) ∨
       (w.extractLsb' 0 8 = 0x06#8 ∧ decodeCmd w = .ok (.extract (w.extractLsb' 8 4) (w.extractLsb' 16 10))))) := by
  by_cases h : w.extractLsb' 12 4 ≠ 0#4 ∨ w.extractLsb' 26 6 ≠ 0#6
  · exact .inl ⟨h, by rw [decodeCmd, if_pos h]⟩
  obtain ⟨h1, h2⟩ := not_or.1 h
  have h1 := not_not.1 h1
  have h2 := not_not.1 h2
  right
  have key : ∀ k : Nat, k < 256 → (w.extractLsb' 0 8).toNat = k → w.extractLsb' 0 8 = BitVec.ofNat 8 k := by
    intro k hk h
    apply BitVec.eq_of_toNat_eq
    rw [h, BitVec.toNat_ofNat, Nat.mod_eq_of_lt hk]
  simp only [decodeCmd, if_neg h]
  generalize hop : (w.extractLsb' 0 8).toNat = op
  match op, hop with
  | 0, hop => exact .inr ⟨h1, h2, .inl ⟨key 0 (by omega) hop, rfl⟩⟩
  | 1, hop => exact .inr ⟨h1, h2, .inr (.inl ⟨key 1 (by omega) hop, rfl⟩)⟩
  | 2, hop => exact .inr ⟨h1, h2, .inr (.inr (.inl ⟨key 2 (by omega) hop, rfl⟩))⟩
  | 3, hop => exact .inr ⟨h1, h2, .inr (.inr (.inr (.inl ⟨key 3 (by omega) hop, rfl⟩)))⟩
  | 4, hop => exact .inr ⟨h1, h2, .inr (.inr (.inr (.inr (.inl ⟨key 4 (by omega) hop, rfl⟩))))⟩
  | 5, hop => exact .inr ⟨h1, h2, .inr (.inr (.inr (.inr (.inr (.inl ⟨key 5 (by omega) hop, rfl⟩)))))⟩
  | 6, hop => exact .inr ⟨h1, h2, .inr (.inr (.inr (.inr (.inr (.inr ⟨key 6 (by omega) hop, rfl⟩)))))⟩
  | n + 7, hop => exact .inl ⟨h1, h2, by omega, rfl⟩

/-- The cases of a frame header (30_encoding R90). -/
theorem decodePci_cases (d0 d1 : Byte) :
    ((d0.extractLsb' 4 4).toNat = 0 ∧ decodePci d0 d1 = .sf (d0.extractLsb' 0 4)) ∨
    ((d0.extractLsb' 4 4).toNat = 1 ∧ decodePci d0 d1 = .ff (d0.extractLsb' 0 4 ++ d1)) ∨
    ((d0.extractLsb' 4 4).toNat = 2 ∧ decodePci d0 d1 = .cf (d0.extractLsb' 0 4)) ∨
    ((d0.extractLsb' 4 4).toNat = 3 ∧ decodePci d0 d1 = .pciRsv3 (d0.extractLsb' 0 4)) ∨
    ((4 ≤ (d0.extractLsb' 4 4).toNat ∧ (d0.extractLsb' 4 4).toNat ≤ 7) ∧ decodePci d0 d1 = .pciRsv47 (d0.extractLsb' 0 6)) ∨
    (8 ≤ (d0.extractLsb' 4 4).toNat ∧ decodePci d0 d1 = .pciRsv8F (d0.extractLsb' 0 7)) := by
  unfold decodePci
  generalize (d0.extractLsb' 4 4).toNat = k
  match k with
  | 0 | 1 | 2 | 3 | 4 | 5 | 6 | 7 => simp
  | n + 8 => simp

end Sys2Proof
end

