-- ==== Sys2Proof/Laws/Float64.lean ====
section
/-! SUPPORT. The laws of binary64: the fields of a pattern, the rounding of a quotient, how many bits rounding drops, and the cut
quotient. -/

namespace Sys2Proof.Machine.F64

/-! ### Fields -/

/-- The exponent field is the part of the pattern above bit 52, without the sign. -/
theorem expo_eq (x : F64) : expo x = x.toNat / 2 ^ 52 % 2 ^ 11 := by
  simp [expo, BitVec.extractLsb'_toNat, Nat.shiftRight_eq_div_pow]

/-- The fraction field is the low 52 bits. -/
theorem frac_eq (x : F64) : frac x = x.toNat % 2 ^ 52 := by
  simp [frac, BitVec.extractLsb'_toNat]

theorem frac_lt (x : F64) : frac x < 2 ^ 52 := by rw [frac_eq]; exact Nat.mod_lt _ (by norm_num)

theorem expo_lt (x : F64) : expo x < 2048 := by rw [expo_eq]; exact Nat.mod_lt _ (by norm_num)

/-- A pattern from a sign and 63 bits. -/
theorem withSign_toNat (n : Bool) (m : Nat) (h : m < 2 ^ 63) : (withSign n m).toNat = n.toNat * 2 ^ 63 + m := by
  simp only [withSign, BitVec.toNat_append]
  rw [← Nat.shiftLeft_add_eq_or_of_lt (BitVec.isLt _), Nat.shiftLeft_eq, BitVec.toNat_ofNat, Nat.mod_eq_of_lt h]
  cases n <;> rfl

theorem expo_withSign (n : Bool) (m : Nat) (h : m < 2 ^ 63) : expo (withSign n m) = m / 2 ^ 52 := by
  rw [expo_eq, withSign_toNat n m h]
  have : n.toNat ≤ 1 := Bool.toNat_le n
  omega

theorem frac_withSign (n : Bool) (m : Nat) (h : m < 2 ^ 63) : frac (withSign n m) = m % 2 ^ 52 := by
  rw [frac_eq, withSign_toNat n m h]
  have : n.toNat ≤ 1 := Bool.toNat_le n
  omega

theorem neg_withSign (n : Bool) (m : Nat) (h : m < 2 ^ 63) : neg (withSign n m) = n := by
  rw [neg, BitVec.getLsbD, withSign_toNat n m h, Nat.testBit_eq_decide_div_mod_eq]
  cases n <;> simp <;> omega

/-- The magnitude of a pattern below infinity's: the exponent step `e` and the significand `q` that rounding puts together, also where
the significand carries into the exponent. -/
theorem mag_withSign (n : Bool) (e q : Nat) (hlo : e = 0 ∨ 2 ^ 52 ≤ q) (hhi : q ≤ 2 ^ 53) (hp : e * 2 ^ 52 + q < 2047 * 2 ^ 52) :
    mag (withSign n (e * 2 ^ 52 + q)) = q * 2 ^ e := by
  have h63 : e * 2 ^ 52 + q < 2 ^ 63 := by omega
  unfold mag
  rw [expo_withSign n _ h63, frac_withSign n _ h63]
  by_cases h0 : q < 2 ^ 52
  · have he : e = 0 := by omega
    subst he
    rw [if_pos (by omega)]
    simp only [Nat.zero_mul, Nat.zero_add, pow_zero, Nat.mul_one]
    exact Nat.mod_eq_of_lt h0
  · by_cases h1 : q < 2 ^ 53
    · rw [show (e * 2 ^ 52 + q) / 2 ^ 52 = e + 1 by omega, if_neg (by omega),
        show (e * 2 ^ 52 + q) % 2 ^ 52 = q - 2 ^ 52 by omega, Nat.add_sub_cancel, show 2 ^ 52 + (q - 2 ^ 52) = q by omega]
    · have hq : q = 2 ^ 53 := by omega
      subst hq
      rw [show (e * 2 ^ 52 + 2 ^ 53) / 2 ^ 52 = e + 2 by omega, if_neg (by omega),
        show (e * 2 ^ 52 + 2 ^ 53) % 2 ^ 52 = 0 by omega, show e + 2 - 1 = e + 1 by omega, pow_succ 2 e]
      ring

/-! ### Rounding a quotient -/

/-- The distance of two natural numbers. -/
def dist (x y : Nat) : Nat := (x - y) + (y - x)

/-- A rounded quotient is the floor or the one above. -/
theorem roundQuot_cases (u sh : Nat) : roundQuot u sh = u / 2 ^ sh ∨ roundQuot u sh = u / 2 ^ sh + 1 := by
  unfold roundQuot
  simp only
  split_ifs
  · exact .inr rfl
  · exact .inl rfl

/-- No multiple of `2 ^ sh` is nearer to `u` than the rounded quotient's, and of two nearest ones the rounded one is even. -/
theorem roundQuot_nearest (u sh k : Nat) :
    dist (roundQuot u sh * 2 ^ sh) u ≤ dist (k * 2 ^ sh) u ∧
      (dist (roundQuot u sh * 2 ^ sh) u = dist (k * 2 ^ sh) u → k = roundQuot u sh ∨ roundQuot u sh % 2 = 0) := by
  have hpos : 0 < 2 ^ sh := Nat.two_pow_pos sh
  have hu : 2 ^ sh * (u / 2 ^ sh) + u % 2 ^ sh = u := Nat.div_add_mod u (2 ^ sh)
  have hr : u % 2 ^ sh < 2 ^ sh := Nat.mod_lt _ hpos
  unfold roundQuot dist
  simp only
  generalize u / 2 ^ sh = q at *
  generalize u % 2 ^ sh = r at *
  generalize 2 ^ sh = p at *
  subst hu
  have e1 : (q + 1) * p = p * q + p := by ring
  have e2 : q * p = p * q := by ring
  -- a multiple below or above
  have hk : k * p ≤ p * q ∧ (k = q ∨ k * p + p ≤ p * q) ∨ p * q + p ≤ k * p ∧ (k = q + 1 ∨ p * q + p + p ≤ k * p) := by
    rcases Nat.lt_trichotomy k q with h | h | h
    · left
      have : (k + 1) * p ≤ q * p := Nat.mul_le_mul_right p h
      rw [Nat.add_mul, Nat.one_mul] at this
      exact ⟨by omega, .inr (by omega)⟩
    · left; subst h; exact ⟨by omega, .inl rfl⟩
    · right
      have h1 : (q + 1) * p ≤ k * p := Nat.mul_le_mul_right p h
      refine ⟨by omega, ?_⟩
      rcases Nat.lt_or_ge (q + 1) k with h2 | h2
      · have : (q + 1 + 1) * p ≤ k * p := Nat.mul_le_mul_right p h2
        rw [Nat.add_mul (q + 1), Nat.one_mul] at this
        exact .inr (by omega)
      · exact .inl (by omega)
  split_ifs with hc
  · rw [e1]
    rcases hk with ⟨h1, h2⟩ | ⟨h1, h2⟩ <;> omega
  · rw [e2]
    rcases hk with ⟨h1, h2⟩ | ⟨h1, h2⟩ <;> omega

/-! ### How many bits rounding drops -/

/-- Below the normal range the spacing is the subnormals'; above it, 53 significant bits are kept. -/
theorem dropBits_cases (u : Nat) :
    u < 2 ^ (53 + dropBits u) ∧ (dropBits u = 1074 ∨ (1074 < dropBits u ∧ 2 ^ (52 + dropBits u) ≤ u)) := by
  unfold dropBits
  have hlt : u < 2 ^ (u.log2 + 1) := Nat.lt_log2_self
  refine ⟨lt_of_lt_of_le hlt (Nat.pow_le_pow_right (by omega) (by omega)), ?_⟩
  by_cases h : 1074 + 52 < u.log2
  · right
    have hd : max (u.log2 - 52) 1074 = u.log2 - 52 := by omega
    have hu : u ≠ 0 := by rintro rfl; simp at h
    rw [hd]
    refine ⟨by omega, ?_⟩
    rw [show 52 + (u.log2 - 52) = u.log2 by omega]
    exact Nat.log2_self_le hu
  · left
    omega

/-- The rounded significand has at most 53 bits, or is the next power of two; above the subnormals it has at least 53. -/
theorem roundQuot_range (u : Nat) :
    (dropBits u = 1074 ∨ 2 ^ 52 ≤ roundQuot u (dropBits u)) ∧ roundQuot u (dropBits u) ≤ 2 ^ 53 := by
  have hfloor : u / 2 ^ dropBits u < 2 ^ 53 := by
    rw [Nat.div_lt_iff_lt_mul (Nat.two_pow_pos _), ← pow_add]
    exact (dropBits_cases u).1
  refine ⟨?_, ?_⟩
  · rcases (dropBits_cases u).2 with h1 | ⟨-, h2⟩
    · exact .inl h1
    · right
      have : 2 ^ 52 ≤ u / 2 ^ dropBits u := by
        rw [Nat.le_div_iff_mul_le (Nat.two_pow_pos _), ← pow_add]; exact h2
      rcases roundQuot_cases u (dropBits u) with h | h <;> omega
  · rcases roundQuot_cases u (dropBits u) with h | h <;> omega

/-! ### The quotient that is not whole (30_encoding R109) -/

/-- The cut quotient: either the quotient is whole, or the cut one is odd and the exact one lies strictly between its neighbours. -/
theorem stickyQuot_cases (a b : Nat) (hb : 0 < b) :
    a = stickyQuot a b * b ∨
      (stickyQuot a b % 2 = 1 ∧ (stickyQuot a b - 1) * b < a ∧ a < (stickyQuot a b + 1) * b) := by
  have hd := Nat.div_add_mod a b
  have hr := Nat.mod_lt a hb
  unfold stickyQuot
  split_ifs with h
  · rw [h, Nat.add_zero, Nat.mul_comm] at hd
    exact .inl hd.symm
  · right
    generalize a / b = f at hd ⊢
    have h1 : (2 * (f / 2) + 1 - 1) * b ≤ f * b := Nat.mul_le_mul_right b (by omega)
    have h2 : (f + 1) * b ≤ (2 * (f / 2) + 1 + 1) * b := Nat.mul_le_mul_right b (by omega)
    have h3 : (f + 1) * b = b * f + b := by ring
    have h4 : f * b = b * f := Nat.mul_comm f b
    exact ⟨by omega, by omega, by omega⟩

/-- An even bound holds of the cut quotient exactly where it holds of the exact one. -/
theorem le_stickyQuot (a b T : Nat) (hb : 0 < b) (hT : T % 2 = 0) : T ≤ stickyQuot a b ↔ T * b ≤ a := by
  rcases stickyQuot_cases a b hb with h | ⟨ho, hl, hu⟩
  · conv_rhs => rw [h]
    exact (Nat.mul_le_mul_right_iff hb).symm
  · constructor
    · intro h
      exact le_trans (Nat.mul_le_mul_right b (by omega)) hl.le
    · intro h
      have : T < stickyQuot a b + 1 := lt_of_mul_lt_mul_right (lt_of_le_of_lt h hu) (Nat.zero_le b)
      omega

/-- What is nearest to the cut quotient among the multiples of 4 is nearest to the exact one, and a tie is one of whole quotients. -/
theorem dist_stickyQuot (a b p q : Nat) (hb : 0 < b) (hp : p % 4 = 0) (hq : q % 4 = 0)
    (h : dist p (stickyQuot a b) ≤ dist q (stickyQuot a b)) :
    dist (p * b) a ≤ dist (q * b) a ∧
      (dist (p * b) a = dist (q * b) a → p = q ∨ dist p (stickyQuot a b) = dist q (stickyQuot a b)) := by
  rcases stickyQuot_cases a b hb with he | ⟨ho, hl, hu⟩
  · generalize stickyQuot a b = u at h he ⊢
    have hm : ∀ x, dist (x * b) a = dist x u * b := fun x => by
      rw [he]
      unfold dist
      rw [Nat.add_mul, Nat.sub_mul, Nat.sub_mul]
    rw [hm, hm]
    exact ⟨Nat.mul_le_mul_right b h, fun h' => .inr (Nat.eq_of_mul_eq_mul_right hb h')⟩
  · generalize stickyQuot a b = u at h ho hl hu ⊢
    obtain ⟨v, rfl⟩ : ∃ v, u = v + 1 := ⟨u - 1, by omega⟩
    rw [Nat.add_sub_cancel] at hl
    unfold dist at h ⊢
    have e : (v + 1 + 1) * b = v * b + 2 * b := by ring
    rw [e] at hu
    rcases Nat.lt_trichotomy p q with hlt | rfl | hlt
    · have h1 : (2 * v + 4) * b ≤ (p + q) * b := Nat.mul_le_mul_right b (by omega)
      have h2 : p * b + b ≤ q * b := by
        have := Nat.mul_le_mul_right b (show p + 1 ≤ q by omega)
        rwa [Nat.add_mul, Nat.one_mul] at this
      have e1 : (2 * v + 4) * b = 2 * (v * b) + 4 * b := by ring
      rw [e1, Nat.add_mul] at h1
      omega
    · exact ⟨le_refl _, fun _ => .inl rfl⟩
    · have h1 : (p + q) * b ≤ (2 * v) * b := Nat.mul_le_mul_right b (by omega)
      have h2 : q * b + b ≤ p * b := by
        have := Nat.mul_le_mul_right b (show q + 1 ≤ p by omega)
        rwa [Nat.add_mul, Nat.one_mul] at this
      have e1 : (2 * v) * b = 2 * (v * b) := by ring
      rw [e1, Nat.add_mul] at h1
      omega

/-- The sign bit of a pattern. -/
theorem neg_eq (x : F64) : neg x = decide (2 ^ 63 ≤ x.toNat) := by
  rw [neg, BitVec.getLsbD, Nat.testBit_eq_decide_div_mod_eq, decide_eq_decide]
  have := x.isLt
  omega

end Sys2Proof.Machine.F64
end

