-- ==== Sys2Proof/Laws/PerInstr.lean ====
section
/-! SUPPORT. One lemma for each instruction: its encoding is of its own row of spec/opcode_table.json. -/

namespace Sys2Proof.Laws.OpcodeRow

/-- The mask and the match of an instruction's row, as spec/opcode_table.json gives them. -/
def row : Instr → Nat × Nat
  | .nop _ _ => (0xFC00F0FF, 0x00000000)
  | .pushFrame _ _ => (0xFC00F0FF, 0x00000001)
  | .endCapture _ _ => (0xFC00F0FF, 0x00000002)
  | .chReset _ _ => (0xFC00F0FF, 0x00000003)
  | .resetChannels _ _ => (0xFC00F0FF, 0x00000004)
  | .decode _ _ => (0xFC00F0FF, 0x00000005)
  | .extract _ _ => (0xFC00F0FF, 0x00000006)
  | .sf _ => (0xF0, 0x00)
  | .ff _ => (0xF0, 0x10)
  | .cf _ => (0xF0, 0x20)
  | .pciRsv3 _ => (0xF0, 0x30)
  | .pciRsv47 _ => (0xC0, 0x40)
  | .pciRsv8F _ => (0x80, 0x80)

/-- The bits of a code that the table numbers: all of a command word, and the first byte of a header. -/
def bits : Code → Nat
  | .cmd w => w.toNat
  | .header d0 _ => d0.toNat

/-- The instruction's encoding, under its row's mask, is the row's match. -/
def Statement (i : Instr) : Prop := bits (encode i) &&& (row i).1 = (row i).2

/-- A command word under the table's mask is its opcode (30_encoding R83). -/
theorem cmdWord_masked (op : BitVec 8) (ch : BitVec 4) (idx : BitVec 10) : cmdWord op ch idx &&& 0xFC00F0FF#32 = op.setWidth 32 := by
  apply BitVec.eq_of_getLsbD_eq
  intro j hj
  simp only [BitVec.getLsbD_and, cmdWord, BitVec.getLsbD_append, BitVec.getLsbD_setWidth, hj, decide_true, Bool.true_and,
    BitVec.getLsbD_zero]
  interval_cases j <;> simp

theorem cmd_masked (op : BitVec 8) (ch : BitVec 4) (idx : BitVec 10) : (cmdWord op ch idx).toNat &&& 0xFC00F0FF = op.toNat := by
  have h := congrArg BitVec.toNat (cmdWord_masked op ch idx)
  have hop := op.isLt
  simpa [BitVec.toNat_and, BitVec.toNat_setWidth, Nat.mod_eq_of_lt (show op.toNat < 4294967296 by omega)] using h

theorem nop (ch : BitVec 4) (idx : BitVec 10) : Statement (.nop ch idx) := cmd_masked 0x00 ch idx
theorem pushFrame (ch : BitVec 4) (idx : BitVec 10) : Statement (.pushFrame ch idx) := cmd_masked 0x01 ch idx
theorem endCapture (ch : BitVec 4) (idx : BitVec 10) : Statement (.endCapture ch idx) := cmd_masked 0x02 ch idx
theorem chReset (ch : BitVec 4) (idx : BitVec 10) : Statement (.chReset ch idx) := cmd_masked 0x03 ch idx
theorem resetChannels (ch : BitVec 4) (idx : BitVec 10) : Statement (.resetChannels ch idx) := cmd_masked 0x04 ch idx
theorem decode (ch : BitVec 4) (idx : BitVec 10) : Statement (.decode ch idx) := cmd_masked 0x05 ch idx
theorem extract (ch : BitVec 4) (idx : BitVec 10) : Statement (.extract ch idx) := cmd_masked 0x06 ch idx
theorem sf (dl : BitVec 4) : Statement (.sf dl) := by
  revert dl; unfold Statement; decide

/-- An FF's first byte is the same whatever its low eight length bits. -/
theorem ff (dl : BitVec 12) : Statement (.ff dl) := by
  have h : ∀ x : BitVec 4, (0x1#4 ++ x).toNat &&& 0xF0 = 0x10 := by decide
  exact h _
theorem cf (sn : BitVec 4) : Statement (.cf sn) := by
  revert sn; unfold Statement; decide
theorem pciRsv3 (low : BitVec 4) : Statement (.pciRsv3 low) := by
  revert low; unfold Statement; decide
theorem pciRsv47 (low : BitVec 6) : Statement (.pciRsv47 low) := by
  revert low; unfold Statement; decide
theorem pciRsv8F (low : BitVec 7) : Statement (.pciRsv8F low) := by
  revert low; unfold Statement; decide

end Sys2Proof.Laws.OpcodeRow
end

