-- ==== Sys2Proof/Laws/Reassembly.lean ====
section
/-! SUPPORT. What a pushed frame can do, said once: the pre-checks, the route, the cases of a frame's class, the cases of an accepted
frame, and what each of them leaves alone. -/

namespace Sys2Proof.Machine

variable (s : State)

/-! ### Pre-checks and route -/

/-- No pre-check fails (41_frame_ingress R152). -/
theorem State.precheck_none_iff :
    s.precheck = .none ↔ s.fin.len.toNat ≤ 8 ∧ ¬ (s.cfg.idw = false ∧ s.fin.id.toNat > 0x7FF) ∧
      ¬ (s.cfg.ext = true ∧ s.fin.len.toNat = 0) := by
  unfold State.precheck
  cases s.cfg.idw <;> cases s.cfg.ext <;> simp <;> split_ifs <;> simp_all

theorem State.precheck_lenGt8_iff : s.precheck = .lenGt8 ↔ 8 < s.fin.len.toNat := by
  unfold State.precheck
  cases s.cfg.idw <;> cases s.cfg.ext <;> simp <;> split_ifs <;> simp_all

theorem State.precheck_idRange_iff :
    s.precheck = .idRange ↔ s.fin.len.toNat ≤ 8 ∧ s.cfg.idw = false ∧ s.fin.id.toNat > 0x7FF := by
  unfold State.precheck
  cases s.cfg.idw <;> cases s.cfg.ext <;> simp <;> split_ifs <;> simp_all

theorem State.precheck_noTa_iff :
    s.precheck = .noTa ↔ s.fin.len.toNat ≤ 8 ∧ ¬ (s.cfg.idw = false ∧ s.fin.id.toNat > 0x7FF) ∧
      s.cfg.ext = true ∧ s.fin.len.toNat = 0 := by
  unfold State.precheck
  cases s.cfg.idw <;> cases s.cfg.ext <;> simp <;> split_ifs <;> simp_all

/-- A channel of the list, by its number. -/
theorem State.channels_getElem (c : Nat) (h : c < s.channels.length) : s.channels[c] = s.ch c := by
  simp [State.ch, List.getD_eq_getElem?_getD, h]

/-- The route is the first channel that accepts the frame (41_frame_ingress R155). -/
theorem State.route_some {c : Nat} (h : s.route = some c) :
    c < s.numChannels ∧ s.accepts (s.ch c) = true ∧ ∀ d, d < c → s.accepts (s.ch d) = false := by
  obtain ⟨hc, ha, hd⟩ := List.findIdx?_eq_some_iff_getElem.1 h
  refine ⟨hc, by rw [← s.channels_getElem c hc]; exact ha, fun d hdc => ?_⟩
  have hd' : d < s.channels.length := lt_trans hdc hc
  have := hd d hdc
  rw [s.channels_getElem d hd'] at this
  simpa using this

/-- Where some channel accepts the frame and no lower one does, that channel is the route. -/
theorem State.route_of {c : Nat} (hc : c < s.numChannels) (ha : s.accepts (s.ch c) = true)
    (hd : ∀ d, d < c → s.accepts (s.ch d) = false) : s.route = some c := by
  refine List.findIdx?_eq_some_iff_getElem.2 ⟨hc, by rw [s.channels_getElem c hc]; exact ha, fun d hdc => ?_⟩
  rw [s.channels_getElem d (lt_trans hdc hc), hd d hdc]
  simp

/-- No route: no channel accepts the frame. -/
theorem State.route_none : s.route = none ↔ ∀ c, c < s.numChannels → s.accepts (s.ch c) = false := by
  simp only [State.route, List.findIdx?_eq_none_iff]
  constructor
  · intro h c hc
    have := h (s.channels[c]'hc) (List.getElem_mem hc)
    rwa [s.channels_getElem c hc] at this
  · intro h x hx
    obtain ⟨i, hi, rfl⟩ := List.getElem_of_mem hx
    rw [s.channels_getElem i hi]
    exact h i hi

/-- The filter's three conditions (41_frame_ingress R155). -/
theorem State.accepts_iff (x : Channel) :
    s.accepts x = true ↔ x.filterEn = true ∧ x.filterId = s.fin.id ∧ (s.cfg.ext = false ∨ x.ta = s.fin.byte 0) := by
  simp [State.accepts, and_assoc]

/-! ### The three ends of a pushed frame (41_frame_ingress R150) -/

theorem State.pushClass_reject (v : FrameClass) (h : s.precheck ≠ .none) : s.pushClass v = s.reject s.precheck := by
  unfold State.pushClass
  cases hp : s.precheck <;> simp_all

theorem State.pushClass_drop (v : FrameClass) (h : s.precheck = .none) (hr : s.route = none) : s.pushClass v = s.dropFrame := by
  simp [State.pushClass, h, hr]

theorem State.pushClass_accept (v : FrameClass) {c : Nat} (h : s.precheck = .none) (hr : s.route = some c) :
    s.pushClass v = s.acceptFrame c v := by
  simp [State.pushClass, h, hr]

/-- A pushed frame is rejected, dropped, or accepted by a channel that exists. -/
theorem State.pushClass_cases (v : FrameClass) :
    (s.precheck ≠ .none ∧ s.pushClass v = s.reject s.precheck) ∨
    (s.precheck = .none ∧ s.route = none ∧ s.pushClass v = s.dropFrame) ∨
    (∃ c, s.precheck = .none ∧ s.route = some c ∧ c < s.numChannels ∧ s.pushClass v = s.acceptFrame c v) := by
  by_cases h : s.precheck = .none
  · right
    cases hr : s.route with
    | none => exact .inl ⟨h, rfl, s.pushClass_drop v h hr⟩
    | some c => exact .inr ⟨c, h, rfl, (s.route_some hr).1, s.pushClass_accept v h hr⟩
  · exact .inl ⟨h, s.pushClass_reject v h⟩

/-! ### The classes of frames (42_reassembly R176) -/

/-- The classes with their bounds: what a single frame and a first frame guarantee (42_reassembly R176). -/
theorem classifySf_eq_sf {dl : BitVec 4} {n x : Nat} (h : classifySf dl n = .sf x) : x = dl.toNat ∧ 1 ≤ x ∧ x ≤ n - 1 := by
  unfold classifySf at h
  split_ifs at h
  simp only [FrameClass.sf.injEq] at h
  omega

theorem classifyFf_eq_ff {dl : BitVec 12} {n k cap l : Nat} (h : classifyFf dl n k cap = .ff l) :
    l = dl.toNat ∧ 2 ≤ n ∧ 7 - k < l ∧ l ≤ cap := by
  unfold classifyFf at h
  split_ifs at h
  simp only [FrameClass.ff.injEq] at h
  omega

theorem classifyCf_eq_cf {sn x : BitVec 4} {n : Nat} (h : classifyCf sn n = .cf x) : x = sn ∧ 1 ≤ n := by
  unfold classifyCf at h
  split_ifs at h
  simp only [FrameClass.cf.injEq] at h
  exact ⟨h.symm, by omega⟩

/-- What the class of the pushed frame guarantees of its operands (42_reassembly R176). -/
structure State.ClassSound (v : FrameClass) : Prop where
  sf : ∀ x, v = .sf x → 1 ≤ x ∧ x ≤ s.n - 1
  ff : ∀ l, v = .ff l → l < 4096 ∧ 2 ≤ s.n ∧ 7 - s.k < l ∧ l ≤ s.sizes.payloadCap
  cf : ∀ sn, v = .cf sn → 1 ≤ s.n
  mal : ∀ e, v = .mal e → e ≠ .none

theorem State.classSf_sound (dl : BitVec 4) : s.ClassSound (classifySf dl s.n) where
  sf x h := (classifySf_eq_sf h).2
  ff l h := by unfold classifySf at h; split_ifs at h
  cf sn h := by unfold classifySf at h; split_ifs at h
  mal e h := by unfold classifySf at h; split_ifs at h <;> simp at h <;> simp [← h]

theorem State.classFf_sound (dl : BitVec 12) : s.ClassSound (classifyFf dl s.n s.k s.sizes.payloadCap) where
  sf x h := by unfold classifyFf at h; split_ifs at h
  ff l h := by have := classifyFf_eq_ff h; have := dl.isLt; omega
  cf sn h := by unfold classifyFf at h; split_ifs at h
  mal e h := by unfold classifyFf at h; split_ifs at h <;> simp at h <;> simp [← h]

theorem State.classCf_sound (sn : BitVec 4) : s.ClassSound (classifyCf sn s.n) where
  sf x h := by unfold classifyCf at h; split_ifs at h
  ff l h := by unfold classifyCf at h; split_ifs at h
  cf sn h := (classifyCf_eq_cf h).2
  mal e h := by unfold classifyCf at h; split_ifs at h; simp at h; simp [← h]

theorem State.classReserved_sound : s.ClassSound (classifyReserved s.n) where
  sf x h := by unfold classifyReserved at h; split_ifs at h
  ff l h := by unfold classifyReserved at h; split_ifs at h
  cf sn h := by unfold classifyReserved at h; split_ifs at h
  mal e h := by unfold classifyReserved at h; split_ifs at h <;> simp at h <;> simp [← h]

/-- The class of the pushed frame is one of the four rows' classes, and sound. -/
theorem State.classify_sound : s.ClassSound (classify (s.d 0) (s.d 1) s.n s.k s.sizes.payloadCap) := by
  unfold classify
  split
  · exact s.classSf_sound _
  · exact s.classFf_sound _
  · exact s.classCf_sound _
  · exact s.classReserved_sound

/-! ### An accepted frame (42_reassembly R171) -/

/-- Everything an accepted frame can do: nothing in a Failed channel, a failure in any other state, or one of the three cells that
store bytes. -/
theorem State.acceptFrame_cases (c : Nat) {v : FrameClass} (hv : s.ClassSound v) :
    ((s.ch c).state = .failed ∧ s.acceptFrame c v = s) ∨
    (∃ e, e ≠ .none ∧ (s.ch c).state ≠ .failed ∧ s.acceptFrame c v = s.fail c e) ∨
    (∃ x, (s.ch c).state = .awaitingFirst ∧ v = .sf x ∧ s.acceptFrame c v = s.startSingle c x) ∨
    (∃ l, (s.ch c).state = .awaitingFirst ∧ v = .ff l ∧ s.acceptFrame c v = s.startMulti c l) ∨
    ((s.ch c).state = .assembling ∧ v = .cf (s.ch c).nextSeq ∧ s.acceptFrame c v = s.continueMulti c) := by
  have fails : ∀ e, e ≠ ChErr.none → s.acceptFrame c v = s.fail c e → (s.ch c).state ≠ .failed →
      ∃ e, e ≠ ChErr.none ∧ (s.ch c).state ≠ .failed ∧ s.acceptFrame c v = s.fail c e := fun e h1 h2 h3 => ⟨e, h1, h3, h2⟩
  unfold State.acceptFrame at fails ⊢
  cases hs : (s.ch c).state <;> simp only [hs] at fails ⊢
  · cases v with
    | mal e => exact .inr (.inl (fails e (hv.mal e rfl) rfl (by simp)))
    | sfShort => exact .inr (.inl (fails .sfShort (by simp) rfl (by simp)))
    | cf sn => exact .inr (.inl (fails .cfUnexpected (by simp) rfl (by simp)))
    | sf x => exact .inr (.inr (.inl ⟨x, trivial, rfl, rfl⟩))
    | ff l => exact .inr (.inr (.inr (.inl ⟨l, trivial, rfl, rfl⟩)))
  · cases v with
    | mal e => exact .inr (.inl (fails e (hv.mal e rfl) rfl (by simp)))
    | cf sn =>
      by_cases h : sn = (s.ch c).nextSeq
      · exact .inr (.inr (.inr (.inr ⟨trivial, by rw [h], by simp [State.acceptNext, h]⟩)))
      · exact .inr (.inl (fails .badSn (by simp) (by simp [State.acceptNext, h]) (by simp)))
    | _ => exact .inr (.inl (fails .interrupted (by simp) rfl (by simp)))
  · cases v with
    | mal e => exact .inr (.inl (fails e (hv.mal e rfl) rfl (by simp)))
    | _ => exact .inr (.inl (fails .afterComplete (by simp) rfl (by simp)))
  · exact .inl ⟨trivial, trivial⟩

/-- An accepted frame has at most 8 transport bytes (41_frame_ingress R152; 30_encoding R89). -/
theorem State.n_le (h : s.precheck = .none) : s.n ≤ 8 := by
  have := (s.precheck_none_iff.1 h).1
  unfold State.n
  omega

/-- `k` is 0 or 1. -/
theorem State.k_le : s.k ≤ 1 := by
  unfold State.k
  split_ifs <;> omega

/-! ### What an accepted frame leaves alone (42_reassembly R172) -/

theorem State.acceptFrame_frame (c : Nat) {v : FrameClass} (hv : s.ClassSound v) :
    s.acceptFrame c v = { s with channels := (s.acceptFrame c v).channels, mem := (s.acceptFrame c v).mem } := by
  rcases s.acceptFrame_cases c hv with ⟨-, h⟩ | ⟨e, -, -, h⟩ | ⟨x, -, -, h⟩ | ⟨l, -, -, h⟩ | ⟨-, -, h⟩ <;> rw [h] <;> rfl

theorem State.acceptFrame_numChannels (c : Nat) {v : FrameClass} (hv : s.ClassSound v) : (s.acceptFrame c v).numChannels = s.numChannels := by
  rcases s.acceptFrame_cases c hv with ⟨-, h⟩ | ⟨e, -, -, h⟩ | ⟨x, -, -, h⟩ | ⟨l, -, -, h⟩ | ⟨-, -, h⟩ <;>
    simp [h, State.fail, State.startSingle, State.startMulti, State.continueMulti, State.append, State.numChannels]

theorem State.acceptFrame_ch_ne {c d : Nat} {v : FrameClass} (hv : s.ClassSound v) (hd : d ≠ c) : (s.acceptFrame c v).ch d = s.ch d := by
  rcases s.acceptFrame_cases c hv with ⟨-, h⟩ | ⟨e, -, -, h⟩ | ⟨x, -, -, h⟩ | ⟨l, -, -, h⟩ | ⟨-, -, h⟩ <;>
    simp [h, State.fail, State.startSingle, State.startMulti, State.continueMulti, State.append, State.ch_setChan_ne _ _ _ _ hd]

/-- The stored bytes of the three cells that store, and every other byte as before. -/
theorem State.startSingle_read? (c x a : Nat) :
    (s.startSingle c x).mem.read? a =
      if bufAddr c 0 ≤ a ∧ a < bufAddr c 0 + x then some (s.d (1 + (a - bufAddr c 0))) else s.mem.read? a := by
  simp only [State.startSingle, State.setChan_mem, State.setMem_mem, Memory.read?_writeBytes, State.dBytes_length]
  split_ifs with h
  · exact s.dBytes_getElem? _ _ _ (by omega)
  · rfl

theorem State.startMulti_read? (c l a : Nat) :
    (s.startMulti c l).mem.read? a =
      if bufAddr c 0 ≤ a ∧ a < bufAddr c 0 + (s.n - 2) then some (s.d (2 + (a - bufAddr c 0))) else s.mem.read? a := by
  simp only [State.startMulti, State.setChan_mem, State.setMem_mem, Memory.read?_writeBytes, State.dBytes_length]
  split_ifs with h
  · exact s.dBytes_getElem? _ _ _ (by omega)
  · rfl

theorem State.continueMulti_read? (c a : Nat) :
    (s.continueMulti c).mem.read? a =
      if bufAddr c (s.ch c).len.toNat ≤ a ∧ a < bufAddr c (s.ch c).len.toNat + s.cfCount c then
        some (s.d (1 + (a - bufAddr c (s.ch c).len.toNat))) else s.mem.read? a := by
  simp only [State.continueMulti, State.append, State.setChan_mem, State.setMem_mem, Memory.read?_writeBytes, State.dBytes_length]
  split_ifs with h
  · exact s.dBytes_getElem? _ _ _ (by omega)
  · rfl

/-- Buffer bytes are as many as the memory has, one for each index. -/
theorem bufAddr_eq (c i : Nat) : bufAddr c i = bufAddr c 0 + i := rfl

/-- The buffer byte where a byte is stored. -/
theorem State.buf_of_read? {c i : Nat} {b : Byte} (h : s.mem.read? (bufAddr c i) = some b) : s.buf c i = b := by
  simp [State.buf, h]

/-- An accepted frame keeps memory's canonical form. -/
theorem State.acceptFrame_wf (c : Nat) {v : FrameClass} (hv : s.ClassSound v) (hm : s.mem.wf) : (s.acceptFrame c v).mem.wf := by
  rcases s.acceptFrame_cases c hv with ⟨-, h⟩ | ⟨e, -, -, h⟩ | ⟨x, -, -, h⟩ | ⟨l, -, -, h⟩ | ⟨-, -, h⟩ <;> rw [h]
  · exact hm
  · exact hm
  · exact Memory.wf_writeBytes _ hm _
  · exact Memory.wf_writeBytes _ hm _
  · exact Memory.wf_writeBytes _ hm _

/-- A pushed frame neither reads nor writes STATUS, PENDING, the port and the model's own fields. -/
theorem State.pushClass_other (v : FrameClass) (st : Status) (p : Option Word) (r : Word) (es : List Event) (n : Nat) :
    State.pushClass { s with status := st, pending := p, rdata := r, schedule := es, freeCount := n } v =
      { s.pushClass v with status := st, pending := p, rdata := r, schedule := es, freeCount := n } := by
  generalize hs' : ({ s with status := st, pending := p, rdata := r, schedule := es, freeCount := n } : State) = s'
  unfold State.pushClass
  have h1 : s'.precheck = s.precheck := by rw [← hs']; rfl
  have h2 : s'.route = s.route := by rw [← hs']; rfl
  rw [h1, h2]
  cases s.precheck with
  | none =>
    cases s.route with
    | none => rw [← hs']; rfl
    | some c =>
      have h3 : s'.ch c = s.ch c := by rw [← hs']; rfl
      simp only [State.acceptFrame, h3]
      cases (s.ch c).state with
      | failed => exact hs'.symm
      | awaitingFirst => cases v <;> (rw [← hs']; rfl)
      | complete => cases v <;> (rw [← hs']; rfl)
      | assembling =>
        cases v with
        | cf sn =>
          simp only [State.acceptNext, h3]
          split_ifs <;> (rw [← hs']; rfl)
        | _ => rw [← hs']; rfl
  | _ => rw [← hs']; rfl

/-- A pushed frame keeps memory's canonical form. -/
theorem State.pushClass_wf {v : FrameClass} (hv : s.ClassSound v) (hm : s.mem.wf) : (s.pushClass v).mem.wf := by
  rcases s.pushClass_cases v with ⟨-, h⟩ | ⟨-, -, h⟩ | ⟨c, -, -, -, h⟩ <;> rw [h]
  · exact hm
  · exact hm
  · exact s.acceptFrame_wf c hv hm

end Sys2Proof.Machine
end

