-- ==== Sys2Proof/Laws/Signal.lean ====
section
/-! SUPPORT. What DECODE and EXTRACT can answer, said once: a result with a code of its own on the channel's state, or the fault of a
word that was never written; and what each check reads when the words it needs were written. -/

namespace Sys2Proof.Machine

variable (s : State)

/-! ### Words -/

/-- A written word is read with its reserved bits masked off. -/
theorem State.ramWord_of {a : Nat} {w : Word} (mask : Word) (h : s.mem.word? a = some w) : s.ramWord a mask = .ok (w &&& mask) := by
  simp [State.ramWord, h]

/-- A word that was never written is the fault. -/
theorem State.ramWord_none {a : Nat} (mask : Word) (h : s.mem.word? a = none) : s.ramWord a mask = .error (.unwrittenRamWord a) := by
  simp [State.ramWord, h]

theorem State.ramWord_error {a : Nat} {mask : Word} {f : Fault} (h : s.ramWord a mask = .error f) :
    f = .unwrittenRamWord a ∧ s.mem.word? a = none := by
  unfold State.ramWord at h
  cases hw : s.mem.word? a with
  | none => simp only [hw, Except.error.injEq] at h; exact ⟨h.symm, rfl⟩
  | some w => simp [hw] at h

/-- An unwritten word of the slot `i` or of the LUT, which is all that DECODE can fault on (43_signal_decode R214). -/
def State.Unwritten (i : Nat) (f : Fault) : Prop :=
  ∃ a, f = .unwrittenRamWord a ∧ s.mem.word? a = none ∧ ((∃ w, w < 10 ∧ a = descAddr i w) ∨ ∃ j w, w < 2 ∧ a = lutAddr j w)

theorem State.descWord_error {i w : Nat} {f : Fault} (hw : w < 10) (h : s.descWord i w = .error f) : s.Unwritten i f :=
  ⟨_, (s.ramWord_error h).1, (s.ramWord_error h).2, .inl ⟨w, hw, rfl⟩⟩

theorem State.lutWord_error {i j w : Nat} {f : Fault} (hw : w < 2) (h : s.lutWord j w = .error f) : s.Unwritten i f :=
  ⟨_, (s.ramWord_error h).1, (s.ramWord_error h).2, .inr ⟨j, w, hw, rfl⟩⟩

/-! ### What each stage can answer -/

/-- A stage of DECODE of slot `i` on channel `ch` answers a result of that channel with a code other than NONE, or stops at a word that
was never written. -/
def State.Answers (ch i : Nat) : Except Fault Result → Prop
  | .ok r => r.code ≠ .none ∧ r.chState = (s.ch ch).state
  | .error f => s.Unwritten i f

theorem State.answers_result (ch i : Nat) {code : ResCode} (h : code ≠ .none) (raw : Nat) (val : F64) (label : BitVec 16) :
    s.Answers ch i (.ok (s.mkResult ch code raw val label)) := ⟨h, rfl⟩

/-- A lookup stops only at an unwritten LUT word. -/
theorem State.lookup_error {raw j n i : Nat} {f : Fault} (h : s.lookup raw j n = .error f) : s.Unwritten i f := by
  induction n generalizing j with
  | zero => simp [State.lookup] at h
  | succ n ih =>
    unfold State.lookup at h
    cases hw : s.lutWord j 0 with
    | error e => simp only [hw, Except.error.injEq] at h; subst h; exact s.lutWord_error (by omega) hw
    | ok k =>
      simp only [hw] at h
      split_ifs at h
      exact ih h

theorem State.answers_enumResult (ch i raw : Nat) : s.Answers ch i (s.enumResult ch i raw) := by
  unfold State.enumResult
  cases h9 : s.descWord i 9 with
  | error e => exact s.descWord_error (by omega) h9
  | ok d9 =>
    dsimp only
    cases hl : s.lookup raw (d9LutBase d9) (d9LutCount d9) with
    | error e => exact s.lookup_error hl
    | ok o =>
      cases o with
      | none => exact s.answers_result ch i (by decide) _ _ _
      | some j =>
        dsimp only
        cases hw : s.lutWord j 1 with
        | error e => exact s.lutWord_error (by omega) hw
        | ok w => exact s.answers_result ch i (by decide) _ _ _

theorem State.scaleOffset_error {i : Nat} {f : Fault} (h : s.scaleOffset i = .error f) : s.Unwritten i f := by
  unfold State.scaleOffset at h
  cases h5 : s.descWord i 5 with
  | error e => simp only [h5, Except.error.injEq] at h; subst h; exact s.descWord_error (by omega) h5
  | ok d5 =>
    cases h6 : s.descWord i 6 with
    | error e => simp only [h5, h6, Except.error.injEq] at h; subst h; exact s.descWord_error (by omega) h6
    | ok d6 =>
      cases h7 : s.descWord i 7 with
      | error e => simp only [h5, h6, h7, Except.error.injEq] at h; subst h; exact s.descWord_error (by omega) h7
      | ok d7 =>
        cases h8 : s.descWord i 8 with
        | error e => simp only [h5, h6, h7, h8, Except.error.injEq] at h; subst h; exact s.descWord_error (by omega) h8
        | ok d8 => simp [h5, h6, h7, h8] at h

theorem State.answers_linearResult (ch i raw : Nat) : s.Answers ch i (s.linearResult ch i raw) := by
  unfold State.linearResult
  cases h : s.scaleOffset i with
  | error e => exact s.scaleOffset_error h
  | ok p => exact s.answers_result ch i (by decide) _ _ _

theorem State.answers_decodeField (ch i : Nat) (d0 : Word) : s.Answers ch i (s.decodeField ch i d0) := by
  unfold State.decodeField
  split_ifs
  · exact s.answers_result ch i (by decide) _ _ _
  · exact s.answers_enumResult ch i _
  · exact s.answers_linearResult ch i _

theorem State.pfxWords_error {i : Nat} {d2 : Word} {f : Fault} (h : s.pfxWords i d2 = .error f) : s.Unwritten i f := by
  unfold State.pfxWords at h
  by_cases h0 : d2PfxLen d2 = 0
  · simp [h0] at h
  · rw [if_neg h0] at h
    cases h3 : s.descWord i 3 with
    | error e => simp only [h3, Except.error.injEq] at h; subst h; exact s.descWord_error (by omega) h3
    | ok d3 =>
      simp only [h3] at h
      by_cases h5 : d2PfxLen d2 < 5
      · simp [h5] at h
      · rw [if_neg h5] at h
        cases h4 : s.descWord i 4 with
        | error e => simp only [h4, Except.error.injEq] at h; subst h; exact s.descWord_error (by omega) h4
        | ok d4 => simp [h4] at h

theorem State.answers_decodePayload (ch i : Nat) (d0 d2 : Word) : s.Answers ch i (s.decodePayload ch i d0 d2) := by
  unfold State.decodePayload
  split_ifs
  · exact s.answers_result ch i (by decide) _ _ _
  · cases h : s.pfxWords i d2 with
    | error e => exact s.pfxWords_error h
    | ok p =>
      dsimp only
      split_ifs
      · exact s.answers_decodeField ch i d0
      · exact s.answers_result ch i (by decide) _ _ _

theorem State.answers_decodeMatched (ch i : Nat) (d0 : Word) : s.Answers ch i (s.decodeMatched ch i d0) := by
  unfold State.decodeMatched
  cases h1 : s.descWord i 1 with
  | error e => exact s.descWord_error (by omega) h1
  | ok d1 =>
    cases h2 : s.descWord i 2 with
    | error e => exact s.descWord_error (by omega) h2
    | ok d2 =>
      dsimp only
      split_ifs
      · exact s.answers_decodePayload ch i d0 d2
      · exact s.answers_result ch i (by decide) _ _ _

theorem State.descInvalid_error {i : Nat} {d0 : Word} {f : Fault} (h : s.descInvalid i d0 = .error f) : s.Unwritten i f := by
  unfold State.descInvalid at h
  by_cases hv : (!d0Valid d0) = true
  · rw [if_pos hv] at h; cases h
  rw [if_neg hv] at h
  cases h2 : s.descWord i 2 with
  | error e => simp only [h2, Except.error.injEq] at h; subst h; exact s.descWord_error (by omega) h2
  | ok d2 =>
    simp only [h2] at h
    by_cases hp : d2PfxLen d2 > 8
    · rw [if_pos hp] at h; cases h
    rw [if_neg hp] at h
    by_cases he : (!d0Enum d0) = true
    · rw [if_pos he] at h; cases h
    rw [if_neg he] at h
    by_cases hl : d0BitLength d0 > 32
    · rw [if_pos hl] at h; cases h
    rw [if_neg hl] at h
    cases h9 : s.descWord i 9 with
    | error e => simp only [h9, Except.error.injEq] at h; subst h; exact s.descWord_error (by omega) h9
    | ok d9 => simp [h9] at h

/-- DECODE's whole outcome (43_signal_decode R213, R214). -/
theorem State.answers_decodeSignal (ch i : Nat) : s.Answers ch i (s.decodeSignal ch i) := by
  unfold State.decodeSignal
  cases h0 : s.descWord i 0 with
  | error e => exact s.descWord_error (by omega) h0
  | ok d0 =>
    dsimp only
    cases hi : s.descInvalid i d0 with
    | error e => exact s.descInvalid_error hi
    | ok b =>
      cases b
      · exact s.answers_decodeMatched ch i d0
      · exact s.answers_result ch i (by decide) _ _ _

/-- EXTRACT's outcome (43_signal_decode R235). -/
theorem State.extractResult_answers (ch : Nat) : (s.extractResult ch).code ≠ .none ∧ (s.extractResult ch).chState = (s.ch ch).state := by
  unfold State.extractResult
  split_ifs <;> exact ⟨by simp [State.mkResult], rfl⟩

/-- The result registers a DECODE and an EXTRACT leave, and that nothing else changes (43_signal_decode R211). -/
theorem execDecode_cases (ch : BitVec 4) (idx : BitVec 10) :
    (ch.toNat < s.numChannels ∧ idx.toNat < s.sizes.numSignals ∧
      ((∃ r, s.decodeSignal ch.toNat idx.toNat = .ok r ∧ r.code ≠ .none ∧ r.chState = (s.ch ch.toNat).state ∧
          execDecode ch idx s = .next (s.setResult r)) ∨
        ∃ f, s.decodeSignal ch.toNat idx.toNat = .error f ∧ s.Unwritten idx.toNat f ∧ execDecode ch idx s = .fault f)) ∨
    ∃ c, (¬ (ch.toNat < s.numChannels ∧ idx.toNat < s.sizes.numSignals)) ∧ execDecode ch idx s = .next (s.cmdError c) := by
  unfold execDecode
  by_cases h1 : ch.toNat < s.numChannels
  · by_cases h2 : idx.toNat < s.sizes.numSignals
    · left
      refine ⟨h1, h2, ?_⟩
      have := s.answers_decodeSignal ch.toNat idx.toNat
      cases hd : s.decodeSignal ch.toNat idx.toNat with
      | ok r => rw [hd] at this; exact .inl ⟨r, rfl, this.1, this.2, by simp [h1, h2]⟩
      | error f => rw [hd] at this; exact .inr ⟨f, rfl, this, by simp [h1, h2]⟩
    · exact .inr ⟨.badIndex, by simp [h2], by simp [h1, h2]⟩
  · exact .inr ⟨.badChannel, by simp [h1], by simp [h1]⟩

theorem execExtract_cases (ch : BitVec 4) (idx : BitVec 10) :
    (ch.toNat < s.numChannels ∧ execExtract ch idx s = .next (s.setResult (s.extractResult ch.toNat))) ∨
    (¬ ch.toNat < s.numChannels ∧ execExtract ch idx s = .next (s.cmdError .badChannel)) := by
  unfold execExtract
  by_cases h : ch.toNat < s.numChannels <;> simp [h]

/-! ### What DECODE and EXTRACT read (43_signal_decode R211, R213) -/

/-- Two states that agree on the channels, the memory, the parameters and CFG. -/
structure State.SameInputs (s t : State) : Prop where
  channels : t.channels = s.channels
  mem : t.mem = s.mem
  sizes : t.sizes = s.sizes
  cfg : t.cfg = s.cfg

section
variable {s} {t : State} (h : s.SameInputs t)
include h

theorem State.SameInputs.ch (c : Nat) : t.ch c = s.ch c := State.ch_congr h.channels c

theorem State.SameInputs.buf (c i : Nat) : t.buf c i = s.buf c i := by simp only [State.buf, h.mem]

theorem State.SameInputs.descWord (i w : Nat) : t.descWord i w = s.descWord i w := by
  simp only [State.descWord, State.ramWord, h.mem]

theorem State.SameInputs.lutWord (j w : Nat) : t.lutWord j w = s.lutWord j w := by
  simp only [State.lutWord, State.ramWord, h.mem]

theorem State.SameInputs.extractField (c off len : Nat) : t.extractField c off len = s.extractField c off len := by
  simp only [State.extractField]
  exact msbFirst_congr _ _ _ _ fun i _ => by simp only [State.pbit, h.buf]

theorem State.SameInputs.lookup (raw j n : Nat) : t.lookup raw j n = s.lookup raw j n := by
  induction n generalizing j with
  | zero => rfl
  | succ n ih => simp only [State.lookup, h.lutWord, ih]

theorem State.SameInputs.mkResult (ch : Nat) (code : ResCode) (raw : Nat) (val : F64) (label : BitVec 16) :
    t.mkResult ch code raw val label = s.mkResult ch code raw val label := by
  simp only [State.mkResult, h.ch]

theorem State.SameInputs.enumResult (ch i raw : Nat) : t.enumResult ch i raw = s.enumResult ch i raw := by
  simp only [State.enumResult, h.descWord, h.lutWord, h.lookup, h.mkResult]

theorem State.SameInputs.linearResult (ch i raw : Nat) : t.linearResult ch i raw = s.linearResult ch i raw := by
  have hs : t.scaleOffset i = s.scaleOffset i := by simp only [State.scaleOffset, h.descWord]
  simp only [State.linearResult, hs, h.mkResult]

theorem State.SameInputs.decodeField (ch i : Nat) (d0 : Word) : t.decodeField ch i d0 = s.decodeField ch i d0 := by
  simp only [State.decodeField, h.ch, h.mkResult, h.extractField, h.enumResult, h.linearResult]

theorem State.SameInputs.decodePayload (ch i : Nat) (d0 d2 : Word) : t.decodePayload ch i d0 d2 = s.decodePayload ch i d0 d2 := by
  have hp : t.pfxWords i d2 = s.pfxWords i d2 := by simp only [State.pfxWords, h.descWord]
  have hm : ∀ d3 d4, t.pfxBytesMatch ch d2 d3 d4 = s.pfxBytesMatch ch d2 d3 d4 := by
    intro d3 d4; simp only [State.pfxBytesMatch, h.ch, h.buf]
  simp only [State.decodePayload, h.ch, h.mkResult, hp, hm, h.decodeField]

theorem State.SameInputs.decodeMatched (ch i : Nat) (d0 : Word) : t.decodeMatched ch i d0 = s.decodeMatched ch i d0 := by
  have hm : ∀ d1 d2, t.idMatch ch d1 d2 = s.idMatch ch d1 d2 := by intro d1 d2; simp only [State.idMatch, h.ch, h.cfg]
  simp only [State.decodeMatched, h.descWord, hm, h.decodePayload, h.mkResult]

/-- DECODE reads nothing else: not STATUS, not the result registers, not the frame input registers. -/
theorem State.SameInputs.decodeSignal (ch i : Nat) : t.decodeSignal ch i = s.decodeSignal ch i := by
  have hv : ∀ d0, t.descInvalid i d0 = s.descInvalid i d0 := by
    intro d0; simp only [State.descInvalid, h.descWord, h.sizes]
  simp only [State.decodeSignal, h.descWord, hv, h.mkResult, h.decodeMatched]

/-- EXTRACT reads X_CFG too, and nothing else. -/
theorem State.SameInputs.extractResult (hx : t.xcfg = s.xcfg) (ch : Nat) : t.extractResult ch = s.extractResult ch := by
  simp only [State.extractResult, State.mkResult, h.ch, h.extractField, hx]

end

/-! ### The lookup (43_signal_decode R230, R231) -/

/-- Where every key of the range was written and none is raw, the lookup finds nothing. -/
theorem State.lookup_none {raw j n : Nat}
    (h : ∀ x, j ≤ x → x < j + n → ∃ k : Word, s.mem.word? (lutAddr x 0) = some k ∧ k.toNat ≠ raw) :
    s.lookup raw j n = .ok none := by
  induction n generalizing j with
  | zero => rfl
  | succ n ih =>
    obtain ⟨k, hk, hne⟩ := h j le_rfl (by omega)
    have hm : k &&& lutMask 0 = k := by simp [lutMask]; exact BitVec.and_allOnes
    have hw : s.lutWord j 0 = .ok k := by rw [State.lutWord, s.ramWord_of _ hk, hm]
    simp only [State.lookup, hw, hne, if_false]
    exact ih fun x h1 h2 => h x (by omega) (by omega)

/-- Where the keys up to the first match were written, the lookup finds it. -/
theorem State.lookup_some {raw j n x : Nat} (h1 : j ≤ x) (h2 : x < j + n)
    (hk : ∀ y, j ≤ y → y ≤ x → ∃ k : Word, s.mem.word? (lutAddr y 0) = some k ∧ (k.toNat = raw ↔ y = x)) :
    s.lookup raw j n = .ok (some x) := by
  induction n generalizing j with
  | zero => omega
  | succ n ih =>
    obtain ⟨k, hw, hiff⟩ := hk j le_rfl h1
    have hm : k &&& lutMask 0 = k := by simp [lutMask]; exact BitVec.and_allOnes
    have hw : s.lutWord j 0 = .ok k := by rw [State.lutWord, s.ramWord_of _ hw, hm]
    by_cases hx : j = x
    · subst hx
      simp [State.lookup, hw, hiff.2 rfl]
    · have : ¬ k.toNat = raw := fun h => hx (hiff.1 h)
      simp only [State.lookup, hw, this, if_false]
      exact ih (by omega) (by omega) fun y h3 h4 => hk y (by omega) h4

/-! ### The field (43_signal_decode R224) -/

/-- An extracted field is below 2 to its length. -/
theorem State.extractField_lt (c off len : Nat) : s.extractField c off len < 2 ^ len := msbFirst_lt _ _ _

/-! ### Fields of a stored word: the mask of a read keeps every field -/

/-- A field whose bits a mask keeps is not changed by the mask. -/
theorem extract_mask (w m : Word) (p n : Nat) (h : ∀ i, i < n → m.getLsbD (p + i) = true) :
    (w &&& m).extractLsb' p n = w.extractLsb' p n := by
  refine BitVec.eq_of_getLsbD_eq fun i hi => ?_
  simp [hi, h i hi]

@[simp] theorem d0BitOffset_mask (w : Word) : d0BitOffset (w &&& descMask 0) = d0BitOffset w := by
  unfold d0BitOffset; rw [extract_mask]; decide
@[simp] theorem d0BitLength_mask (w : Word) : d0BitLength (w &&& descMask 0) = d0BitLength w := by
  unfold d0BitLength; rw [extract_mask]; decide
@[simp] theorem d0Enum_mask (w : Word) : d0Enum (w &&& descMask 0) = d0Enum w := by simp [d0Enum, descMask]
@[simp] theorem d0Valid_mask (w : Word) : d0Valid (w &&& descMask 0) = d0Valid w := by simp [d0Valid, descMask]
@[simp] theorem d1MatchId_mask (w : Word) : d1MatchId (w &&& descMask 1) = d1MatchId w := by
  unfold d1MatchId; rw [extract_mask]; decide
@[simp] theorem d2MatchTa_mask (w : Word) : d2MatchTa (w &&& descMask 2) = d2MatchTa w := by
  unfold d2MatchTa; rw [extract_mask]; decide
@[simp] theorem d2PfxLen_mask (w : Word) : d2PfxLen (w &&& descMask 2) = d2PfxLen w := by
  unfold d2PfxLen; rw [extract_mask]; decide
@[simp] theorem d2PfxCare_mask (w : Word) (j : Nat) : d2PfxCare (w &&& descMask 2) j = d2PfxCare w j := by
  unfold d2PfxCare; rw [extract_mask]; decide
@[simp] theorem d9LutBase_mask (w : Word) : d9LutBase (w &&& descMask 9) = d9LutBase w := by
  unfold d9LutBase; rw [extract_mask]; decide
@[simp] theorem d9LutCount_mask (w : Word) : d9LutCount (w &&& descMask 9) = d9LutCount w := by
  unfold d9LutCount; rw [extract_mask]; decide

end Sys2Proof.Machine
end

