-- ==== Sys2Proof/Laws/Step.lean ====
section
/-! SUPPORT. What a step can do, said once: the inversion of exec, of a commit and of a step, and that no step breaks memory's canonical
form. -/

namespace Sys2Proof.Machine

/-! ### exec -/

/-- The state a body of a command can leave. -/
inductive Body (s : State) : Instr → State → Prop where
  | nop (ch idx) : Body s (.nop ch idx) s
  /-- A pushed frame, of a sound class. -/
  | push (i : Instr) (v : FrameClass) (h : s.ClassSound v)
      (hi : (∃ ch idx, i = .pushFrame ch idx) ∨ (∃ x, i = .sf x) ∨ (∃ x, i = .ff x) ∨ (∃ x, i = .cf x) ∨ (∃ x, i = .pciRsv3 x) ∨
        (∃ x, i = .pciRsv47 x) ∨ ∃ x, i = .pciRsv8F x) : Body s i (s.pushClass v)
  | endCapture (ch idx) : Body s (.endCapture ch idx) (s.setChannels (s.channels.map Channel.endCapture))
  | chReset (ch idx) (h : ch.toNat < s.numChannels) : Body s (.chReset ch idx) (s.setChan ch.toNat (s.ch ch.toNat).clear)
  | resetChannels (ch idx) : Body s (.resetChannels ch idx) (s.setChannels (s.channels.map Channel.clear))
  | result (i : Instr) (r : Result) (hi : ∃ ch idx, i = .decode ch idx ∨ i = .extract ch idx) (hr : r.code ≠ .none) :
      Body s i (s.setResult r)
  | error (i : Instr) (c : CmdCause) (hi : ∃ ch idx, i = .chReset ch idx ∨ i = .decode ch idx ∨ i = .extract ch idx) :
      Body s i (s.cmdError c)

/-- Everything a body can leave. -/
theorem exec_body {i : Instr} {s t : State} (h : exec i s = .next t) : Body s i t := by
  cases i with
  | nop ch idx => cases h; exact .nop _ _
  | pushFrame ch idx => cases h; exact .push _ _ s.classify_sound (.inl ⟨_, _, rfl⟩)
  | endCapture ch idx => cases h; exact .endCapture _ _
  | chReset ch idx =>
    simp only [exec, execChReset] at h
    split_ifs at h with hc <;> cases h
    · exact .chReset _ _ hc
    · exact .error _ _ ⟨ch, idx, .inl rfl⟩
  | resetChannels ch idx => cases h; exact .resetChannels _ _
  | decode ch idx =>
    simp only [exec] at h
    rcases execDecode_cases s ch idx with ⟨-, -, ⟨r, -, hr, -, he⟩ | ⟨f, -, -, he⟩⟩ | ⟨c, -, he⟩ <;> rw [he] at h <;> cases h
    · exact .result _ _ ⟨ch, idx, .inl rfl⟩ hr
    · exact .error _ _ ⟨ch, idx, .inr (.inl rfl)⟩
  | extract ch idx =>
    simp only [exec] at h
    rcases execExtract_cases s ch idx with ⟨-, he⟩ | ⟨-, he⟩ <;> rw [he] at h <;> cases h
    · exact .result _ _ ⟨ch, idx, .inr rfl⟩ (s.extractResult_answers _).1
    · exact .error _ _ ⟨ch, idx, .inr (.inr rfl)⟩
  | sf dl => cases h; exact .push _ _ (s.classSf_sound dl) (.inr (.inl ⟨_, rfl⟩))
  | ff dl => cases h; exact .push _ _ (s.classFf_sound dl) (.inr (.inr (.inl ⟨_, rfl⟩)))
  | cf sn => cases h; exact .push _ _ (s.classCf_sound sn) (.inr (.inr (.inr (.inl ⟨_, rfl⟩))))
  | pciRsv3 x => cases h; exact .push _ _ s.classReserved_sound (.inr (.inr (.inr (.inr (.inl ⟨_, rfl⟩)))))
  | pciRsv47 x => cases h; exact .push _ _ s.classReserved_sound (.inr (.inr (.inr (.inr (.inr (.inl ⟨_, rfl⟩))))))
  | pciRsv8F x => cases h; exact .push _ _ s.classReserved_sound (.inr (.inr (.inr (.inr (.inr (.inr ⟨_, rfl⟩))))))

/-- No body touches these. -/
theorem exec_fields {i : Instr} {s t : State} (h : exec i s = .next t) :
    t.sizes = s.sizes ∧ t.numChannels = s.numChannels ∧ t.cfg = s.cfg ∧ t.irqEn = s.irqEn ∧ t.fin = s.fin ∧ t.xcfg = s.xcfg ∧
      t.pending = s.pending ∧ t.rst = s.rst ∧ t.rdata = s.rdata ∧ t.schedule = s.schedule ∧ t.freeCount = s.freeCount := by
  cases exec_body h with
  | push i v hv hi =>
    rcases s.pushClass_cases v with ⟨-, he⟩ | ⟨-, -, he⟩ | ⟨c, -, -, -, he⟩ <;> rw [he]
    · simp [State.reject, State.numChannels]
    · simp [State.dropFrame, State.numChannels]
    · have hn := s.acceptFrame_numChannels c hv
      rw [s.acceptFrame_frame c hv] at hn ⊢
      simpa using hn
  | _ => simp [State.numChannels, State.cmdError]

/-- A body keeps memory's canonical form. -/
theorem exec_wf {i : Instr} {s t : State} (h : exec i s = .next t) (hm : s.mem.wf) : t.mem.wf := by
  cases exec_body h with
  | push i v hv hi => exact s.pushClass_wf hv hm
  | _ => exact hm

/-! ### Commit and step -/

/-- A commit ends a body or records a command error (40_command_dispatch R133). -/
theorem State.commit_cases {s t : State} {w : Word} (h : s.commit w = .next t) :
    (∃ e, decodeCmd w = .error e ∧ t = (s.cmdError (causeOf e)).committed) ∨
    ∃ i b, decodeCmd w = .ok i ∧ exec i s = .next b ∧ t = b.committed := by
  unfold State.commit at h
  cases hd : decodeCmd w with
  | error e => simp only [hd, Host.Outcome.next.injEq] at h; exact .inl ⟨e, rfl, h.symm⟩
  | ok i =>
    simp only [hd] at h
    cases he : exec i s with
    | next b => simp only [he, Host.Outcome.next.injEq] at h; exact .inr ⟨i, b, rfl, he, h.symm⟩
    | fault r => simp [he] at h
    | refused r => simp [he] at h

/-- Everything a step can do, with `s0` the state without the entry it takes. -/
inductive Stepped (s t : State) : Prop where
  | read (a : BusAddr) (rest : List Event) (hs : s.schedule = .read a :: rest)
      (ht : t = State.hostRead { s with schedule := rest } a)
  | write (a : BusAddr) (d : Word) (be : BitVec 4) (rest : List Event) (hs : s.schedule = .write a d be :: rest)
      (ht : t = (State.hostWrite { s with schedule := rest } a d be).tick)
  | assertRst (rest : List Event) (hs : s.schedule = .assertRst :: rest)
      (ht : t = (State.assertRst { s with schedule := rest }).tick)
  | releaseRst (rest : List Event) (hs : s.schedule = .releaseRst :: rest)
      (ht : t = (State.releaseRst { s with schedule := rest }).tick)
  | powerOn (rest : List Event) (hs : s.schedule = .powerOn :: rest)
      (ht : t = (State.powerOn { s with schedule := rest }).tick)
  | idle (rest : List Event) (hs : s.schedule = .engine :: rest ∨ (s.schedule = [] ∧ rest = []))
      (hi : s.rst = true ∨ s.pending = none) (ht : t = { s with schedule := rest })
  | invalid (rest : List Event) (w : Word) (e : DecodeError) (hs : s.schedule = .engine :: rest ∨ (s.schedule = [] ∧ rest = []))
      (hr : s.rst = false) (hp : s.pending = some w) (hd : decodeCmd w = .error e)
      (ht : t = (State.cmdError { s with schedule := rest } (causeOf e)).committed)
  | commit (rest : List Event) (w : Word) (i : Instr) (b : State)
      (hs : s.schedule = .engine :: rest ∨ (s.schedule = [] ∧ rest = []))
      (hr : s.rst = false) (hp : s.pending = some w) (hd : decodeCmd w = .ok i)
      (hb : exec i { s with schedule := rest } = .next b) (ht : t = b.committed)

/-- In reset, or with nothing pending, the engine does nothing. -/
theorem State.engineTurn_idle {s : State} (h : s.rst = true ∨ s.pending = none) : s.engineTurn = .next s := by
  unfold State.engineTurn
  cases hr : s.rst <;> simp_all

/-- Out of reset, the engine commits what is pending. -/
theorem State.engineTurn_commit {s : State} {w : Word} (hr : s.rst = false) (hp : s.pending = some w) : s.engineTurn = s.commit w := by
  simp [State.engineTurn, hr, hp]

/-- The engine's turn on a state whose schedule entry is taken. -/
theorem State.engineTurn_stepped {s t : State} (rest : List Event) (hs : s.schedule = .engine :: rest ∨ (s.schedule = [] ∧ rest = []))
    (h : State.engineTurn { s with schedule := rest } = .next t) : Stepped s t := by
  by_cases hi : s.rst = true ∨ s.pending = none
  · rw [State.engineTurn_idle (s := { s with schedule := rest }) hi] at h
    cases h
    exact .idle rest hs hi rfl
  · obtain ⟨h1, h2⟩ := not_or.1 hi
    obtain ⟨w, hw⟩ := Option.ne_none_iff_exists'.1 h2
    have hr : s.rst = false := by simpa using h1
    rw [State.engineTurn_commit (s := { s with schedule := rest }) hr hw] at h
    rcases State.commit_cases h with ⟨e, hd, ht⟩ | ⟨i, b, hd, hb, ht⟩
    · exact .invalid rest w e hs hr hw hd ht
    · exact .commit rest w i b hs hr hw hd hb ht

/-- The inversion of a step. -/
theorem step_cases {s t : State} (h : step s = .next t) : Stepped s t := by
  unfold step at h
  cases hs : s.schedule with
  | nil =>
    simp only [hs] at h
    refine State.engineTurn_stepped [] (.inr ⟨hs, rfl⟩) ?_
    rw [← h, ← hs]
  | cons e rest =>
    simp only [hs] at h
    cases e with
    | read a => cases h; exact .read a rest hs rfl
    | write a d be => cases h; exact .write a d be rest hs rfl
    | engine => exact State.engineTurn_stepped rest (.inl hs) h
    | assertRst => cases h; exact .assertRst rest hs rfl
    | releaseRst => cases h; exact .releaseRst rest hs rfl
    | powerOn => cases h; exact .powerOn rest hs rfl

/-- A step on a state with a schedule entry runs the entry. -/
theorem step_cons {s : State} {e : Event} {rest : List Event} (h : s.schedule = e :: rest) :
    step s = State.runEvent { s with schedule := rest } e := by
  simp [step, h]

/-- A step on a state with no schedule entry is the engine's turn. -/
theorem step_nil {s : State} (h : s.schedule = []) : step s = s.engineTurn := by
  simp [step, h]

/-- A step that writes a global register, while nothing is pending (20_memory R65, R70). -/
theorem step_writeGlobal {s : State} {r : GlobalReg} {d : Word} {be : BitVec 4} {rest : List Event} (hr : s.rst = false)
    (hp : s.pending = none) (hbe : be = 0b1111#4) (hs : s.schedule = .write (BitVec.ofNat 18 r.offset) d be :: rest) :
    step s = .next (State.writeGlobal { s with schedule := rest } d r).tick := by
  rw [step_cons hs]
  simp only [State.runEvent]
  have ho : (BitVec.ofNat 18 r.offset).toNat = r.offset := by cases r <;> rfl
  rw [State.hostWrite_accepted (s := { s with schedule := rest }) (x := .global r) hr hp
    (by rw [ho]; cases r <;> rfl) (by rw [ho]; exact State.target_global _ r) (by simp) d hbe]
  rfl

/-- A run goes on from where its first step leads. -/
theorem run_next {s t : State} (h : step s = .next t) (k : Nat) :
    Host.Core.run Sys2Proof.core (k + 1) s = Host.Core.run Sys2Proof.core k t := by
  simp only [Host.Core.run, Sys2Proof.core, h]

/-- A run of one step is the step. -/
theorem run_one (s : State) : Host.Core.run Sys2Proof.core 1 s = step s := by
  simp only [Host.Core.run, Sys2Proof.core]
  cases step s <;> rfl

/-- A run stops where its first step stops. -/
theorem run_fault {s : State} {r : Fault} (h : step s = .fault r) (k : Nat) : Host.Core.run Sys2Proof.core (k + 1) s = .fault r := by
  simp only [Host.Core.run, Sys2Proof.core, h]

/-- Building a machine answers the reset state of the parameters, at legal ones alone (00_scope R9). -/
theorem State.configure_eq_some {p : Config.Params} {t : State} : State.configure p = some t ↔ p.legal ∧ t = State.resetOf p := by
  unfold State.configure
  split_ifs with h
  · exact ⟨fun e => ⟨h, (Option.some.inj e).symm⟩, fun e => e.2 ▸ rfl⟩
  · exact ⟨(fun e => nomatch e), fun e => absurd e.1 h⟩

/-- The machine at reset has the parameters it was given. -/
@[simp] theorem State.resetOf_params (p : Config.Params) : (State.resetOf p).params = p := by
  simp [State.params, State.resetOf]

/-- The memory of the machine at reset is in canonical form. -/
theorem State.resetOf_wf (p : Config.Params) : (State.resetOf p).mem.wf := List.Pairwise.nil

/-- Block reset keeps the number of channels. -/
theorem State.blockReset_numChannels (s : State) : s.blockReset.numChannels = s.numChannels := by
  simp [State.blockReset, State.numChannels, State.resetOf, State.params]

/-- Every channel after a block reset is a channel at reset (10_state R57). -/
theorem State.blockReset_ch (s : State) (c : Nat) : s.blockReset.ch c = Channel.reset := by
  simp only [State.ch, State.blockReset, State.resetOf, List.getD_eq_getElem?_getD, List.getElem?_replicate]
  split_ifs <;> rfl

/-! ### A placed header -/

/-- Bytes 0 and 1 of a word of two given bytes, and bytes 1 and 2 of one where they stand after another. -/
theorem byteOf_header (x : BitVec 16) (y z d0 d1 : Byte) :
    byteOf (x ++ d1 ++ d0) 0 = d0 ∧ byteOf (x ++ d1 ++ d0) 1 = d1 ∧
    byteOf (y ++ d1 ++ d0 ++ z) 1 = d0 ∧ byteOf (y ++ d1 ++ d0 ++ z) 2 = d1 := by
  unfold byteOf
  refine ⟨?_, ?_, ?_, ?_⟩ <;> apply BitVec.eq_of_getLsbD_eq <;> intro j hj <;>
    simp only [BitVec.getLsbD_extractLsb', BitVec.getLsbD_append] <;>
    split_ifs <;> simp_all <;> first | omega | (congr 1; omega)

end Sys2Proof.Machine
end

