-- ==== Sys2Proof/WellFormed.lean ====
section
/-! DEFINITION. Which instructions the spec calls legal, at given parameters: the operand ranges of 30_encoding R86, and the
frame headers that R107 does not make malformed. Nothing in the machine reads this: an instruction that is not well formed runs
too, and its meaning records the error that the spec names. -/

namespace Sys2Proof

/-- Legal at the parameters `p`: a used CH is below NUM_CHANNELS and a used IDX below NUM_SIGNALS (30_encoding R86); SF_DL is 1 to
7, the most an 8-byte frame can carry (R91, R94); FF_DL is above the smallest SF capacity, 6, and at most PAYLOAD_CAP (R95, R107);
PCI types 0x3 to 0xF are reserved (R107). -/
def Instr.wellFormed (p : Config.Params) : Instr → Bool
  | .nop _ _ => true
  | .pushFrame _ _ => true
  | .endCapture _ _ => true
  | .chReset ch _ => decide (ch.toNat < p.numChannels)
  | .resetChannels _ _ => true
  | .decode ch idx => decide (ch.toNat < p.numChannels) && decide (idx.toNat < p.numSignals)
  | .extract ch _ => decide (ch.toNat < p.numChannels)
  | .sf dl => decide (1 ≤ dl.toNat) && decide (dl.toNat ≤ 7)
  | .ff dl => decide (7 ≤ dl.toNat) && decide (dl.toNat ≤ p.payloadCap)
  | .cf _ => true
  | .pciRsv3 _ => false
  | .pciRsv47 _ => false
  | .pciRsv8F _ => false

end Sys2Proof
end

