-- ==== Sys2Proof/Tests/Slice0.lean ====
section
/-! SUPPORT. The model's own tests. Expected values are the spec's: the worked vectors of 95_test_vectors (named by their ids) or words
written out by hand from 30_encoding. Then one witness for each obligation that has hypotheses, at boundary values. -/

namespace Sys2Proof.Tests

open Sys2Proof.Machine Sys2Proof.Claims

/-! ### Helpers -/

/-- The next state, or none where the machine stops. -/
def after : Host.Outcome State Fault Refusal → Option State
  | .next t => some t
  | .fault _ => none
  | .refused _ => none

/-- The machine at reset with a schedule. -/
def sched (es : List Event) : State := { State.reset with schedule := es }

/-- A small machine: two channels, two slots, four LUT entries, payloads of 8 bytes. -/
def small : State := State.resetOf { numChannels := 2, numSignals := 2, enumDepth := 4, payloadCap := 8 }

/-- The filter of ID 0x7E8, enabled. -/
def ch7E8 : Channel := { Channel.reset with filterEn := true, filterId := 0x7E8 }

/-- Channel 0 is `c`, and the frame input registers hold a frame of ID 0x7E8. -/
def frameAt (c : Channel) (len : BitVec 4) (data0 data1 : Word) : State :=
  { State.reset.setChan 0 c with fin := ⟨0x7E8, len, data0, data1⟩ }

/-- CH_STATUS of channel 0 after an instruction. -/
def chStatus (i : Instr) (s : State) : Option Word := (after (exec i s)).map fun t => (t.ch 0).readReg .status

/-- A channel with a message of `total` bytes in progress. -/
def assemblingCh (len total : BitVec 12) (sn : BitVec 4) : Channel :=
  { ch7E8 with state := .assembling, len := len, total := total, nextSeq := sn }

/-- A memory with words stored. -/
def stores (ws : List (Nat × Word)) : Memory := ws.foldl (fun m p => m.writeWord p.1 p.2) []

/-- The T-DEC payload, `11 22 33 44 55 AB CD EF`, in channel 0 of the reference machine, and slot 0 as given, with MATCH_ID 0x7E8. -/
def decState (d : Nat → Word) (lut : List (Nat × Word)) : State :=
  (State.reset.setChan 0 { ch7E8 with state := .complete, len := 8, total := 8 }).setMem
    (stores ([(0x10000, d 0), (0x10004, d 1), (0x10008, d 2), (0x1000C, d 3), (0x10010, d 4), (0x10014, d 5), (0x10018, d 6),
      (0x1001C, d 7), (0x10020, d 8), (0x10024, d 9)] ++ lut ++ [(0x30000, 0x44332211), (0x30004, 0xEFCDAB55)]))

/-- A descriptor's words: D0, D1, D2, D3, SCALE high, D9; the others 0. -/
def slotWords (d0 d1 d2 d3 scaleHi d9 : Word) (w : Nat) : Word :=
  match w with
  | 0 => d0 | 1 => d1 | 2 => d2 | 3 => d3 | 6 => scaleHi | 9 => d9
  | _ => 0

/-- RES_CODE, RES_RAW, RES_VAL and RES_LABEL after an instruction. -/
def results (i : Instr) (s : State) : Option (Word × BitVec 64 × F64 × BitVec 16) :=
  (after (exec i s)).map fun t => (t.readGlobal .resCode, t.result.raw, t.result.val, t.result.label)

/-! ### WellFormed: one ill-formed term for each check -/

theorem test_wellFormed_refuses :
    (Instr.chReset 4 0).wellFormed .reference = false ∧ (Instr.decode 4 0).wellFormed .reference = false ∧
    (Instr.decode 0 256).wellFormed .reference = false ∧ (Instr.extract 4 0).wellFormed .reference = false ∧
    (Instr.sf 0).wellFormed .reference = false ∧ (Instr.sf 8).wellFormed .reference = false ∧
    (Instr.ff 6).wellFormed .reference = false ∧
    (Instr.ff 101).wellFormed { Config.Params.reference with payloadCap := 100 } = false ∧
    (Instr.pciRsv3 0).wellFormed .reference = false ∧ (Instr.pciRsv47 0).wellFormed .reference = false ∧
    (Instr.pciRsv8F 0).wellFormed .reference = false := by decide

theorem test_wellFormed_accepts :
    (Instr.chReset 3 1023).wellFormed .reference = true ∧ (Instr.decode 3 255).wellFormed .reference = true ∧
    (Instr.extract 3 1023).wellFormed .reference = true ∧ (Instr.sf 1).wellFormed .reference = true ∧
    (Instr.sf 7).wellFormed .reference = true ∧ (Instr.ff 7).wellFormed .reference = true ∧
    (Instr.ff 4095).wellFormed .reference = true ∧ (Instr.cf 15).wellFormed .reference = true ∧
    (Instr.nop 15 1023).wellFormed .reference = true := by decide

/-! ### Decode: words written out bit by bit from 30_encoding R83, R84, R91 to R93

A command word is {000000, IDX[9:0], 0000, CH[3:0], OP[7:0]}. -/

theorem test_decode_nop : decodeCmd 0b000000_0000000000_0000_1111_00000000#32 = .ok (.nop 15 0) := by decide
theorem test_decode_pushFrame : decodeCmd 0b000000_0000000000_0000_0000_00000001#32 = .ok (.pushFrame 0 0) := by decide
theorem test_decode_endCapture : decodeCmd 0b000000_0000000000_0000_0100_00000010#32 = .ok (.endCapture 4 0) := by decide
theorem test_decode_chReset : decodeCmd 0b000000_0000000000_0000_0010_00000011#32 = .ok (.chReset 2 0) := by decide
theorem test_decode_resetChannels : decodeCmd 0b000000_0000000001_0000_0000_00000100#32 = .ok (.resetChannels 0 1) := by decide
theorem test_decode_decode : decodeCmd 0b000000_0000000011_0000_0001_00000101#32 = .ok (.decode 1 3) := by decide
theorem test_decode_extract : decodeCmd 0b000000_1000000000_0000_0011_00000110#32 = .ok (.extract 3 512) := by decide
theorem test_decode_sf : decodePci 0b0000_0101#8 0x62 = .sf 5 := by decide
theorem test_decode_ff : decodePci 0b0001_0001#8 0b00000110#8 = .ff 0x106 := by decide
theorem test_decode_cf : decodePci 0b0010_1111#8 0x00 = .cf 15 := by decide
theorem test_decode_pciRsv3 : decodePci 0b0011_0001#8 0x00 = .pciRsv3 1 := by decide
theorem test_decode_pciRsv47 : decodePci 0b01_100001#8 0x00 = .pciRsv47 33 := by decide
theorem test_decode_pciRsv8F : decodePci 0b1_0000001#8 0x00 = .pciRsv8F 1 := by decide

/-- C2 to C7: the words that encode no command, and the order of the two checks. -/
theorem test_decode_refuses :
    decodeCmd 0x00000007 = .error .illegalOp ∧ decodeCmd 0x000000FF = .error .illegalOp ∧
    decodeCmd 0x00001000 = .error .reservedBits ∧ decodeCmd 0x04000000 = .error .reservedBits ∧
    decodeCmd 0x00001007 = .error .reservedBits ∧ decodeCmd 0x00000407 = .error .illegalOp := by decide

/-- The table's numbering: a header's second byte stands above its first. -/
theorem test_decodeTableWord :
    decodeTableWord 32 0x00030105 = some (.decode 1 3) ∧ decodeTableWord 8 0x10 = some (.ff 0) ∧
    decodeTableWord 16 0x0810 = some (.ff 8) ∧ decodeTableWord 32 0x00000007 = none := by decide

/-- R9: the parameters of the reference machine are accepted, and each parameter one below and one above its bounds is refused. -/
theorem test_configure :
    State.configure .reference = some State.reset ∧
    (∀ p ∈ [(⟨0, 1, 1, 8⟩ : Config.Params), ⟨17, 1, 1, 8⟩, ⟨1, 0, 1, 8⟩, ⟨1, 1025, 1, 8⟩, ⟨1, 1, 0, 8⟩, ⟨1, 1, 4097, 8⟩,
      ⟨1, 1, 1, 7⟩, ⟨1, 1, 1, 4096⟩], State.configure p = none) := by decide

/-! ### The commands -/

/-- C1, C4, C8, C9: STATUS after the commit. -/
theorem test_commit_status :
    (after (step (State.reset.withFetchWord 32 0x00000F00))).map State.statusWord = some 0x00000002 ∧
    (after (step (State.reset.withFetchWord 32 0x00001000))).map State.statusWord = some 0x00000406 ∧
    (after (step (State.reset.withFetchWord 32 0x00000405))).map State.statusWord = some 0x00000206 ∧
    (after (step (State.reset.withFetchWord 32 0x01000005))).map State.statusWord = some 0x00000306 := by decide

/-- A1: an SF with padding; the payload window shows `AA BB CC`. -/
theorem test_pushFrame_sf :
    (after (exec (.pushFrame 0 0) (frameAt ch7E8 8 0xCCBBAA03 0x55555555))).map
      (fun t => ((t.ch 0).readReg .status, t.readTarget (.window 0 0), t.chEventWord)) = some (0x00030002, 0x00CCBBAA, 1) := by
  decide

/-- I5: NO_TA in extended addressing with 29-bit IDs; the channel is unchanged. -/
theorem test_pushFrame_reject :
    (after (exec (.pushFrame 0 0) { frameAt ch7E8 0 0 0 with cfg := ⟨true, true⟩ })).map
      (fun t => (t.readGlobal .counters, t.readGlobal .lastReject, t.ch 0)) = some (0x00010000, 3, ch7E8) := by decide

/-- A26, and a Complete channel beside it (A27). -/
theorem test_endCapture :
    chStatus (.endCapture 15 0) (frameAt (assemblingCh 6 16 1) 8 0 0) = some 0x00063313 ∧
    chStatus (.endCapture 0 0) (frameAt { ch7E8 with state := .complete, len := 2, total := 2 } 8 0 0) = some 0x00020002 := by
  decide

/-- A30: a Failed channel is cleared, and its CH_EVENT bit stays. -/
theorem test_chReset :
    (after (exec (.chReset 0 7) (frameAt { ch7E8 with state := .failed, err := .cfUnexpected, event := true } 8 0 0))).map
      (fun t => ((t.ch 0).readReg .status, t.chEventWord, (t.ch 0).readReg .filter)) = some (0, 1, 0x800007E8) := by decide

/-- C15: CH_RESET of channel 4 of 4. -/
theorem test_chReset_badChannel : (after (exec (.chReset 4 0) State.reset)).map (fun t => (t.status.cmdErr, t.status.cause)) =
    some (true, .badChannel) := by decide

/-- R197: every channel is cleared. -/
theorem test_resetChannels :
    (after (exec (.resetChannels 15 0) ((frameAt (assemblingCh 6 16 1) 8 0 0).setChan 3 (assemblingCh 7 9 2)))).map
      (fun t => (t.ch 0, t.ch 3)) = some (ch7E8, ch7E8) := by decide

/-- D2: a Linear field across a byte boundary, `linear(1.0, 0)`. -/
theorem test_decode_linear :
    results (.decode 0 0) (decState (slotWords 0x800B0028 0x7E8 0 0 0x3FF00000 0) []) =
      some (0x21, 0xABC, 0x40A5780000000000, 0) := by decide +kernel

/-- D19: the first of two equal keys gives the label. -/
theorem test_decode_enum :
    results (.decode 0 0) (decState (slotWords 0x81070008 0x7E8 0 0 0 0x00030000)
      [(0x20000, 0x22), (0x20004, 5), (0x20008, 0x22), (0x2000C, 6), (0x20010, 0x33), (0x20014, 9)]) =
      some (0x22, 0x22, 0, 5) := by decide +kernel

/-- E2: the whole payload. -/
theorem test_extract :
    results (.extract 0 0) { decState (fun _ => 0) [] with xcfg := ⟨0, 63⟩ } = some (0x23, 0x1122334455ABCDEF, 0, 0) := by
  decide +kernel

/-- E5: one bit past the end. -/
theorem test_extract_oob :
    results (.extract 0 0) { decState (fun _ => 0) [] with xcfg := ⟨57, 7⟩ } = some (0x26, 0, 0, 0) := by decide +kernel

/-! ### The PCI rows -/

/-- A2 and A3: SF at its capacity, and one more. -/
theorem test_sf : chStatus (.sf 7) (frameAt ch7E8 8 0x33221107 0x77665544) = some 0x00070002 ∧
    chStatus (.sf 8) (frameAt ch7E8 8 0x33221108 0x77665544) = some 0x00001303 := by decide

/-- A5: SF_DL 0. -/
theorem test_sf_zero : chStatus (.sf 0) (frameAt ch7E8 3 0x00BBAA00 0) = some 0x00002103 := by decide

/-- A9 and A10: FF_DL 7 is too small, 8 is not. -/
theorem test_ff : chStatus (.ff 7) (frameAt ch7E8 8 0x22110710 0x66554433) = some 0x00005103 ∧
    chStatus (.ff 8) (frameAt ch7E8 8 0x22110810 0x66554433) = some 0x00060011 := by decide

/-- A12: FF_DL 101 in a machine of PAYLOAD_CAP 100. -/
theorem test_ff_cap :
    chStatus (.ff 101) { frameAt ch7E8 8 0x22116510 0x66554433 with sizes := ⟨256, 1024, 100⟩ } = some 0x00006103 := by decide

/-- A21, its last frame: the message ends inside a CF, whose other bytes are discarded. -/
theorem test_cf : chStatus (.cf 2) (frameAt (assemblingCh 13 16 2) 8 0x03020122 0x07060504) = some 0x00100032 := by decide

/-- A18 and A16: a wrong SN, and a CF in AwaitingFirst. -/
theorem test_cf_fails : chStatus (.cf 0) (frameAt (assemblingCh 6 16 1) 8 0x33221120 0) = some 0x00061213 ∧
    chStatus (.cf 1) (frameAt ch7E8 8 0x33221121 0x77665544) = some 0x00002203 := by decide

/-- A14. -/
theorem test_pciRsv3 : chStatus (.pciRsv3 0) (frameAt ch7E8 8 0x00000030 0) = some 0x00007103 := by decide

/-- R176: PCI_TYPE for a type of 4 to 7 too. -/
theorem test_pciRsv47 : chStatus (.pciRsv47 63) (frameAt ch7E8 1 0x7F 0) = some 0x00007103 := by decide

/-- A15, and A25 for a reserved type: a Failed channel ignores it. -/
theorem test_pciRsv8F : chStatus (.pciRsv8F 127) (frameAt ch7E8 1 0xFF 0) = some 0x00007103 ∧
    chStatus (.pciRsv8F 127) (frameAt { ch7E8 with state := .failed, err := .cfUnexpected } 1 0xFF 0) = some 0x00002203 := by decide

/-! ### Bus, interrupt, reset, text -/

/-- The port after one read. -/
def readAt (s : State) (a : BusAddr) : Option (Word × Bool) :=
  (after (step { s with schedule := [.read a] })).map fun t => (t.rdata, t.status.busErr)

/-- B1, B3, B4, B5, B6, B9, B10. -/
theorem test_bus_reads :
    readAt State.reset 0x000 = some (0x42465845, false) ∧ readAt State.reset 0x008 = some (0x01000004, false) ∧
    readAt State.reset 0x00C = some (0x04000FFF, false) ∧ readAt State.reset 0x002 = some (0, true) ∧
    readAt State.reset 0x044 = some (0, true) ∧ readAt State.reset 0x140 = some (0, true) ∧
    readAt State.reset 0x34000 = some (0, true) := by decide

/-- B15 and B17: a partial write, and the defined bits of CFG. -/
theorem test_bus_writes :
    (after (step (sched [.write 0x010 0x3 0b0001]))).map (fun t => (t.readGlobal .cfg, t.status.busErr)) = some (0, true) ∧
    (after (step (sched [.write 0x010 0xFFFFFFFF 0b1111]))).map (fun t => t.readGlobal .cfg) = some 3 := by decide

/-- C17, its first write. -/
theorem test_busy_write :
    (after (step { sched [.write 0x010 3 0b1111] with pending := some 0 })).map (fun t => (t.statusWord, t.readGlobal .cfg)) =
      some (0x00000011, 0) := by decide

/-- Q4 and Q5. -/
theorem test_irq :
    ({ frameAt { ch7E8 with event := true } 0 0 0 with irqEn := ⟨false, false, false, false, false⟩ } : State).irq = false ∧
    ({ frameAt { ch7E8 with event := true } 0 0 0 with irqEn := ⟨false, false, false, false, true⟩ } : State).irq = true := by decide

/-- R1: a pending command is discarded, the registers are reset, and slot 0 keeps its word. -/
theorem test_blockReset :
    (after (step { (frameAt ch7E8 0 0 0).setMem (stores [(0x10000, 0x80070018)]) with
        pending := some 4, cfg := ⟨true, true⟩, schedule := [.assertRst] })).map
      (fun t => (t.pending, t.statusWord, t.readGlobal .cfg, (t.ch 0).readReg .filter, t.mem.word? 0x10000)) =
      some (none, 0, 0, 0, some 0x80070018) := by decide +kernel

/-- V1's capture, the refusals of R111, and the example of R108. -/
theorem test_hostText :
    HostText.transcribe false
        ['7', '5', '8', '2', 'a', '1', '0', Char.ofNat 10, ' ', Char.ofNat 10, '7', '5', '8', '2', 'A', '2', '1', '0', '2'] =
      .ok [⟨0x758, [0x2A, 0x10]⟩, ⟨0x758, [0x2A, 0x21, 0x02]⟩] ∧
    HostText.transcribe false ['7', '5', '8', '2'] = .error .oddPayload ∧
    HostText.transcribe false ['7', '5'] = .error .shortId ∧
    HostText.transcribe true ['0', '0', '0', '0', '0', '7', '5', 'G'] = .error .notHex ∧
    HostText.transcribe false [' ', Char.ofNat 10] = .error .noLine ∧
    (HostText.assemble ['D', 'E', 'C', 'O', 'D', 'E', ' ', '1', ',', ' ', '3']).bind HostText.commandWord = some 0x00030105 := by
  decide +kernel

/-- N1, N3, N7, N8, N13, N14: the linear transform, among them the value that a fused multiply-add would get wrong. -/
theorem test_linear :
    F64.linear 150 0x3FD9191919191919 0 = 0x404D696969696969 ∧ F64.linear 15 0x3FD9191919191919 0 = 0x4017878787878787 ∧
    F64.linear 3 0x3FB999999999999A 0 = 0x3FD3333333333334 ∧ F64.linear 3 0x3FB999999999999A 0xBFD3333333333334 = 0 ∧
    F64.linear 255 0x7FE1CCF385EBC8A0 0 = 0x7FF0000000000000 ∧ F64.linear 1 1 0 = 1 := by decide +kernel

/-- R109 on P1's first slot: its ten words, D0 last. -/
theorem test_signal_linear :
    HostText.expand false
      ['S', 'I', 'G', 'N', 'A', 'L', ' ', '0', ':', ' ', 'o', 'f', 'f', '=', '2', '4', ' ', 'l', 'e', 'n', '=', '8', ' ', 'i', 'd', '=',
        '0', 'x', '7', 'C', '8', ' ', 't', 'a', '=', '0', ' ', 'p', 'f', 'x', '=', '6', '2', ' ', '1', '0', ' ', '2', '2', ' ', 'c',
        'a', 'r', 'e', '=', '0', 'x', '0', '7', ' ', 'l', 'i', 'n', 'e', 'a', 'r', '(', '1', '0', '0', '/', '2', '5', '5', ',', ' ',
        '0', ')'] =
      some ([(0x10004, 0x000007C8), (0x10008, 0x00070300), (0x1000C, 0x00221062), (0x10010, 0x00000000), (0x10014, 0x19191919),
        (0x10018, 0x3FD91919), (0x1001C, 0x00000000), (0x10020, 0x00000000), (0x10024, 0x00000000), (0x10000, 0x80070018)].map fun p => HostText.wr p.1 p.2) := by
  decide +kernel

/-- R109 on the first slots of P2 and P3: an enumeration, and a line without `pfx=` and `care=`. -/
theorem test_signal_enum :
    HostText.expand false
      ['S', 'I', 'G', 'N', 'A', 'L', ' ', '0', ':', ' ', 'o', 'f', 'f', '=', '2', '4', ' ', 'l', 'e', 'n', '=', '8', ' ', 'i', 'd', '=',
        '0', 'x', '7', '5', '8', ' ', 't', 'a', '=', '0', 'x', '2', 'A', ' ', 'p', 'f', 'x', '=', '6', '2', ' ', '2', '0', ' ', '2',
        '1', ' ', 'c', 'a', 'r', 'e', '=', '0', 'x', '0', '7', ' ', 'e', 'n', 'u', 'm', '(', '0', ',', '4', ')'] =
      some ([(0x10004, 0x00000758), (0x10008, 0x0007032A), (0x1000C, 0x00212062), (0x10010, 0x00000000), (0x10014, 0x00000000),
        (0x10018, 0x00000000), (0x1001C, 0x00000000), (0x10020, 0x00000000), (0x10024, 0x00040000), (0x10000, 0x81070018)].map fun p => HostText.wr p.1 p.2) ∧
    HostText.expand false
      ['S', 'I', 'G', 'N', 'A', 'L', ' ', '0', ':', ' ', 'o', 'f', 'f', '=', '2', '4', ' ', 'l', 'e', 'n', '=', '8', ' ', 'i', 'd', '=',
        '0', 'x', '7', '5', '8', ' ', 't', 'a', '=', '0', 'x', '2', 'A', ' ', 'l', 'i', 'n', 'e', 'a', 'r', '(', '1', ',', ' ', '-',
        '3', '0', ')'] =
      some ([(0x10004, 0x00000758), (0x10008, 0x0000002A), (0x1000C, 0x00000000), (0x10010, 0x00000000), (0x10014, 0x00000000),
        (0x10018, 0x3FF00000), (0x1001C, 0x00000000), (0x10020, 0xC03E0000), (0x10024, 0x00000000), (0x10000, 0x80070018)].map fun p => HostText.wr p.1 p.2) := by
  decide +kernel

/-- `<scale>` and `<offset>` (R109): the constants of 95_test_vectors, a tie to even above 2^53, and a 16-digit pattern. -/
theorem test_value :
    HostText.value ['0', '.', '1'] = some 0x3FB999999999999A ∧
    HostText.value ['1', 'e', '3', '0', '8'] = some 0x7FE1CCF385EBC8A0 ∧
    HostText.value ['-', '3', '0'] = some 0xC03E000000000000 ∧
    HostText.value ['1', '0', '0', '/', '6', '5', '5', '3', '5'] = some 0x3F59001900190019 ∧
    HostText.value ['9', '0', '0', '7', '1', '9', '9', '2', '5', '4', '7', '4', '0', '9', '9', '3'] = some 0x4340000000000000 ∧
    HostText.value ['0', 'x', '7', 'F', 'F', '0', '_', '0', '0', '0', '0', '_', '0', '0', '0', '0', '_', '0', '0', '0', '0'] =
      some 0x7FF0000000000000 := by
  decide +kernel

/-- P1's capture: its accesses, each POLL being the engine's turn and a read of STATUS. -/
theorem test_capture :
    HostText.expand false
      ['C', 'A', 'P', 'T', 'U', 'R', 'E', ' ', '7', 'C', '8', '0', '5', '6', '2', '1', '0', '2', '2', 'F', 'F', 'F', 'F'] =
      some ([HostText.wr 0x014 4, .engine, .read 0x018, HostText.wr 0x030 0x7C8, HostText.wr 0x034 6,
        HostText.wr 0x038 0x22106205, HostText.wr 0x03C 0x0000FFFF, HostText.wr 0x014 1, .engine, .read 0x018,
        HostText.wr 0x014 2, .engine, .read 0x018]) := by
  decide +kernel

/-! ### Witnesses

Concrete states and operands that meet an obligation's hypotheses, clause by clause. A witness is named after its obligation. -/

/-- A next state with a property, from the evaluation of the outcome. -/
theorem next_of {o : Host.Outcome State Fault Refusal} {P : State → Prop} [DecidablePred P]
    (h : ((after o).any fun t => decide (P t)) = true) : ∃ t, o = .next t ∧ P t := by
  cases o with
  | next t => exact ⟨t, rfl, by simpa [after] using h⟩
  | fault r => simp [after] at h
  | refused r => simp [after] at h

/-- The fault, or none where the machine does not fault. -/
def faultOf : Host.Outcome State Fault Refusal → Option Fault
  | .fault r => some r
  | .next _ => none
  | .refused _ => none

theorem fault_of {o : Host.Outcome State Fault Refusal} {r : Fault} (h : faultOf o = some r) : o = .fault r := by
  cases o <;> simp_all [faultOf]

/-- A state with a schedule and a pending command word. -/
def pendAt (s : State) (w : Word) (es : List Event) : State := { s with pending := some w, schedule := es }

/-- The machine at reset with a pending command word. -/
def pend (w : Word) (es : List Event) : State := pendAt State.reset w es

theorem precheck_of {s : State} {p : RejectDetail} (h : s.precheck = p) (hp : p ≠ .none) : precheckFails s p := by
  cases p with
  | none => exact absurd rfl hp
  | lenGt8 => exact .inl ⟨s.precheck_lenGt8_iff.1 h, rfl⟩
  | idRange => exact .inr (.inl ⟨(s.precheck_idRange_iff.1 h).1, (s.precheck_idRange_iff.1 h).2, rfl⟩)
  | noTa =>
    exact .inr (.inr ⟨(s.precheck_noTa_iff.1 h).1, (s.precheck_noTa_iff.1 h).2.1, (s.precheck_noTa_iff.1 h).2.2, rfl⟩)

theorem no_precheck {s : State} (h : s.precheck = .none) : ∀ p, ¬ precheckFails s p := by
  obtain ⟨h1, h2, h3⟩ := s.precheck_none_iff.1 h
  rintro p (⟨h, -⟩ | ⟨-, h, -⟩ | ⟨-, -, h, -⟩)
  · exact absurd h (by omega)
  · exact h2 h
  · exact h3 h

theorem routed_of {s : State} {c : Nat} (hp : s.precheck = .none) (hr : s.route = some c) : routedTo s c := by
  obtain ⟨h1, h2, h3⟩ := s.route_some hr
  refine ⟨no_precheck hp, h1, (s.accepts_iff _).1 h2, fun d hd hf => ?_⟩
  have := (s.accepts_iff (s.ch d)).2 hf
  rw [h3 d hd] at this
  exact absurd this (by decide)

/-- A reset while a command is pending and slot 0 is written; a power cycle. -/
theorem witness_BlockResetGivesListedValues :
    (pend 1 [.assertRst]).schedule = .assertRst :: [] ∧
    ((sched [.powerOn, .releaseRst]).setMem (stores [(0x10000, 1)])).schedule = .powerOn :: [.releaseRst] := ⟨rfl, rfl⟩

theorem witness_AccessDuringResetHasNoEffect :
    ({ sched [.read 0x000] with rst := true } : State).rst = true ∧
    ({ sched [.read 0x000] with rst := true } : State).schedule = .read 0x000 :: [] ∧
    ({ sched [.write 0x3FFFF 3 0] with rst := true } : State).schedule = .write 0x3FFFF 3 0 :: [] := ⟨rfl, rfl, rfl⟩

theorem witness_PowerOnThenReleaseGivesResetState :
    ({ small with schedule := [.powerOn, .releaseRst] } : State).schedule = .powerOn :: .releaseRst :: [] := rfl

/-- The smallest and the largest machine. -/
theorem witness_ResetStateIsSound :
    (⟨1, 1, 1, 8⟩ : Config.Params).legal ∧ (⟨16, 1024, 4096, 4095⟩ : Config.Params).legal ∧
    State.configure ⟨1, 1, 1, 8⟩ = some (State.resetOf ⟨1, 1, 1, 8⟩) ∧
    (State.configure ⟨16, 1024, 4096, 4095⟩).isSome = true := by decide

/-- Channel 0 of the small machine holds one byte of a message of 7, and the frame input registers hold its next frame. -/
def assemblingSmall : State :=
  ({ small with fin := ⟨0x7E8, 3, 0x00BBAA21, 0⟩, pending := some 1, schedule := [.engine] }.setChan 0 (assemblingCh 1 7 1)).setMem
    [(0x30000, 0x62)]

theorem witness_EveryStepKeepsSoundness :
    assemblingSmall.Sound ∧ ∃ t, step assemblingSmall = .next t ∧ ((t.ch 0).len = 3 ∧ (t.ch 0).state = .assembling) := by
  refine ⟨⟨by decide, fun c hc => ?_, by decide, fun c i hc hi => ?_, by decide⟩, next_of (by decide)⟩
  · have : c < 2 := hc
    interval_cases c <;> constructor <;> decide
  · have : c < 2 := hc
    interval_cases c
    · have : i < 1 := hi
      interval_cases i
      decide
    · exact absurd hi (by change ¬ i < 0; omega)

/-- Every bit of CH and IDX set; the least and the greatest FF_DL. -/
theorem witness_EncodeOfDecodeIsIdentity :
    decodeCmd 0x03FF0F06 = .ok (.extract 15 1023) ∧ (0x10#8).toNat / 16 = 1 ∧ (0x1F#8).toNat / 16 = 1 := by decide

/-- The engine moves by the schedule or by its emptiness; a next state and a fault. -/
theorem witness_StepRunsDecodedCommand :
    (engineNext (pend 0 []) [] ∧ (pend 0 []).pending = some 0 ∧ decodeCmd 0 = .ok (.nop 0 0)) ∧
    (engineNext (pend 5 [.engine, .read 0]) [.read 0] ∧ (pend 5 [.engine, .read 0]).pending = some 5 ∧
      decodeCmd 5 = .ok (.decode 0 0) ∧ exec (.decode 0 0) (pend 5 [.read 0]) = .fault (.unwrittenRamWord 0x10000)) :=
  ⟨⟨⟨rfl, .inr ⟨rfl, rfl⟩⟩, rfl, rfl⟩, ⟨rfl, .inl rfl⟩, rfl, rfl, rfl⟩

theorem witness_PlacedInstructionRunsNext :
    State.reset.channels ≠ [] ∧ decodeTableWord 8 0x10 = some (.ff 0) ∧ decodeTableWord 16 0xFF1F = some (.ff 4095) ∧
    decodeTableWord 32 0x00000001 = some (.pushFrame 0 0) := by decide

/-- Each failing check at a boundary value (C2 to C9), and a word that passes at the greatest CH and IDX. -/
theorem witness_InvalidCommandOnlyRecordsItsCause :
    engineNext (pend 7 [.engine]) [] ∧ (pend 7 [.engine]).pending = some 7 ∧ validate State.reset 7 = some .illegalOp ∧
    validate State.reset 0x00001000 = some .reservedBits ∧ validate State.reset 0x04000007 = some .reservedBits ∧
    validate State.reset 0x00000403 = some .badChannel ∧ validate State.reset 0x01000405 = some .badChannel ∧
    validate State.reset 0x01000305 = some .badIndex ∧ validate State.reset 0x00FF0305 = none ∧
    validate State.reset 0x03FF0306 = none ∧ validate State.reset 0x03FF0F04 = none := by
  refine ⟨⟨rfl, .inl rfl⟩, rfl, ?_⟩
  decide

theorem witness_AcceptedCommandWriteIssues :
    (sched [.write 0x014 0xFFFFFFFF 0b1111]).rst = false ∧ (sched [.write 0x014 0xFFFFFFFF 0b1111]).pending = none ∧
    (sched [.write 0x014 0xFFFFFFFF 0b1111]).schedule = .write 0x014 0xFFFFFFFF 0b1111 :: [] := ⟨rfl, rfl, rfl⟩

/-- By a commit, and by a reset. -/
theorem witness_OnlyCommitOrResetRemovesPending :
    ((pend 2 []).pending = some 2 ∧ ∃ t, step (pend 2 []) = .next t ∧ t.pending ≠ some 2) ∧
    ((pend 2 [.assertRst]).pending = some 2 ∧ ∃ t, step (pend 2 [.assertRst]) = .next t ∧ t.pending ≠ some 2) :=
  ⟨⟨rfl, next_of (by decide)⟩, rfl, next_of (by decide)⟩

theorem witness_PendingCommandEventuallyCommits :
    (pend 7 [.write 0 0 0, .read 0x018]).pending = some 7 ∧ (pend 7 [.write 0 0 0, .read 0x018]).rst = false ∧
    (pend 7 [.write 0 0 0, .read 0x018]).noReset := ⟨rfl, rfl, by unfold State.noReset; decide⟩

/-- A lost write and a bad read before a commit that ends, and before one that faults. -/
theorem witness_CommitIgnoresInterleavedAccesses :
    let es : List Event := [.write 0x010 3 0b1111, .read 0x044]
    (∀ w, (pend w (es ++ [.engine])).rst = false ∧ (pend w (es ++ [.engine])).pending = some w ∧
      (pend w (es ++ [.engine])).schedule = es ++ .engine :: []) ∧
    (∀ e, e ∈ es → access e = true) ∧
    (∃ t, step { pend 1 (es ++ [.engine]) with schedule := [.engine] } = .next t ∧ t.counters.drop = 1) ∧
    step { pend 5 (es ++ [.engine]) with schedule := [.engine] } = .fault (.unwrittenRamWord 0x10000) :=
  ⟨fun _ => ⟨rfl, rfl, rfl⟩, by decide, next_of (by decide), rfl⟩

theorem witness_BusyWriteOnlySetsOverrun :
    (pend 0 [.write 0x3FFFF 0 0]).rst = false ∧ (pend 0 [.write 0x3FFFF 0 0]).pending = some 0 ∧
    (pend 0 [.write 0x3FFFF 0 0]).schedule = .write 0x3FFFF 0 0 :: [] := ⟨rfl, rfl, rfl⟩

/-- A partial, a misaligned and an unmapped access, the last at the first address past each block. -/
theorem witness_BadAccessOnlySetsBusError :
    (sched [.write 0x010 3 0b0111]).rst = false ∧ (sched [.write 0x010 3 0b0111]).pending = none ∧
    (sched [.write 0x010 3 0b0111]).schedule = .write 0x010 3 0b0111 :: [] ∧ (0b0111#4 ≠ 0b1111) ∧
    (0x001#18).toNat % 4 ≠ 0 ∧ (0x3FFFF#18).toNat % 4 ≠ 0 ∧
    (∀ a ∈ [0x02C, 0x068, 0x140, 0x200, 0x10028, 0x14000, 0x22000, 0x34000, 0x3FFFC], State.reset.target a = .unmapped) ∧
    (sched [.read 0x34000]).schedule = .read 0x34000 :: [] := by
  refine ⟨rfl, rfl, rfl, ?_⟩
  decide

/-- The smallest and the largest machine; the last word of each block. -/
theorem witness_AddressMapNamesEveryWord :
    (State.resetOf ⟨1, 1, 1, 8⟩).params.legal ∧ (State.resetOf ⟨16, 1024, 4096, 4095⟩).params.legal ∧
    (∀ a ∈ [0x064, 0x13C, 0x13FE4, 0x21FFC, 0x33FFC], State.reset.target a ≠ .unmapped ∧ a < 2 ^ 18 ∧ a % 4 = 0) := by decide

theorem witness_HostReadHasNoSideEffect :
    (sched [.read 0x3FFFF]).schedule = .read 0x3FFFF :: [] ∧
    ∃ t, step (sched [.read 0x3FFFF]) = .next t ∧ ∃ t', step { t with schedule := [.read 0x3FFFF] } = .next t' ∧ t'.rdata = 0 :=
  ⟨rfl, _, rfl, _, rfl, rfl⟩

/-- The last LABEL and the masks of every kind of word; the greatest machine and its last channel, slot and LUT entry. -/
theorem witness_RwWordsReadBackTheirDefinedBits :
    (let s := sched [.write 0x21FFC 0xFFFFFFFF 0b1111, .read 0x21FFC]
     s.rst = false ∧ s.pending = none ∧ (0x21FFC#18).toNat % 4 = 0 ∧
      s.schedule = .write 0x21FFC 0xFFFFFFFF 0b1111 :: .read 0x21FFC :: [] ∧
      rwMask (s.target 0x21FFC) = some 0x0000FFFF ∧ rwMask (s.target 0x21FF8) = some 0xFFFFFFFF ∧
      rwMask (s.target 0x13FE4) = some 0x1FFF0FFF ∧ rwMask (s.target 0x10000) = some 0x813F7FFF ∧
      rwMask (s.target 0x134) = some 0x000000FF ∧ rwMask (s.target 0x130) = some 0x9FFFFFFF ∧
      rwMask (s.target 0x010) = some 3 ∧ rwMask (s.target 0x040) = some 0x003F7FFF) ∧
    (let s := State.resetOf ⟨16, 1024, 4096, 4095⟩
     s.rst = false ∧ s.pending = none ∧ s.params.legal ∧ 15 < s.numChannels ∧ 1023 < s.sizes.numSignals ∧
      rwMask (.desc 1023 9) = some 0x1FFF0FFF ∧ 4095 < s.sizes.enumDepth ∧ rwMask (.lut 4095 1) = some 0x0000FFFF) := by
  refine ⟨⟨rfl, rfl, rfl, rfl, ?_⟩, ?_⟩ <;> decide

theorem witness_ClearingWritesClearWhatTheyName :
    (sched [.write 0x018 0xFFFFFFFF 0b1111]).rst = false ∧ (sched [.write 0x018 0xFFFFFFFF 0b1111]).pending = none ∧
    (sched [.write 0x018 0xFFFFFFFF 0b1111]).schedule = .write 0x018 0xFFFFFFFF 0b1111 :: [] ∧
    (sched [.write 0x020 0x00000008 0b1111]).schedule = .write 0x020 0x00000008 0b1111 :: [] ∧
    (sched [.write 0x024 0 0b1111]).schedule = .write 0x024 0 0b1111 :: [] := ⟨rfl, rfl, rfl, rfl, rfl⟩

/-- The last read-only register, a channel's and a window's last word; a read of CMD. -/
theorem witness_ReadOnlyWritesAndCommandReadsDoNothing :
    (sched [.write 0x33FFC 1 0b1111]).rst = false ∧ (sched [.write 0x33FFC 1 0b1111]).pending = none ∧
    (0x33FFC#18).toNat % 4 = 0 ∧ (sched [.write 0x33FFC 1 0b1111]).schedule = .write 0x33FFC 1 0b1111 :: [] ∧
    (sched [.read 0x014]).schedule = .read 0x014 :: [] ∧
    (∀ a ∈ [0x000, 0x00C, 0x028, 0x050, 0x064, 0x108, 0x13C, 0x30000, 0x33FFC], readOnly (State.reset.target a) = true) := by
  refine ⟨rfl, rfl, rfl, rfl, rfl, ?_⟩
  decide

/-- The last byte that is shown, the first that is not, and the window's last. -/
theorem witness_PayloadWindowShowsTheFirstLenBytes :
    let s : State := { (frameAt ch7E8 0 0 0).setChan 3 (assemblingCh 3 16 1) with schedule := [.read 0x33000] }
    let s' : State := { State.reset with schedule := [.read 0x33FFC] }
    (s.rst = false ∧ 3 < s.numChannels ∧ (0x33000#18).toNat = 0x30000 + 0x1000 * 3 + 4 * (2 / 4) ∧
      s.schedule = .read 0x33000 :: [] ∧ 2 < (s.ch 3).len.toNat ∧ ¬ 3 < (s.ch 3).len.toNat) ∧
    (s'.rst = false ∧ 4095 < 4096 ∧ (0x33FFC#18).toNat = 0x30000 + 0x1000 * 3 + 4 * (4095 / 4) ∧
      s'.schedule = .read 0x33FFC :: []) := by
  refine ⟨⟨rfl, by decide, rfl, rfl, by decide, by decide⟩, rfl, by decide, rfl, rfl⟩

theorem witness_IdentificationRegistersRead :
    let s : State := { State.resetOf ⟨16, 1024, 4096, 4095⟩ with schedule := [.read 0x008] }
    let s' : State := { State.resetOf ⟨1, 1, 1, 8⟩ with schedule := [.read 0x00C] }
    (s.rst = false ∧ s.params.legal ∧ s.schedule = .read 0x008 :: []) ∧
    (s'.rst = false ∧ s'.params.legal ∧ s'.schedule = .read 0x00C :: []) ∧
    (sched [.read 0x000]).schedule = .read 0x000 :: [] ∧ (sched [.read 0x004]).schedule = .read 0x004 :: [] := by
  refine ⟨⟨rfl, by decide, rfl⟩, ⟨rfl, by decide, rfl⟩, rfl, rfl⟩

/-- The last word of the last slot, and the last LABEL. -/
theorem witness_UnwrittenRamReadsShowReservedBitsZero :
    (sched [.read 0x13FE4]).rst = false ∧ (0x13FE4#18).toNat % 4 = 0 ∧ State.reset.target 0x13FE4 = .desc 255 9 ∧
    rwMask (State.reset.target 0x13FE4) = some 0x1FFF0FFF ∧ (sched [.read 0x13FE4]).mem.word? 0x13FE4 = none ∧
    (sched [.read 0x13FE4]).schedule = .read 0x13FE4 :: [] ∧ State.reset.target 0x21FFC = .lut 1023 1 ∧
    State.reset.mem.word? 0x21FFC = none := by decide

theorem witness_InterruptLineIsItsFunction : (State.resetOf ⟨16, 1024, 4096, 4095⟩).numChannels ≤ 16 := by decide

/-- The greatest machine, and its first and last channel. -/
theorem witness_StatusWordsHoldTheirFields :
    let s := State.resetOf ⟨16, 1024, 4096, 4095⟩
    s.rst = false ∧ s.numChannels ≤ 16 ∧ 0 < s.numChannels ∧ 15 < s.numChannels := by decide

/-- Each pre-check at its boundary, and a frame that fails none at the greatest length and 11-bit ID. -/
theorem witness_RejectedFrameIsOnlyCounted :
    pushes (.cf 15) = true ∧ pushes (.pushFrame 0 0) = true ∧ precheckFails (frameAt ch7E8 9 0 0) .lenGt8 ∧
    precheckFails { State.reset with fin := ⟨0x800, 8, 0, 0⟩ } .idRange ∧
    precheckFails { State.reset with fin := ⟨0x7FF, 0, 0, 0⟩, cfg := ⟨false, true⟩ } .noTa ∧
    (∀ p, ¬ precheckFails { State.reset with fin := ⟨0x7FF, 8, 0, 0⟩, cfg := ⟨false, true⟩ } p) ∧
    (∀ p, ¬ precheckFails { State.reset with fin := ⟨0x1FFFFFFF, 0, 0, 0⟩, cfg := ⟨true, false⟩ } p) :=
  ⟨rfl, rfl, precheck_of (by decide) (by decide), precheck_of (by decide) (by decide), precheck_of (by decide) (by decide),
    no_precheck (by decide), no_precheck (by decide)⟩

/-- Every filter disabled; the counter about to saturate. -/
theorem witness_UnmatchedFrameIsOnlyDropped :
    let s : State := { State.reset with fin := ⟨0x7E8, 8, 0, 0⟩, counters := ⟨0xFFFF, 0, .none⟩ }
    pushes (.pciRsv8F 127) = true ∧ (∀ p, ¬ precheckFails s p) ∧ (∀ c, c < s.numChannels → ¬ filterMatches s c) := by
  refine ⟨rfl, no_precheck (by decide), fun c hc hf => ?_⟩
  have : c < 4 := hc
  interval_cases c <;> exact absurd hf.1 (by decide)

/-- The smallest and the largest single frame, as a row and pushed. -/
theorem witness_SingleFrameCompletesTheChannel :
    (pushesRow (.sf 1) (.sf 1) (frameAt ch7E8 2 0x00006201 0) ∧ routedTo (frameAt ch7E8 2 0x00006201 0) 0 ∧
      ((frameAt ch7E8 2 0x00006201 0).ch 0).state = .awaitingFirst ∧ 1 ≤ (1#4).toNat ∧
      (1#4).toNat ≤ (frameAt ch7E8 2 0x00006201 0).n - 1) ∧
    (pushesRow (.pushFrame 0 0) (.sf 7) (frameAt ch7E8 8 0x33221107 0x77665544) ∧
      routedTo (frameAt ch7E8 8 0x33221107 0x77665544) 0 ∧ (7#4).toNat ≤ (frameAt ch7E8 8 0x33221107 0x77665544).n - 1) :=
  ⟨⟨.inl rfl, routed_of (by decide) (by decide), by decide, by decide, by decide⟩,
    .inr ⟨0, 0, rfl, by decide⟩, routed_of (by decide) (by decide), by decide⟩

/-- The smallest FF_DL in a frame of two bytes, and the largest, the capacity. -/
theorem witness_FirstFrameStartsTheMessage :
    (pushesRow (.ff 8) (.ff 8) (frameAt ch7E8 2 0x00000810 0) ∧ routedTo (frameAt ch7E8 2 0x00000810 0) 0 ∧
      ((frameAt ch7E8 2 0x00000810 0).ch 0).state = .awaitingFirst ∧ 2 ≤ (frameAt ch7E8 2 0x00000810 0).n ∧
      7 - (frameAt ch7E8 2 0x00000810 0).k < (8#12).toNat ∧ (8#12).toNat ≤ State.reset.sizes.payloadCap) ∧
    (pushesRow (.pushFrame 0 0) (.ff 4095) (frameAt ch7E8 8 0x2211FF1F 0x66554433) ∧
      routedTo (frameAt ch7E8 8 0x2211FF1F 0x66554433) 0 ∧ (4095#12).toNat ≤ State.reset.sizes.payloadCap) :=
  ⟨⟨.inl rfl, routed_of (by decide) (by decide), by decide, by decide, by decide, by decide⟩,
    .inr ⟨0, 0, rfl, by decide⟩, routed_of (by decide) (by decide), by decide⟩

/-- A frame that does not complete the message, with the counter about to wrap; one that does; and one of a header alone. -/
theorem witness_ConsecutiveFrameAppends :
    (let s := frameAt (assemblingCh 6 16 15) 8 0x3322112F 0x77665544
     pushesRow (.cf 15) (.cf 15) s ∧ routedTo s 0 ∧ (s.ch 0).state = .assembling ∧ 1 ≤ s.n ∧ 15 = (s.ch 0).nextSeq ∧
      (s.ch 0).len.toNat + min (s.n - 1) ((s.ch 0).total.toNat - (s.ch 0).len.toNat) ≠ (s.ch 0).total.toNat) ∧
    (let s := frameAt (assemblingCh 9 16 0) 8 0x33221120 0x77665544
     pushesRow (.pushFrame 0 0) (.cf 0) s ∧ routedTo s 0 ∧
      (s.ch 0).len.toNat + min (s.n - 1) ((s.ch 0).total.toNat - (s.ch 0).len.toNat) = (s.ch 0).total.toNat) ∧
    (let s := frameAt (assemblingCh 9 16 0) 1 0x20 0
     routedTo s 0 ∧ min (s.n - 1) ((s.ch 0).total.toNat - (s.ch 0).len.toNat) = 0) :=
  ⟨⟨.inl rfl, routed_of (by decide) (by decide), by decide, by decide, by decide, by decide⟩,
    ⟨.inr ⟨0, 0, rfl, by decide⟩, routed_of (by decide) (by decide), by decide⟩, routed_of (by decide) (by decide), by decide⟩

/-- Each malformed frame (A4 to A15), at the boundaries of FF_DL. -/
theorem witness_MalformedFrameFailsWithItsDetail :
    (pushesRow (.cf 0) (.cf 0) (frameAt ch7E8 0 0 0) ∧ routedTo (frameAt ch7E8 0 0 0) 0 ∧
      ((frameAt ch7E8 0 0 0).ch 0).state ≠ .failed ∧ pushes (.cf 0) = true ∧ (∀ x y, Instr.cf 0 ≠ .pushFrame x y) ∧
      (frameAt ch7E8 0 0 0).n = 0) ∧
    (routedTo (frameAt ch7E8 1 0 0) 0 ∧ pushesRow (.pushFrame 0 0) (.sf 0) (frameAt ch7E8 1 0 0) ∧
      (frameAt ch7E8 1 0 0).n ≠ 0) ∧
    (routedTo (frameAt ch7E8 1 0x10 0) 0 ∧ (frameAt ch7E8 1 0x10 0).n = 1) ∧
    (routedTo (frameAt ch7E8 2 0x10 0) 0 ∧ 2 ≤ (frameAt ch7E8 2 0x10 0).n ∧ (0#12).toNat = 0) ∧
    ((7#12).toNat ≠ 0 ∧ (7#12).toNat ≤ 7 - (frameAt ch7E8 2 0x0710 0).k) ∧
    (let s : State := { frameAt ch7E8 2 0x6510 0 with sizes := ⟨256, 1024, 100⟩ }
     routedTo s 0 ∧ 2 ≤ s.n ∧ 7 - s.k < (101#12).toNat ∧ s.sizes.payloadCap < (101#12).toNat) ∧
    reservedRow (.pciRsv3 0) ∧ reservedRow (.pciRsv47 63) ∧ reservedRow (.pciRsv8F 127) := by
  refine ⟨⟨.inl rfl, routed_of (by decide) (by decide), by decide, rfl, fun _ _ h => Instr.noConfusion h, by decide⟩,
    ⟨routed_of (by decide) (by decide), .inr ⟨0, 0, rfl, by decide⟩, by decide⟩, ⟨routed_of (by decide) (by decide), by decide⟩,
    ⟨routed_of (by decide) (by decide), by decide, by decide⟩, ⟨by decide, by decide⟩,
    ⟨routed_of (by decide) (by decide), by decide, by decide, by decide⟩, .inl ⟨_, rfl⟩, .inr (.inl ⟨_, rfl⟩), .inr (.inr ⟨_, rfl⟩)⟩

/-- Each cell, at the boundary values of SF_DL, FF_DL and SN. -/
theorem witness_UnexpectedFrameFailsWithItsDetail :
    (let s := frameAt ch7E8 7 0x07 0
     routedTo s 0 ∧ s.n ≠ 0 ∧ pushesRow (.sf 7) (.sf 7) s ∧ (7#4).toNat ≠ 0 ∧ (s.ch 0).state = .awaitingFirst ∧
      s.n - 1 < (7#4).toNat) ∧
    (let s := frameAt (assemblingCh 6 16 1) 8 0x0810 0
     routedTo s 0 ∧ s.n ≠ 0 ∧ pushesRow (.pushFrame 0 0) (.ff 8) s ∧ 2 ≤ s.n ∧ 7 - s.k < (8#12).toNat ∧
      (8#12).toNat ≤ s.sizes.payloadCap ∧ (s.ch 0).state = .assembling) ∧
    (let s := frameAt { ch7E8 with state := .complete, len := 1, total := 1 } 1 0x2F 0
     routedTo s 0 ∧ s.n ≠ 0 ∧ pushesRow (.cf 15) (.cf 15) s ∧ (s.ch 0).state = .complete) ∧
    (let s := frameAt ch7E8 1 0x21 0
     routedTo s 0 ∧ s.n ≠ 0 ∧ pushesRow (.pushFrame 0 0) (.cf 1) s ∧ (s.ch 0).state = .awaitingFirst) ∧
    (let s := frameAt (assemblingCh 6 16 1) 1 0x20 0
     routedTo s 0 ∧ s.n ≠ 0 ∧ pushesRow (.cf 0) (.cf 0) s ∧ (s.ch 0).state = .assembling ∧ 0 ≠ (s.ch 0).nextSeq) :=
  ⟨⟨routed_of (by decide) (by decide), by decide, .inl rfl, by decide, by decide, by decide⟩,
    ⟨routed_of (by decide) (by decide), by decide, .inr ⟨0, 0, rfl, by decide⟩, by decide, by decide, by decide, by decide⟩,
    ⟨routed_of (by decide) (by decide), by decide, .inl rfl, by decide⟩,
    ⟨routed_of (by decide) (by decide), by decide, .inr ⟨0, 0, rfl, by decide⟩, by decide⟩,
    routed_of (by decide) (by decide), by decide, .inl rfl, by decide, by decide⟩

theorem witness_FailedChannelIgnoresFrames :
    let s := frameAt { ch7E8 with state := .failed, err := .badSn } 8 0x30 0
    pushes (.pciRsv3 0) = true ∧ routedTo s 0 ∧ (s.ch 0).state = .failed :=
  ⟨rfl, routed_of (by decide) (by decide), by decide⟩

/-- Every row that pushes; a channel it is not routed to; addresses beside the buffer. -/
theorem witness_PushedFrameTouchesOneChannelOnly :
    (∀ i ∈ [Instr.pushFrame 0 0, .sf 7, .ff 8, .cf 0, .pciRsv3 0, .pciRsv47 0, .pciRsv8F 0], pushes i = true) ∧
    (let s := frameAt ch7E8 8 0x33221107 0x77665544
     routedTo s 0 ∧ ¬ routedTo s 1 ∧ ∀ c, routedTo s c → 0x31000 < bufAddr c 0 ∨ bufAddr c 0 + 4096 ≤ 0x31000) := by
  have h : ∀ c, routedTo (frameAt ch7E8 8 0x33221107 0x77665544) c → c = 0 := fun c hr => by
    by_contra hc
    exact hr.2.2.2 0 (Nat.pos_of_ne_zero hc) ⟨by decide, by decide, .inl rfl⟩
  refine ⟨by decide, routed_of (by decide) (by decide), fun hr => absurd (h 1 hr) (by decide), fun c hr => ?_⟩
  rw [h c hr]
  decide

theorem witness_ChResetClearsItsChannel :
    (15#4).toNat < (State.resetOf ⟨16, 1, 1, 8⟩).numChannels ∧ (3#4).toNat < State.reset.numChannels := by decide

/-- No payload; one bit past the end; the last bit; the whole payload. -/
theorem witness_ExtractGivesTheField :
    let s : State := { decState (fun _ => 0) [] with xcfg := ⟨57, 7⟩ }
    let s' : State := { decState (fun _ => 0) [] with xcfg := ⟨63, 0⟩ }
    ((3#4).toNat < s.numChannels ∧ (s.ch 3).state ≠ .complete) ∧
    ((0#4).toNat < s.numChannels ∧ (s.ch 0).state = .complete ∧
      s.xcfg.bitOffset.toNat + (s.xcfg.lenM1.toNat + 1) > 8 * (s.ch 0).len.toNat) ∧
    (s'.xcfg.bitOffset.toNat + (s'.xcfg.lenM1.toNat + 1) ≤ 8 * (s'.ch 0).len.toNat) := by decide +kernel

theorem witness_ExtractedFieldIsMsbFirst : 0 % 8 + 8 ≤ 8 ∧ 63 % 8 + 1 ≤ 8 := by decide
/-- A slot whose ten words are written holds whatever a check may read. -/
theorem slotHolds_of {s : State} {ch : BitVec 4} {idx : BitVec 10} {d : Nat → Word} {need : Nat → Prop}
    (hc : ch.toNat < s.numChannels) (hi : idx.toNat < s.sizes.numSignals) (hn : ∀ w, need w → w < 10)
    (hw : ∀ w, w < 10 → s.mem.word? (descAddr idx.toNat w) = some (d w)) : slotHolds s ch idx d need :=
  ⟨hc, hi, fun w h => hw w (hn w h)⟩

theorem validity_lt {d : Nat → Word} : ∀ w, readForValidity d w → w < 10 := by
  rintro w (rfl | ⟨rfl, -⟩ | ⟨rfl, -⟩) <;> decide

theorem id_lt {d : Nat → Word} : ∀ w, readForId d w → w < 10 := by
  rintro w (h | rfl)
  · exact validity_lt w h
  · decide

theorem pfx_lt {d : Nat → Word} : ∀ w, readForPfx d w → w < 10 := by
  rintro w (h | ⟨rfl, -⟩ | ⟨rfl, -⟩)
  · exact id_lt w h
  · decide
  · decide

theorem linear_lt {d : Nat → Word} : ∀ w, readForLinear d w → w < 10 := by
  rintro w (h | h)
  · exact pfx_lt w h
  · omega

/-- A Linear slot of the last eight bits of the T-DEC payload, with the whole payload as its pattern but for its first byte. -/
def pfxWords (w : Nat) : Word :=
  match w with
  | 0 => 0x80070038 | 1 => 0x7E8 | 2 => 0x00FE0800 | 3 => 0x443322FF | 4 => 0xEFCDAB55 | 6 => 0x3FF00000
  | _ => 0

theorem pfxWords_accepted : dAccepted (decState pfxWords []) 0 pfxWords := by
  refine ⟨?_, ⟨by decide +kernel, fun h => ?_⟩, by decide +kernel, by decide +kernel, fun j hj => ?_⟩
  · unfold dInvalid dValid dEnum
    decide +kernel
  · exact absurd h (by decide +kernel)
  · have : j < 8 := hj
    unfold dPfxCare
    revert j
    decide +kernel

theorem pfxWords_holds {need : Nat → Prop} (hn : ∀ w, need w → w < 10) : slotHolds (decState pfxWords []) 0 0 pfxWords need :=
  slotHolds_of (by decide +kernel) (by decide +kernel) hn (by decide +kernel)

/-- Each check at a boundary: only D0 written, of an invalid slot (D27); PFX_LEN 9; an ID one off; another channel with no payload; a
wrong pattern byte; a field one bit past the end. -/
theorem witness_DecodeChecksComeInOrder :
    (slotHolds (State.reset.setMem (stores [(0x10000, 0)])) 3 0 (fun _ => 0) (readForValidity fun _ => 0) ∧
      dInvalid (State.reset.setMem (stores [(0x10000, 0)])) (fun _ => 0)) ∧
    (let d := slotWords 0x80070000 0x7E8 0x0900 0 0 0
     slotHolds (decState d []) 0 0 d (readForValidity d) ∧ dInvalid (decState d []) d) ∧
    (let d := slotWords 0x80070000 0x7E9 0 0 0 0
     slotHolds (decState d []) 0 0 d (readForId d) ∧ ¬ dInvalid (decState d []) d ∧ ¬ dIdMatch (decState d []) 0 d) ∧
    (let d := slotWords 0x80070000 0 0 0 0 0
     slotHolds (decState d []) 3 0 d (readForId d) ∧ ¬ dInvalid (decState d []) d ∧ dIdMatch (decState d []) 3 d ∧
       ((decState d []).ch 3).state ≠ .complete) ∧
    (let d := slotWords 0x80070000 0x7E8 0x00010100 0x12 0 0
     slotHolds (decState d []) 0 0 d (readForPfx d) ∧ ¬ dInvalid (decState d []) d ∧ dIdMatch (decState d []) 0 d ∧
       ((decState d []).ch 0).state = .complete ∧ ¬ dPfxMatch (decState d []) 0 d) ∧
    (let d := slotWords 0x80070039 0x7E8 0 0 0 0
     slotHolds (decState d []) 0 0 d (readForPfx d) ∧ dAccepted (decState d []) 0 d ∧
       dBitOffset d + dBitLength d > 8 * ((decState d []).ch 0).len.toNat) := by
  refine ⟨⟨⟨by decide, by decide, ?_⟩, .inl (by unfold dValid; decide)⟩, ⟨?_, ?_⟩, ⟨?_, ?_, ?_⟩, ⟨?_, ?_, ?_, ?_⟩,
    ⟨?_, ?_, ?_, ?_, ?_⟩, ?_, ?_, ?_⟩
  · rintro w (rfl | ⟨-, h⟩ | ⟨-, h, -⟩)
    · decide +kernel
    · exact absurd h (by unfold dValid; decide)
    · exact absurd h (by unfold dValid; decide)
  · exact slotHolds_of (by decide +kernel) (by decide +kernel) validity_lt (by decide +kernel)
  · exact .inr (.inl (by decide))
  · exact slotHolds_of (by decide +kernel) (by decide +kernel) id_lt (by decide +kernel)
  · unfold dInvalid dValid dEnum
    decide +kernel
  · unfold dIdMatch
    decide +kernel
  · exact slotHolds_of (by decide +kernel) (by decide +kernel) id_lt (by decide +kernel)
  · unfold dInvalid dValid dEnum
    decide +kernel
  · unfold dIdMatch
    decide +kernel
  · decide +kernel
  · exact slotHolds_of (by decide +kernel) (by decide +kernel) pfx_lt (by decide +kernel)
  · unfold dInvalid dValid dEnum
    decide +kernel
  · unfold dIdMatch
    decide +kernel
  · decide +kernel
  · intro h
    exact absurd (h.2 0 (by decide) (by unfold dPfxCare; decide)) (by decide +kernel)
  · exact slotHolds_of (by decide +kernel) (by decide +kernel) pfx_lt (by decide +kernel)
  · refine ⟨?_, ?_, by decide +kernel, by decide +kernel, fun j hj => absurd hj (by change ¬ j < 0; omega)⟩
    · unfold dInvalid dValid dEnum
      decide +kernel
    · unfold dIdMatch
      decide +kernel
  · decide +kernel

/-- A pattern of eight bytes and a field that ends at the payload's last bit. -/
theorem witness_DecodeOfLinearSignal :
    slotHolds (decState pfxWords []) 0 0 pfxWords (readForLinear pfxWords) ∧ dInBounds (decState pfxWords []) 0 pfxWords ∧
    ¬ dEnum pfxWords :=
  ⟨pfxWords_holds linear_lt, ⟨pfxWords_accepted, by decide +kernel⟩, by unfold dEnum; decide⟩

/-- An EnumMap slot of payload byte 1, whose range is the last two LUT entries. -/
def enumWords : Nat → Word := slotWords 0x81070008 0x7E8 0 0 0 0x000203FE

/-- The keys of the range match at the second entry, or nowhere. -/
theorem witness_DecodeOfEnumSignal :
    let key : Nat → Word := fun x => if x = 1022 then 0x21 else 0x22
    let s := decState enumWords [(0x21FF0, 0x21), (0x21FF8, 0x22), (0x21FFC, 0xFFFF)]
    (slotHolds s 0 0 enumWords (readForPfx enumWords) ∧ dInBounds s 0 enumWords ∧ dEnum enumWords ∧
      dLutBase enumWords ≤ 1023 ∧ 1023 < dLutBase enumWords + dLutCount enumWords ∧
      (∀ x, dLutBase enumWords ≤ x → x ≤ 1023 → s.mem.word? (lutAddr x 0) = some (key x)) ∧
      (key 1023).toNat = fieldSum s 0 8 8 ∧ (∀ x, dLutBase enumWords ≤ x → x < 1023 → (key x).toNat ≠ fieldSum s 0 8 8) ∧
      s.mem.word? (lutAddr 1023 1) = some 0xFFFF) ∧
    (let s' := decState enumWords [(0x21FF0, 0x21), (0x21FF8, 0x23)]
     slotHolds s' 0 0 enumWords (readForPfx enumWords) ∧ dInBounds s' 0 enumWords ∧
      ∀ x, dLutBase enumWords ≤ x → x < dLutBase enumWords + dLutCount enumWords →
        s'.mem.word? (lutAddr x 0) = some (if x = 1022 then 0x21 else 0x23) ∧
          (if x = 1022 then (0x21 : Word) else 0x23).toNat ≠ fieldSum s' 0 8 8) := by
  have hb : dLutBase enumWords = 1022 := by decide
  have hc : dLutCount enumWords = 2 := by decide
  refine ⟨⟨?_, ?_, by unfold dEnum; decide, by decide, by decide, fun x h1 h2 => ?_, by decide +kernel, fun x h1 h2 => ?_,
    by decide +kernel⟩, ?_, ?_, fun x h1 h2 => ?_⟩
  · exact slotHolds_of (by decide +kernel) (by decide +kernel) pfx_lt (by decide +kernel)
  · refine ⟨⟨?_, ?_, by decide +kernel, by decide +kernel, fun j hj => absurd hj (by change ¬ j < 0; omega)⟩, by decide +kernel⟩
    · unfold dInvalid dValid dEnum
      decide +kernel
    · unfold dIdMatch
      decide +kernel
  · rw [hb] at h1
    interval_cases x <;> decide +kernel
  · rw [hb] at h1
    interval_cases x
    decide +kernel
  · exact slotHolds_of (by decide +kernel) (by decide +kernel) pfx_lt (by decide +kernel)
  · refine ⟨⟨?_, ?_, by decide +kernel, by decide +kernel, fun j hj => absurd hj (by change ¬ j < 0; omega)⟩, by decide +kernel⟩
    · unfold dInvalid dValid dEnum
      decide +kernel
    · unfold dIdMatch
      decide +kernel
  · rw [hb] at h1
    rw [hb, hc] at h2
    interval_cases x <;> decide +kernel

/-- Operands at their last legal value, and one past it. -/
theorem witness_DecodeAndExtractWriteOnlyResults :
    (∃ t, exec (.decode 0 0) (decState pfxWords []) = .next t ∧ t.result.raw = 0xEF) ∧
    (∃ t, exec (.extract 3 1023) State.reset = .next t ∧ t.result.code = .noPayload) ∧
    (3#4).toNat < State.reset.numChannels ∧ (0#10).toNat < State.reset.sizes.numSignals ∧
    (∃ t, exec (.decode 3 256) State.reset = .next t ∧ t.status.cause = .badIndex) ∧
    ¬ (256#10).toNat < State.reset.sizes.numSignals ∧
    (∃ t, exec (.extract 4 0) State.reset = .next t ∧ t.status.cause = .badChannel) ∧ ¬ (4#4).toNat < State.reset.numChannels :=
  ⟨next_of (by decide +kernel), next_of (by decide), by decide, by decide, next_of (by decide), by decide, next_of (by decide),
    by decide⟩

/-- A slot whose words `ws` are written, as `d` has them, against the T-DEC payload; the others were never written. -/
def partSlot (ws : List Nat) (d : Nat → Word) : State :=
  (decState d []).setMem
    (stores (ws.map (fun w => (descAddr 0 w, d w)) ++ [(0x30000, 0x44332211), (0x30004, 0xEFCDAB55)]))

/-- It holds what a check needs, where that is among the written words. -/
theorem partSlot_holds {ws : List Nat} {d : Nat → Word} {need : Nat → Prop} (hn : ∀ w, need w → w ∈ ws)
    (hw : ∀ w ∈ ws, (partSlot ws d).mem.word? (descAddr 0 w) = some (d w)) : slotHolds (partSlot ws d) 0 0 d need :=
  ⟨by change 0 < 4; decide, by change 0 < 256; decide, fun w h => hw w (hn w h)⟩

theorem pfxWords_checks (ws : List Nat) :
    ¬ dInvalid (partSlot ws pfxWords) pfxWords ∧ dIdMatch (partSlot ws pfxWords) 0 pfxWords ∧
      ((partSlot ws pfxWords).ch 0).state = .complete := by
  have hd : (partSlot ws pfxWords).sizes.enumDepth = 1024 := rfl
  refine ⟨?_, ⟨?_, fun h => absurd h Bool.false_ne_true⟩, rfl⟩
  · unfold dInvalid dValid dEnum
    rw [hd]
    decide +kernel
  · change dMatchId pfxWords = (0x7E8#29).toNat
    decide

/-- The words that each check of a descriptor reads, and no other: what the next word's clause needs. -/
theorem witness_OnlyUnwrittenWordsStopTheMachine :
    (exec (.decode 3 255) State.reset = .fault (.unwrittenRamWord (descAddr 255 0)) ∧
      slotHolds State.reset 3 255 pfxWords (fun _ => False) ∧ State.reset.mem.word? (descAddr (255#10).toNat 0) = none) ∧
    (dValid pfxWords ∧ slotHolds (partSlot [0] pfxWords) 0 0 pfxWords (· = 0) ∧
      (partSlot [0] pfxWords).mem.word? (descAddr 0 2) = none) ∧
    (dValid enumWords ∧ dPfxLen enumWords ≤ 8 ∧ dEnum enumWords ∧ dBitLength enumWords ≤ 32 ∧
      slotHolds (partSlot [0, 2] enumWords) 0 0 enumWords (fun w => w = 0 ∨ w = 2) ∧
      (partSlot [0, 2] enumWords).mem.word? (descAddr 0 9) = none) ∧
    (slotHolds (partSlot [0, 2] pfxWords) 0 0 pfxWords (readForValidity pfxWords) ∧
      ¬ dInvalid (partSlot [0, 2] pfxWords) pfxWords ∧ (partSlot [0, 2] pfxWords).mem.word? (descAddr 0 1) = none) ∧
    (slotHolds (partSlot [0, 1, 2] pfxWords) 0 0 pfxWords (readForId pfxWords) ∧
      dIdMatch (partSlot [0, 1, 2] pfxWords) 0 pfxWords ∧ ((partSlot [0, 1, 2] pfxWords).ch 0).state = .complete ∧
      5 ≤ dPfxLen pfxWords ∧ (partSlot [0, 1, 2] pfxWords).mem.word? (descAddr 0 3) = none) ∧
    (slotHolds (partSlot [0, 1, 2, 3] pfxWords) 0 0 pfxWords (fun w => readForId pfxWords w ∨ w = 3) ∧
      (partSlot [0, 1, 2, 3] pfxWords).mem.word? (descAddr 0 4) = none) := by
  have hv : ∀ {w}, readForValidity pfxWords w → w ∈ [0, 2] := by
    rintro w (rfl | ⟨rfl, -⟩ | ⟨-, -, -, h, -⟩)
    · decide
    · decide
    · exact absurd h (by unfold dEnum; decide)
  have hi : ∀ {w}, readForId pfxWords w → w ∈ [0, 1, 2] := by
    rintro w (h | rfl)
    · have := hv h
      fin_cases this <;> decide
    · decide
  refine ⟨⟨rfl, ⟨by decide, by decide, fun _ h => h.elim⟩, rfl⟩, ⟨by unfold dValid; decide, partSlot_holds ?_ ?_, ?_⟩,
    ⟨by unfold dValid; decide, by decide, by unfold dEnum; decide, by decide, partSlot_holds ?_ ?_, ?_⟩,
    ⟨partSlot_holds (fun _ => hv) ?_, (pfxWords_checks _).1, ?_⟩,
    ⟨partSlot_holds (fun _ => hi) ?_, (pfxWords_checks _).2.1, (pfxWords_checks _).2.2, by decide, ?_⟩, partSlot_holds ?_ ?_, ?_⟩
  · rintro w rfl
    decide
  · decide +kernel
  · decide +kernel
  · rintro w (rfl | rfl) <;> decide
  · decide +kernel
  · decide +kernel
  · decide +kernel
  · decide +kernel
  · decide +kernel
  · decide +kernel
  · rintro w (h | rfl)
    · have := hi h
      fin_cases this <;> decide
    · decide
  · decide +kernel
  · decide +kernel

/-- The first and the last word of SCALE and OFFSET; the KEY and the LABEL of the last entry of a range. -/
theorem witness_OnlyUnwrittenWordsStopTheMachine_transform :
    (slotHolds (partSlot [0, 1, 2, 3, 4] pfxWords) 0 0 pfxWords (fun x => readForPfx pfxWords x ∨ (5 ≤ x ∧ x < 5)) ∧
      dInBounds (partSlot [0, 1, 2, 3, 4] pfxWords) 0 pfxWords ∧ ¬ dEnum pfxWords ∧
      (partSlot [0, 1, 2, 3, 4] pfxWords).mem.word? (descAddr 0 5) = none) ∧
    exec (.decode 0 0) (partSlot [0, 1, 2, 3, 4, 5, 6, 7] pfxWords) = .fault (.unwrittenRamWord (descAddr 0 8)) ∧
    (let s := decState enumWords [(0x21FF0, 0x21)]
     slotHolds s 0 0 enumWords (readForPfx enumWords) ∧ dInBounds s 0 enumWords ∧ dEnum enumWords ∧
      dLutBase enumWords ≤ 1023 ∧ 1023 < dLutBase enumWords + dLutCount enumWords ∧
      (∀ x, dLutBase enumWords ≤ x → x < 1023 →
        s.mem.word? (lutAddr x 0) = some 0x21 ∧ (0x21 : Word).toNat ≠ fieldSum s 0 (dBitOffset enumWords) (dBitLength enumWords)) ∧
      s.mem.word? (lutAddr 1023 0) = none) ∧
    (let s := decState enumWords [(0x21FF0, 0x22)]
     s.mem.word? (lutAddr 1022 0) = some 0x22 ∧
      (0x22 : Word).toNat = fieldSum s 0 (dBitOffset enumWords) (dBitLength enumWords) ∧ s.mem.word? (lutAddr 1022 1) = none ∧
      exec (.decode 0 0) s = .fault (.unwrittenRamWord (lutAddr 1022 1))) := by
  have hb : dLutBase enumWords = 1022 := by decide
  refine ⟨⟨partSlot_holds ?_ ?_, ⟨⟨(pfxWords_checks _).1, (pfxWords_checks _).2.1, (pfxWords_checks _).2.2, by decide +kernel,
      fun j hj => ?_⟩, by decide +kernel⟩, by unfold dEnum; decide, by decide +kernel⟩, fault_of (by decide +kernel),
    ⟨?_, ⟨⟨?_, ?_, by decide +kernel, by decide +kernel, fun j hj => absurd hj (by change ¬ j < 0; omega)⟩, by decide +kernel⟩,
      by unfold dEnum; decide, by decide, by decide, fun x h1 h2 => ?_, by decide +kernel⟩,
    by decide +kernel, by decide +kernel, by decide +kernel, fault_of (by decide +kernel)⟩
  · rintro w (((h | rfl) | ⟨rfl, -⟩ | ⟨rfl, -⟩) | h)
    · rcases h with rfl | ⟨rfl, -⟩ | ⟨-, -, -, h, -⟩
      · decide
      · decide
      · exact absurd h (by unfold dEnum; decide)
    · decide
    · decide
    · decide
    · omega
  · decide +kernel
  · have : j < 8 := hj
    unfold dPfxCare
    revert j
    decide +kernel
  · exact slotHolds_of (by decide +kernel) (by decide +kernel) pfx_lt (by decide +kernel)
  · unfold dInvalid dValid dEnum
    decide +kernel
  · unfold dIdMatch
    decide +kernel
  · rw [hb] at h1
    interval_cases x
    decide +kernel

/-- The greatest magnitude that does not overflow, and the first that does. -/
theorem witness_RoundingIsToNearestTiesToEven :
    F64.roundMag ((2 ^ 54 - 1) * 2 ^ 970 * 2 ^ 2148 - 1) < 2047 * 2 ^ 52 ∧ F64.roundMag 0 < 2047 * 2 ^ 52 ∧
    F64.roundMag ((2 ^ 54 - 1) * 2 ^ 970 * 2 ^ 2148) = 2047 * 2 ^ 52 ∧ finite 0x7FEFFFFFFFFFFFFF ∧ finite 0 := by
  unfold finite
  refine ⟨?_, ?_, ?_, ?_, ?_⟩ <;> decide +kernel

theorem witness_RawConversionIsExactBelow53Bits : 2 ^ 53 - 1 < 2 ^ 53 := by decide

/-- Two NaNs and a NaN result; the greatest and the smallest values; an overflow of a product and of a sum; a negative zero as a scale. -/
theorem witness_SpecialValuesFollowIeee :
    (nan (F64.linear 0 0x7FF0000000000000 0) ∧ nan 0xFFF0000000000001) ∧
    (¬ nan 0x7FF0000000000000 ∧ magnitude 0x7FF0000000000000 ≠ 0 ∧ ¬ nan 0x8000000000000001 ∧ magnitude 0x8000000000000001 ≠ 0) ∧
    (finite 0x7FEFFFFFFFFFFFFF ∧ finite 0xFFEFFFFFFFFFFFFF ∧ ¬ finite (F64.mul 0x7FEFFFFFFFFFFFFF 0xFFEFFFFFFFFFFFFF) ∧
      ¬ finite (F64.add 0xFFEFFFFFFFFFFFFF 0xFFEFFFFFFFFFFFFF)) ∧
    (finite 0x8000000000000000 ∧ signOf 0x8000000000000000 = true) := by
  unfold nan finite
  refine ⟨⟨?_, ?_⟩, ⟨?_, ?_, ?_, ?_⟩, ⟨?_, ?_, ?_, ?_⟩, ?_, ?_⟩ <;> decide +kernel

/-- The greatest values, whose sum is not 0 and whose difference is; a divisor; the threshold of overflow from both sides, and a tie. -/
theorem witness_FiniteArithmeticRoundsToNearest :
    (finite 0x7FEFFFFFFFFFFFFF ∧ finite 0xFFEFFFFFFFFFFFFF ∧ signedOf 0x7FEFFFFFFFFFFFFF + signedOf 0x7FEFFFFFFFFFFFFF ≠ 0 ∧
      signedOf 0x7FEFFFFFFFFFFFFF + signedOf 0xFFEFFFFFFFFFFFFF = 0 ∧ signedOf 0x8000000000000000 + signedOf 0 = 0) ∧
    (255 ≠ 0 ∧ (2 ^ 54 - 1) * 2 ^ 970 * 2 ^ 2148 * 1 ≤ 2 ^ 1024 * 2 ^ 2148 ∧
      1 * 2 ^ 2148 < (2 ^ 54 - 1) * 2 ^ 970 * 2 ^ 2148 * 10 ^ 1) ∧
    (gap (magnitude 0x4340000000000000 * 2 ^ 1074 * 1) ((2 ^ 53 + 1) * 2 ^ 2148) =
      gap (magnitude 0x4340000000000001 * 2 ^ 1074 * 1) ((2 ^ 53 + 1) * 2 ^ 2148)) := by
  unfold finite
  refine ⟨⟨?_, ?_, ?_, ?_, ?_⟩, ⟨?_, ?_, ?_⟩, ?_⟩ <;> decide +kernel

/-- By a DECODE, by an EXTRACT and by a reset. -/
theorem witness_OnlyDecodeAndExtractChangeResults :
    (∃ t, step (pendAt (decState pfxWords []) 5 []) = .next t ∧ t.result ≠ (pendAt (decState pfxWords []) 5 []).result) ∧
    (∃ t, step (pend 6 []) = .next t ∧ t.result ≠ (pend 6 []).result) ∧
    (let s : State := { sched [.assertRst] with result := ⟨.okRaw, .complete, 1, 0, 0⟩ }
     ∃ t, step s = .next t ∧ t.result ≠ s.result) :=
  ⟨next_of (by decide +kernel), next_of (by decide), next_of (by decide)⟩

/-- The last channel's two registers, and a reset. -/
theorem witness_OnlyHostWritesAndResetChangeFilters :
    (let s := sched [.write 0x130 0x9FFFFFFF 0b1111]
     ∃ t, step s = .next t ∧ ((t.ch 3).filterEn ≠ (s.ch 3).filterEn ∧ (t.ch 3).filterId ≠ (s.ch 3).filterId)) ∧
    (let s := sched [.write 0x134 0xFF 0b1111]
     ∃ t, step s = .next t ∧ (t.ch 3).ta ≠ (s.ch 3).ta) ∧
    (let s : State := { frameAt ch7E8 0 0 0 with schedule := [.assertRst] }
     ∃ t, step s = .next t ∧ (t.ch 0).filterId ≠ (s.ch 0).filterId) :=
  ⟨next_of (by decide), next_of (by decide), next_of (by decide)⟩

/-- By each of the four commands, and by a reset. -/
theorem witness_OnlyFrameAndResetCommandsChangeChannelStatus :
    (∀ w ∈ [(1 : Word), 2, 3, 4], ∃ t, step (pendAt (frameAt (assemblingCh 6 16 1) 8 0x33221121 0) w []) = .next t ∧
      (t.ch 0).readReg .status ≠ ((frameAt (assemblingCh 6 16 1) 8 0x33221121 0).ch 0).readReg .status) ∧
    (let s : State := { frameAt (assemblingCh 6 16 1) 8 0 0 with schedule := [.assertRst] }
     ∃ t, step s = .next t ∧ (t.ch 0).readReg .total ≠ (s.ch 0).readReg .total) := by
  refine ⟨fun w hw => ?_, next_of (by decide)⟩
  fin_cases hw <;> exact next_of (by decide)

/-- The first and the last byte of the RAMs' addresses that a word has; a write, and a power cycle. -/
theorem witness_OnlyHostWritesChangeTheRams :
    (∃ t, step (sched [.write 0x10000 0x80000000 0b1111]) = .next t ∧ t.mem.read? 0x10003 ≠ none) ∧
    (∃ t, step (sched [.write 0x21FFC 0xFFFF 0b1111]) = .next t ∧ t.mem.read? 0x21FFF ≠ none) ∧
    (∃ t, step (State.setMem (sched [.powerOn]) (stores [(0x10000, 1)])) = .next t ∧
      t.mem.read? 0x10000 ≠ (State.setMem (sched [.powerOn]) (stores [(0x10000, 1)])).mem.read? 0x10000) :=
  ⟨next_of (by decide +kernel), next_of (by decide +kernel), next_of (by decide +kernel)⟩

/-- A Failed channel that a frame reaches, and one that CH_RESET clears. -/
theorem witness_FirstFailureSticks :
    let s := frameAt { ch7E8 with state := .failed, err := .cfUnexpected } 1 0x30 0
    (s.ch 0).state = .failed ∧ (∃ t, step (pendAt s 1 []) = .next t ∧ (t.ch 0).err = .cfUnexpected) ∧
    (∃ t, step (pendAt s 3 []) = .next t ∧ (t.ch 0).state = .awaitingFirst) :=
  ⟨by decide, next_of (by decide), next_of (by decide)⟩

/-- A frame of eight bytes, and an empty one. -/
theorem witness_FramePseudoInstructionPushesTheFrame :
    let f : HostText.RawFrame := ⟨0x7E8, [7, 1, 2, 3, 4, 5, 6, 7]⟩
    (sched (HostText.frame f ++ [])).rst = false ∧ (sched (HostText.frame f ++ [])).pending = none ∧ f.bytes.length ≤ 8 ∧
    (sched (HostText.frame f ++ [])).schedule = HostText.frame f ++ [] ∧ ([] : List Byte).length ≤ 8 :=
  ⟨rfl, rfl, by decide, rfl, by decide⟩

end Sys2Proof.Tests
end

section
/-! PROOFS. Soundness: what the invariant reads, that every update of the machine keeps it, and that every step does. -/

namespace Sys2Proof.Machine

/-! ### Channels -/

/-- A sound channel's invariants read its state, its recorded error, LEN and TOTAL alone. -/
theorem Channel.Sound.congr {x y : Channel} {cap : Nat} (h : x.Sound cap) (hs : y.state = x.state) (hl : y.len = x.len)
    (ht : y.total = x.total) (he : y.err = x.err) : y.Sound cap where
  len_le := hl ▸ h.len_le
  complete := by rw [hs, hl, ht]; exact h.complete
  assembling := by rw [hs, hl, ht]; exact h.assembling
  awaiting := by rw [hs, hl]; exact h.awaiting
  err_iff := by rw [hs, he]; exact h.err_iff

/-- A channel at reset is sound, and so is a cleared one (42_reassembly R195). -/
theorem Channel.Sound.of_awaitingFirst {x : Channel} {cap : Nat} (hs : x.state = .awaitingFirst) (hl : x.len = 0) (he : x.err = .none) :
    x.Sound cap where
  len_le := by simp [hl]
  complete := by simp [hs]
  assembling := by simp [hs]
  awaiting _ := hl
  err_iff := by simp [hs, he]

theorem Channel.reset_sound (cap : Nat) : Channel.reset.Sound cap := .of_awaitingFirst rfl rfl rfl

theorem Channel.clear_sound (x : Channel) (cap : Nat) : x.clear.Sound cap := .of_awaitingFirst rfl rfl rfl

/-- A failure keeps LEN, so it keeps the invariants (42_reassembly R173; 10_state R45). -/
theorem Channel.Sound.fail {x : Channel} {cap : Nat} (h : x.Sound cap) {e : ChErr} (he : e ≠ .none) : (x.fail e).Sound cap where
  len_le := h.len_le
  complete hs := by simp at hs
  assembling hs := by simp at hs
  awaiting hs := by simp at hs
  err_iff := by simp [he]

theorem Channel.Sound.endCapture {x : Channel} {cap : Nat} (h : x.Sound cap) : x.endCapture.Sound cap := by
  unfold Channel.endCapture
  split
  · exact h.fail (by decide)
  all_goals exact h

theorem Channel.endCapture_len (x : Channel) : x.endCapture.len = x.len := by
  unfold Channel.endCapture
  split <;> rfl

/-- A channel that a frame has just completed with `x` bytes (42_reassembly R179). -/
theorem Channel.Sound.single {c : Channel} {cap x : Nat} (h : c.Sound cap) (hc : c.state = .awaitingFirst) (h1 : 1 ≤ x) (h2 : x ≤ cap)
    (h3 : x < 4096) (ev : Bool) :
    Channel.Sound { c with len := BitVec.ofNat 12 x, total := BitVec.ofNat 12 x, state := .complete, event := ev } cap where
  len_le := by simp only [BitVec.toNat_ofNat]; omega
  complete _ := ⟨rfl, by simp only [BitVec.toNat_ofNat]; omega⟩
  assembling hs := nomatch hs
  awaiting hs := nomatch hs
  err_iff := by simpa [hc] using h.err_iff

/-- A channel with a message of `l` bytes in progress (42_reassembly R181). -/
theorem Channel.Sound.multi {c : Channel} {cap m l : Nat} (h : c.Sound cap) (hc : c.state = .awaitingFirst) (h1 : m < l) (h2 : 7 ≤ l)
    (h3 : l ≤ cap) (h4 : l < 4096) (sn : BitVec 4) :
    Channel.Sound { c with len := BitVec.ofNat 12 m, total := BitVec.ofNat 12 l, nextSeq := sn, state := .assembling } cap where
  len_le := by simp only [BitVec.toNat_ofNat]; omega
  complete hs := nomatch hs
  assembling _ := by simp only [BitVec.toNat_ofNat]; omega
  awaiting hs := nomatch hs
  err_iff := by simpa [hc] using h.err_iff

/-- LEN after `m` more bytes, where they stay within TOTAL (42_reassembly R184). -/
theorem Channel.advance_len {x : Channel} {m : Nat} (h : x.len.toNat + m ≤ x.total.toNat) :
    (x.advance m).len.toNat = x.len.toNat + m := by
  have := x.total.isLt
  unfold Channel.advance
  split_ifs <;> (simp only [BitVec.toNat_ofNat]; omega)

/-- A message in progress stays sound over a matching CF: it is Complete exactly where LEN reaches TOTAL (42_reassembly R185). -/
theorem Channel.Sound.advance {x : Channel} {cap m : Nat} (h : x.Sound cap) (hx : x.state = .assembling)
    (hm : x.len.toNat + m ≤ x.total.toNat) : (x.advance m).Sound cap := by
  obtain ⟨hlt, h7, hcap⟩ := h.assembling hx
  have hlen := Channel.advance_len hm
  have herr : x.err = .none := h.err_iff.2 (by simp [hx])
  unfold Channel.advance at hlen ⊢
  split_ifs at hlen ⊢ with hfull
  · exact
      { len_le := by rw [hlen]; omega
        complete := fun _ => ⟨BitVec.eq_of_toNat_eq (hlen.trans hfull), by rw [hlen]; omega⟩
        assembling := (nomatch ·)
        awaiting := (nomatch ·)
        err_iff := by simp [herr] }
  · exact
      { len_le := by rw [hlen]; omega
        complete := fun hs => by simp [hx] at hs
        assembling := fun _ => ⟨by rw [hlen]; exact Nat.lt_of_le_of_ne hm hfull, h7, hcap⟩
        awaiting := fun hs => by simp [hx] at hs
        err_iff := by simp [herr, hx] }

/-! ### States -/

/-- A sound state's invariants read the parameters, the channels, memory, PENDING and the reset pin alone. -/
theorem State.Sound.congr {s t : State} (h : s.Sound) (hz : t.sizes = s.sizes) (hc : t.channels = s.channels) (hm : t.mem = s.mem)
    (hh : t.rst = true → t.pending = none) : t.Sound where
  legal := by have := h.legal; simp only [State.params, hz, hc] at this ⊢; exact this
  channels c hlt := by
    rw [State.ch_congr hc, hz]
    exact h.channels c (by simpa only [State.numChannels, hc] using hlt)
  mem := hm ▸ h.mem
  buffers c i hlt hi := by
    rw [State.ch_congr hc] at hi
    rw [hm]
    exact h.buffers c i (by simpa only [State.numChannels, hc] using hlt) hi
  held := hh

/-- Other channels that are each sound, of the same number, with no byte below a LEN that was not there before. -/
theorem State.Sound.setChannels {s : State} (h : s.Sound) {cs : List Channel} (hn : cs.length = s.numChannels)
    (hs : ∀ c, c < s.numChannels → ((s.setChannels cs).ch c).Sound s.sizes.payloadCap)
    (hb : ∀ c i, c < s.numChannels → i < ((s.setChannels cs).ch c).len.toNat → (s.mem.read? (bufAddr c i)).isSome = true) :
    (s.setChannels cs).Sound where
  legal := by
    have hl := h.legal
    simp only [State.params, State.setChannels_channels, State.setChannels_sizes, hn]
    exact hl
  channels c hlt := hs c (hn ▸ hlt)
  mem := h.mem
  buffers c i hlt := hb c i (hn ▸ hlt)
  held := h.held

/-- A sound channel in place of another, with its bytes below LEN stored. -/
theorem State.Sound.setChan {s : State} (h : s.Sound) {c : Nat} {x : Channel} (hx : x.Sound s.sizes.payloadCap)
    (hb : ∀ i, i < x.len.toNat → (s.mem.read? (bufAddr c i)).isSome = true) : (s.setChan c x).Sound := by
  have hch : ∀ d, (s.setChannels (s.channels.set c x)).ch d = if c = d ∧ d < s.numChannels then x else s.ch d :=
    fun d => s.ch_setChan c d x
  refine h.setChannels (List.length_set ..) (fun d hd => ?_) fun d i hd hi => ?_
  · rw [hch]
    split_ifs
    · exact hx
    · exact h.channels d hd
  · rw [hch] at hi
    split_ifs at hi with hcd
    · exact hcd.1 ▸ hb i hi
    · exact h.buffers d i hd hi

/-- A function on every channel that keeps the channel sound and does not raise LEN. -/
theorem State.Sound.map {s : State} (h : s.Sound) {f : Channel → Channel}
    (hf : ∀ x, x.Sound s.sizes.payloadCap → (f x).Sound s.sizes.payloadCap) (hl : ∀ x, (f x).len.toNat ≤ x.len.toNat) :
    (s.setChannels (s.channels.map f)).Sound := by
  refine h.setChannels (List.length_map ..) (fun c hc => ?_) fun c i hc hi => ?_
  · rw [s.ch_map f c hc]
    exact hf _ (h.channels c hc)
  · rw [s.ch_map f c hc] at hi
    exact h.buffers c i hc (lt_of_lt_of_le hi (hl _))

/-- Another memory in canonical form in which every stored byte is still stored. -/
theorem State.Sound.setMem {s : State} (h : s.Sound) {m : Memory} (hm : m.wf)
    (hb : ∀ a, (s.mem.read? a).isSome = true → (m.read? a).isSome = true) : (s.setMem m).Sound where
  legal := h.legal
  channels := h.channels
  mem := hm
  buffers c i hc hi := hb _ (h.buffers c i hc hi)
  held := h.held

/-- Bytes stored anywhere. -/
theorem State.Sound.writeBytes {s : State} (h : s.Sound) (a : Nat) (bs : List Byte) : (s.setMem (s.mem.writeBytes a bs)).Sound :=
  h.setMem (Memory.wf_writeBytes bs h.mem a) fun x hx => Memory.isSome_writeBytes bs s.mem a x hx

/-- The bytes just written are stored. -/
theorem Memory.isSome_writeBytes_new (m : Memory) (a : Nat) (bs : List Byte) {x : Nat} (h1 : a ≤ x) (h2 : x < a + bs.length) :
    ((m.writeBytes a bs).read? x).isSome = true := by
  rw [Memory.read?_writeBytes, if_pos ⟨h1, h2⟩, List.getElem?_eq_getElem (by omega)]
  rfl

/-- Every channel at reset is a channel at reset (10_state R57). -/
theorem State.resetOf_ch (p : Config.Params) (c : Nat) : (State.resetOf p).ch c = Channel.reset := by
  simp only [State.ch, State.resetOf, List.getD_eq_getElem?_getD, List.getElem?_replicate]
  split_ifs <;> rfl

/-- A machine at reset is sound at every legal choice of the parameters. -/
theorem State.resetOf_sound {p : Config.Params} (hp : p.legal) : (State.resetOf p).Sound where
  legal := by rw [State.resetOf_params]; exact hp
  channels c _ := by rw [State.resetOf_ch]; exact Channel.reset_sound _
  mem := State.resetOf_wf p
  buffers c i _ hi := by simp [State.resetOf_ch, Channel.reset] at hi
  held h := nomatch h

/-- The registers at reset over any memory in canonical form (70_reset_and_hazards R293). -/
theorem State.resetOf_setMem_sound {p : Config.Params} (hp : p.legal) {m : Memory} (hm : m.wf) :
    ((State.resetOf p).setMem m).Sound :=
  (State.resetOf_sound hp).setMem hm fun _ ha => nomatch ha

/-! ### Steps -/

/-- A host read keeps soundness. -/
theorem State.Sound.hostRead {s : State} (h : s.Sound) (a : BusAddr) : (s.hostRead a).Sound := by
  rcases s.hostRead_cases a with ⟨-, e⟩ | ⟨-, -, e⟩ | ⟨-, -, -, e⟩ <;> rw [e] <;> exact h.congr rfl rfl rfl h.held

/-- An accepted write out of reset keeps soundness. -/
theorem State.Sound.writeTarget {s : State} (h : s.Sound) (hr : s.rst = false) (d : Word) (x : Target) : (s.writeTarget d x).Sound := by
  obtain ⟨hz, hn, -, hrst, -⟩ := s.writeTarget_fields d x
  refine ⟨?_, fun c hc => ?_, s.writeTarget_wf d x h.mem, fun c i hc hi => ?_, fun hr' => ?_⟩
  · have hl := h.legal
    simp only [State.params, hz, show (s.writeTarget d x).channels.length = s.channels.length from hn]
    exact hl
  · obtain ⟨hst, hlen, htot, -, herr⟩ := s.writeTarget_ch d x c
    rw [hz]
    exact (h.channels c (hn ▸ hc)).congr hst hlen htot herr
  · obtain ⟨-, hlen, -⟩ := s.writeTarget_ch d x c
    exact s.writeTarget_isSome d x _ (h.buffers c i (hn ▸ hc) (hlen ▸ hi))
  · rw [hrst, hr] at hr'
    cases hr'

/-- A host write keeps soundness. -/
theorem State.Sound.hostWrite {s : State} (h : s.Sound) (a : BusAddr) (d : Word) (be : BitVec 4) : (s.hostWrite a d be).Sound := by
  rcases s.hostWrite_cases a d be with ⟨-, e⟩ | ⟨-, -, e⟩ | ⟨-, -, -, e⟩ | ⟨hr, -, -, -, -, e⟩ <;> rw [e]
  · exact h
  · exact h.congr rfl rfl rfl h.held
  · exact h.congr rfl rfl rfl h.held
  · exact h.writeTarget hr d _

/-- `fail` keeps soundness. -/
theorem State.Sound.fail {s : State} (h : s.Sound) {c : Nat} (hc : c < s.numChannels) {e : ChErr} (he : e ≠ .none) : (s.fail c e).Sound :=
  h.setChan ((h.channels c hc).fail he) fun i hi => h.buffers c i hc hi

/-- A single frame keeps soundness: its bytes are all those below the new LEN (42_reassembly R179). -/
theorem State.Sound.startSingle {s : State} (h : s.Sound) {c x : Nat} (hc : c < s.numChannels) (hs : (s.ch c).state = .awaitingFirst)
    (h1 : 1 ≤ x) (h8 : x ≤ 8) : (s.startSingle c x).Sound := by
  obtain ⟨-, -, -, hcap, -⟩ := h.legal
  refine (h.writeBytes _ _).setChan ((h.channels c hc).single hs h1 (le_trans h8 hcap) (by omega) true) fun i hi => ?_
  simp only [BitVec.toNat_ofNat] at hi
  exact Memory.isSome_writeBytes_new _ _ _ (by unfold bufAddr; omega) (by rw [State.dBytes_length]; unfold bufAddr; omega)

/-- A first frame keeps soundness: its chunk is all the bytes below the new LEN, and TOTAL is above it (42_reassembly R181). -/
theorem State.Sound.startMulti {s : State} (h : s.Sound) {c l : Nat} (hc : c < s.numChannels) (hs : (s.ch c).state = .awaitingFirst)
    (hn : s.n - 2 < l) (h7 : 7 ≤ l) (hcap : l ≤ s.sizes.payloadCap) (hl : l < 4096) : (s.startMulti c l).Sound := by
  refine (h.writeBytes _ _).setChan ((h.channels c hc).multi hs hn h7 hcap hl 1) fun i hi => ?_
  simp only [BitVec.toNat_ofNat] at hi
  exact Memory.isSome_writeBytes_new _ _ _ (by unfold bufAddr; omega) (by rw [State.dBytes_length]; unfold bufAddr; omega)

/-- A matching CF keeps soundness: the bytes below the new LEN are the old ones and the stored ones (42_reassembly R184). -/
theorem State.Sound.continueMulti {s : State} (h : s.Sound) {c : Nat} (hc : c < s.numChannels) (hs : (s.ch c).state = .assembling) :
    (s.continueMulti c).Sound := by
  have hx := h.channels c hc
  obtain ⟨hlt, -⟩ := hx.assembling hs
  have hm : (s.ch c).len.toNat + s.cfCount c ≤ (s.ch c).total.toNat := by unfold State.cfCount; omega
  refine State.Sound.setChan (h.writeBytes _ _) (hx.advance hs hm) fun i hi => ?_
  rw [Channel.advance_len hm] at hi
  by_cases ho : i < (s.ch c).len.toNat
  · exact Memory.isSome_writeBytes _ _ _ _ (h.buffers c i hc ho)
  · exact Memory.isSome_writeBytes_new _ _ _ (by unfold bufAddr; omega) (by rw [State.dBytes_length]; unfold bufAddr; omega)

/-- An accepted frame keeps soundness, cell by cell (42_reassembly R171). -/
theorem State.Sound.acceptFrame {s : State} (h : s.Sound) {c : Nat} (hc : c < s.numChannels) {v : FrameClass} (hv : s.ClassSound v)
    (hp : s.precheck = .none) : (s.acceptFrame c v).Sound := by
  have hn := s.n_le hp
  have hk := s.k_le
  rcases s.acceptFrame_cases c hv with ⟨-, e⟩ | ⟨r, hr, -, e⟩ | ⟨x, hs, rfl, e⟩ | ⟨l, hs, rfl, e⟩ | ⟨hs, -, e⟩ <;> rw [e]
  · exact h
  · exact h.fail hc hr
  · obtain ⟨h1, h2⟩ := hv.sf x rfl
    exact h.startSingle hc hs h1 (by omega)
  · obtain ⟨hl, h2, h3, h4⟩ := hv.ff l rfl
    have hnk : s.n ≤ 8 - s.k := by have := (s.precheck_none_iff.1 hp).1; unfold State.n; omega
    exact h.startMulti hc hs (by omega) (by omega) h4 hl
  · exact h.continueMulti hc hs

/-- A pushed frame keeps soundness (41_frame_ingress R150). -/
theorem State.Sound.pushClass {s : State} (h : s.Sound) {v : FrameClass} (hv : s.ClassSound v) : (s.pushClass v).Sound := by
  rcases s.pushClass_cases v with ⟨-, e⟩ | ⟨-, -, e⟩ | ⟨c, hp, -, hc, e⟩ <;> rw [e]
  · exact h.congr rfl rfl rfl h.held
  · exact h.congr rfl rfl rfl h.held
  · exact h.acceptFrame hc hv hp

/-- The body of a command keeps soundness. -/
theorem exec_sound {i : Instr} {s t : State} (h : s.Sound) (he : exec i s = .next t) : t.Sound := by
  cases exec_body he with
  | nop ch idx => exact h
  | push i v hv hi => exact h.pushClass hv
  | endCapture ch idx => exact h.map (fun x hx => hx.endCapture) fun x => by rw [x.endCapture_len]
  | chReset ch idx hc => exact h.setChan (Channel.clear_sound _ _) fun i hi => by simp [Channel.clear] at hi
  | resetChannels ch idx => exact h.map (fun x _ => x.clear_sound _) fun x => by simp [Channel.clear]
  | result i r hi hr => exact h.congr rfl rfl rfl h.held
  | error i c hi => exact h.congr rfl rfl rfl h.held

/-- Every step keeps soundness. -/
theorem step_sound {s t : State} (h : s.Sound) (hst : step s = .next t) : t.Sound := by
  have h0 : ∀ rest, State.Sound { s with schedule := rest } := fun rest => h.congr rfl rfl rfl h.held
  cases step_cases hst with
  | read a rest hs ht => exact ht ▸ (h0 rest).hostRead a
  | write a d be rest hs ht =>
    have hw := (h0 rest).hostWrite a d be
    exact ht ▸ hw.congr rfl rfl rfl hw.held
  | assertRst rest hs ht => exact ht ▸ (State.resetOf_setMem_sound h.legal h.mem).congr rfl rfl rfl fun _ => rfl
  | releaseRst rest hs ht => exact ht ▸ h.congr rfl rfl rfl fun hr => nomatch hr
  | powerOn rest hs ht => exact ht ▸ (State.resetOf_sound h.legal).congr rfl rfl rfl fun _ => rfl
  | idle rest hs hi ht => exact ht ▸ h0 rest
  | invalid rest w e hs hr hp hd ht => exact ht ▸ h.congr rfl rfl rfl fun _ => rfl
  | commit rest w i b hs hr hp hd hb ht => exact ht ▸ (exec_sound (h0 rest) hb).congr rfl rfl rfl fun _ => rfl

end Sys2Proof.Machine

open Sys2Proof.Machine Sys2Proof.Claims

/-- Settles O5: the step inversion, and one soundness lemma for each thing a step can do. -/
theorem everyStepKeepsSoundness : Obligations.EveryStepKeepsSoundness := fun _ _ h hst => step_sound h hst

/-- Settles O4: a machine at reset is sound, and building one answers exactly at the bounds of 00_scope R9. -/
theorem resetStateIsSound : Obligations.ResetStateIsSound := by
  refine ⟨State.resetOf_sound (by decide), fun p hp => State.resetOf_sound hp, fun p t h => ?_, fun p => ?_, rfl⟩
  · obtain ⟨-, rfl⟩ := State.configure_eq_some.1 h
    exact ⟨rfl, State.resetOf_params p⟩
  · rw [Option.isSome_iff_exists]
    exact ⟨fun ⟨_, h⟩ => (State.configure_eq_some.1 h).1, fun h => ⟨_, State.configure_eq_some.2 ⟨h, rfl⟩⟩⟩

end

section
/-! PROOFS. Reset, and what a step may change: PENDING, the result registers, the filters, the channel status and the RAMs. -/

namespace Sys2Proof.Machine

open Sys2Proof.Claims

/-! ### Reset -/

/-- An asserted reset leaves what R57 and R291 list, whatever memory it leaves. -/
theorem State.blockReset_registersReset (s : State) (m : Memory) (b : Bool) (es : List Event) (k : Nat) :
    registersReset s { s.blockReset with mem := m, rst := b, schedule := es, freeCount := k } := by
  refine ⟨rfl, rfl, rfl, rfl, rfl, rfl, rfl, rfl, State.resetOf_params s.params, fun c _ => s.blockReset_ch c, fun c i _ => ?_⟩
  have hl : (State.ch { s.blockReset with mem := m, rst := b, schedule := es, freeCount := k } c).len = 0 :=
    congrArg Channel.len (s.blockReset_ch c)
  simp [State.windowByte, hl]

/-! ### The filters (10_state R43) -/

/-- Two channels with one filter and one TA. -/
def Channel.SameFilter (x y : Channel) : Prop := y.filterEn = x.filterEn ∧ y.filterId = x.filterId ∧ y.ta = x.ta

/-- An accepted frame keeps every channel's filter and TA. -/
theorem State.acceptFrame_filter (s : State) (c d : Nat) {v : FrameClass} (hv : s.ClassSound v) :
    (s.ch d).SameFilter ((s.acceptFrame c v).ch d) := by
  have self : ∀ (u : State) (x : Channel), u.ch d = s.ch d → (s.ch c).SameFilter x → (s.ch d).SameFilter ((u.setChan c x).ch d) := by
    intro u x hu hx
    rw [u.ch_setChan]
    split_ifs with h
    · exact h.1 ▸ hx
    · rw [hu]; exact ⟨rfl, rfl, rfl⟩
  rcases s.acceptFrame_cases c hv with ⟨-, h⟩ | ⟨e, -, -, h⟩ | ⟨x, -, -, h⟩ | ⟨l, -, -, h⟩ | ⟨-, -, h⟩ <;> rw [h]
  · exact ⟨rfl, rfl, rfl⟩
  · exact self _ _ rfl ⟨rfl, rfl, rfl⟩
  · exact self _ _ rfl ⟨rfl, rfl, rfl⟩
  · exact self _ _ rfl ⟨rfl, rfl, rfl⟩
  · refine self _ _ rfl ?_
    unfold Channel.advance
    split_ifs <;> exact ⟨rfl, rfl, rfl⟩

/-- A channel that does not exist reads as a channel at reset. -/
theorem State.ch_of_le (s : State) {c : Nat} (h : s.numChannels ≤ c) : s.ch c = Channel.reset := by
  have h' : s.channels.length ≤ c := h
  simp [State.ch, List.getD_eq_getElem?_getD, h']

/-- A function on every channel, seen at a channel that exists or not. -/
theorem State.ch_map_cases (s : State) (f : Channel → Channel) (d : Nat) :
    (s.setChannels (s.channels.map f)).ch d = f (s.ch d) ∨ (s.setChannels (s.channels.map f)).ch d = s.ch d := by
  by_cases h : d < s.numChannels
  · exact .inl (s.ch_map f d h)
  · have h' := not_lt.1 h
    exact .inr (by rw [s.ch_of_le h', State.ch_of_le _ (by simpa [State.numChannels] using h')])

/-- The body of a command keeps every channel's filter and TA. -/
theorem exec_filter {i : Instr} {s t : State} (h : exec i s = .next t) (d : Nat) : (s.ch d).SameFilter (t.ch d) := by
  cases exec_body h with
  | push i v hv hi =>
    rcases s.pushClass_cases v with ⟨-, e⟩ | ⟨-, -, e⟩ | ⟨c, -, -, -, e⟩ <;> rw [e]
    · exact ⟨rfl, rfl, rfl⟩
    · exact ⟨rfl, rfl, rfl⟩
    · exact s.acceptFrame_filter c d hv
  | endCapture ch idx =>
    rcases s.ch_map_cases Channel.endCapture d with e | e <;> rw [e]
    · unfold Channel.endCapture
      split <;> exact ⟨rfl, rfl, rfl⟩
    · exact ⟨rfl, rfl, rfl⟩
  | chReset ch idx hc =>
    rw [s.ch_setChan]
    split_ifs with hcd
    · exact hcd.1 ▸ ⟨rfl, rfl, rfl⟩
    · exact ⟨rfl, rfl, rfl⟩
  | resetChannels ch idx => rcases s.ch_map_cases Channel.clear d with e | e <;> rw [e] <;> exact ⟨rfl, rfl, rfl⟩
  | _ => exact ⟨rfl, rfl, rfl⟩

/-- An accepted write keeps a channel's filter and TA unless it is to one of the two registers of this channel. -/
theorem State.writeTarget_filter (s : State) (d : Word) (x : Target) (c : Nat) (h1 : x ≠ .chan c .filter) (h2 : x ≠ .chan c .ta) :
    (s.ch c).SameFilter ((s.writeTarget d x).ch c) := by
  cases x with
  | global r =>
    cases r
    case chEvent =>
      by_cases hc : c < s.numChannels
      · rw [State.writeTarget, State.writeGlobal, s.ch_w1cChEvent d c hc]
        exact ⟨rfl, rfl, rfl⟩
      · have hc' := not_lt.1 hc
        rw [State.writeTarget, State.writeGlobal, s.ch_of_le hc',
          State.ch_of_le _ (by simpa [State.w1cChEvent, State.numChannels] using hc')]
        exact ⟨rfl, rfl, rfl⟩
    all_goals exact ⟨rfl, rfl, rfl⟩
  | chan e r =>
    rw [State.writeTarget, s.ch_setChan]
    split_ifs with he
    · obtain ⟨rfl, -⟩ := he
      cases r with
      | filter => exact absurd rfl h1
      | ta => exact absurd rfl h2
      | status => exact ⟨rfl, rfl, rfl⟩
      | total => exact ⟨rfl, rfl, rfl⟩
    · exact ⟨rfl, rfl, rfl⟩
  | _ => exact ⟨rfl, rfl, rfl⟩

/-! ### The channel status (10_state R42) -/

/-- Two channels that show the same: state, recorded error, LEN, TOTAL and NEXT_SEQ. -/
def Channel.SameStatus (x y : Channel) : Prop :=
  y.state = x.state ∧ y.err = x.err ∧ y.len = x.len ∧ y.total = x.total ∧ y.nextSeq = x.nextSeq

theorem Channel.SameStatus.refl (x : Channel) : x.SameStatus x := ⟨rfl, rfl, rfl, rfl, rfl⟩

/-- Such channels have the same CH_STATUS and CH_TOTAL. -/
theorem Channel.SameStatus.readReg {x y : Channel} (h : x.SameStatus y) :
    y.readReg .status = x.readReg .status ∧ y.readReg .total = x.readReg .total := by
  obtain ⟨hs, he, hl, ht, hn⟩ := h
  simp only [Channel.readReg, hs, he, hl, ht, hn, and_self]

/-- No pre-check of the statements fails exactly where the model's answers none (41_frame_ingress R152). -/
theorem precheck_none_iff_not_fails (s : State) : s.precheck = .none ↔ ∀ p, ¬ precheckFails s p := by
  rw [s.precheck_none_iff]
  unfold precheckFails
  constructor
  · rintro ⟨h1, h2, h3⟩ p (⟨h, -⟩ | ⟨-, h, -⟩ | ⟨-, -, h, -⟩)
    · omega
    · exact h2 h
    · exact h3 h
  · intro h
    have h1 : s.fin.len.toNat ≤ 8 := not_lt.1 fun hl => h .lenGt8 (.inl ⟨hl, rfl⟩)
    have h2 := fun hi => h .idRange (.inr (.inl ⟨h1, hi, rfl⟩))
    exact ⟨h1, h2, fun ht => h .noTa (.inr (.inr ⟨h1, h2, ht, rfl⟩))⟩

/-- The model's filter is the three conditions of 41_frame_ingress R155. -/
theorem accepts_iff_filterMatches (s : State) (c : Nat) : s.accepts (s.ch c) = true ↔ filterMatches s c := s.accepts_iff _

/-- The model's route is the channel that the frame is routed to (41_frame_ingress R155). -/
theorem routedTo_of_route {s : State} {c : Nat} (hp : s.precheck = .none) (hr : s.route = some c) : routedTo s c := by
  obtain ⟨hc, ha, hd⟩ := s.route_some hr
  refine ⟨(precheck_none_iff_not_fails s).1 hp, hc, (accepts_iff_filterMatches s c).1 ha, fun d hdc hm => ?_⟩
  rw [← accepts_iff_filterMatches, hd d hdc] at hm
  cases hm

/-- A command word decodes to no PCI row: of the instructions that push, it is PUSH_FRAME (30_encoding R84). -/
theorem decodeCmd_pushes {w : Word} {i : Instr} (h : decodeCmd w = .ok i) (hi : pushes i = true) : ∃ ch idx, i = .pushFrame ch idx := by
  rcases decodeCmd_cases w with ⟨-, e⟩ | ⟨-, -, -, e⟩ | ⟨-, -, c⟩
  · rw [e] at h; cases h
  · rw [e] at h; cases h
  · rcases c with ⟨-, e⟩ | ⟨-, e⟩ | ⟨-, e⟩ | ⟨-, e⟩ | ⟨-, e⟩ | ⟨-, e⟩ | ⟨-, e⟩ <;> rw [e] at h <;> cases h <;> cases hi
    exact ⟨_, _, rfl⟩

/-- What may change what a channel shows: a frame routed to it while it has not failed, END_CAPTURE while it has not failed, RESET_CHANNELS,
and a CH_RESET of it (10_state R42, R46). -/
theorem exec_status {i : Instr} {s t : State} (h : exec i s = .next t) (d : Nat) :
    (s.ch d).SameStatus (t.ch d) ∨ (pushes i = true ∧ routedTo s d ∧ (s.ch d).state ≠ .failed) ∨
      (∃ ch idx, i = .endCapture ch idx ∧ (s.ch d).state ≠ .failed) ∨ (∃ ch idx, i = .resetChannels ch idx) ∨
      ∃ ch idx, i = .chReset ch idx ∧ ch.toNat = d := by
  cases exec_body h with
  | push i v hv hi =>
    rcases s.pushClass_cases v with ⟨-, e⟩ | ⟨-, -, e⟩ | ⟨c, hp, hr, -, e⟩ <;> rw [e]
    · exact .inl (.refl _)
    · exact .inl (.refl _)
    · by_cases hd : d = c
      · subst hd
        by_cases hf : (s.ch d).state = .failed
        · left
          rw [State.acceptFrame, hf]
          exact .refl _
        · refine .inr (.inl ⟨?_, routedTo_of_route hp hr, hf⟩)
          rcases hi with ⟨_, _, rfl⟩ | ⟨_, rfl⟩ | ⟨_, rfl⟩ | ⟨_, rfl⟩ | ⟨_, rfl⟩ | ⟨_, rfl⟩ | ⟨_, rfl⟩ <;> rfl
      · rw [s.acceptFrame_ch_ne hv hd]
        exact .inl (.refl _)
  | endCapture ch idx =>
    by_cases hf : (s.ch d).state = .failed
    · left
      rcases s.ch_map_cases Channel.endCapture d with e | e <;> rw [e]
      · rw [Channel.endCapture, hf]
        exact .refl _
      · exact .refl _
    · exact .inr (.inr (.inl ⟨ch, idx, rfl, hf⟩))
  | resetChannels ch idx => exact .inr (.inr (.inr (.inl ⟨ch, idx, rfl⟩)))
  | chReset ch idx hc =>
    by_cases hd : ch.toNat = d
    · exact .inr (.inr (.inr (.inr ⟨ch, idx, rfl, hd⟩)))
    · rw [s.ch_setChan_ne _ _ _ (Ne.symm hd)]
      exact .inl (.refl _)
  | _ => exact .inl (.refl _)

/-- A host write changes no channel's status. -/
theorem State.hostWrite_status (s : State) (a : BusAddr) (d : Word) (be : BitVec 4) (c : Nat) :
    (s.ch c).SameStatus ((s.hostWrite a d be).ch c) := by
  rcases s.hostWrite_cases a d be with ⟨-, e⟩ | ⟨-, -, e⟩ | ⟨-, -, -, e⟩ | ⟨-, -, -, -, -, e⟩ <;> rw [e]
  · exact .refl _
  · exact .refl _
  · exact .refl _
  · obtain ⟨hs, hl, ht, hn, he⟩ := s.writeTarget_ch d (s.target a.toNat) c
    exact ⟨hs, he, hl, ht, hn⟩

/-- A host write leaves a pending command where it is (40_command_dispatch R134). -/
theorem State.hostWrite_pending {s : State} {w : Word} (hp : s.pending = some w) (a : BusAddr) (d : Word) (be : BitVec 4) :
    (s.hostWrite a d be).pending = some w := by
  cases hr : s.rst
  · rw [State.hostWrite_busy hr hp]
    exact hp
  · simp [State.hostWrite, hr, hp]

/-- A host write leaves the result registers alone (10_state R36). -/
theorem State.hostWrite_result (s : State) (a : BusAddr) (d : Word) (be : BitVec 4) : (s.hostWrite a d be).result = s.result := by
  rcases s.hostWrite_cases a d be with ⟨-, e⟩ | ⟨-, -, e⟩ | ⟨-, -, -, e⟩ | ⟨-, -, -, -, -, e⟩ <;> rw [e]
  · rfl
  · rfl
  · obtain ⟨-, -, hr, -⟩ := s.writeTarget_fields d (s.target a.toNat)
    exact hr

/-- What a host read leaves alone: everything but STATUS and the port (20_memory R68). -/
theorem State.hostRead_frame (s : State) (a : BusAddr) :
    s.hostRead a = { s with status := (s.hostRead a).status, rdata := (s.hostRead a).rdata } := by
  rcases s.hostRead_cases a with ⟨-, e⟩ | ⟨-, -, e⟩ | ⟨-, -, -, e⟩ <;> rw [e] <;> rfl

/-- A read changes no channel. -/
theorem State.hostRead_ch (s : State) (a : BusAddr) (c : Nat) : (s.hostRead a).ch c = s.ch c :=
  State.ch_congr (by rw [s.hostRead_frame a]) c

/-- A step changes what a channel shows only by a reset, or by a commit whose body does (10_state R42). -/
theorem step_status {s t : State} (h : step s = .next t) (c : Nat) :
    (s.ch c).SameStatus (t.ch c) ∨ resetNext s ∨ ∃ (ch : BitVec 4) (idx : BitVec 10),
      (commitsNext s (.pushFrame ch idx) ∧ routedTo s c ∧ (s.ch c).state ≠ .failed) ∨
      (commitsNext s (.endCapture ch idx) ∧ (s.ch c).state ≠ .failed) ∨
      commitsNext s (.resetChannels ch idx) ∨ (commitsNext s (.chReset ch idx) ∧ ch.toNat = c) := by
  cases step_cases h with
  | read a rest hs ht =>
    rw [ht, State.hostRead_ch]
    exact .inl (.refl _)
  | write a d be rest hs ht => exact .inl (ht ▸ State.hostWrite_status { s with schedule := rest } a d be c)
  | assertRst rest hs ht => exact .inr (.inl ⟨rest, .inl hs⟩)
  | releaseRst rest hs ht => exact .inl (ht ▸ .refl _)
  | powerOn rest hs ht => exact .inr (.inl ⟨rest, .inr hs⟩)
  | idle rest hs hi ht => exact .inl (ht ▸ .refl _)
  | invalid rest w e hs hr hp hd ht => exact .inl (ht ▸ .refl _)
  | commit rest w i b hs hr hp hd hb ht =>
    have hcommit : commitsNext s i := ⟨rest, w, ⟨hr, hs⟩, hp, hd⟩
    rw [ht]
    rcases exec_status hb c with e | ⟨hi, hc, hf⟩ | ⟨ch, idx, e, hf⟩ | ⟨ch, idx, e⟩ | ⟨ch, idx, e, hc⟩
    · exact .inl e
    · obtain ⟨ch, idx, e⟩ := decodeCmd_pushes hd hi
      exact .inr (.inr ⟨ch, idx, .inl ⟨e ▸ hcommit, hc, hf⟩⟩)
    · exact .inr (.inr ⟨ch, idx, .inr (.inl ⟨e ▸ hcommit, hf⟩)⟩)
    · exact .inr (.inr ⟨ch, idx, .inr (.inr (.inl (e ▸ hcommit)))⟩)
    · exact .inr (.inr ⟨ch, idx, .inr (.inr (.inr ⟨e ▸ hcommit, hc⟩))⟩)

/-! ### Results and RAMs (10_state R36, R50, R53) -/

/-- The body of a command changes the result registers only where it is DECODE or EXTRACT. -/
theorem exec_result {i : Instr} {s t : State} (h : exec i s = .next t) :
    t.result = s.result ∨ ∃ ch idx, i = .decode ch idx ∨ i = .extract ch idx := by
  cases exec_body h with
  | push i v hv hi =>
    left
    rcases s.pushClass_cases v with ⟨-, e⟩ | ⟨-, -, e⟩ | ⟨c, -, -, -, e⟩ <;> rw [e]
    · rfl
    · rfl
    · rw [s.acceptFrame_frame c hv]
  | result i r hi hr => exact .inr hi
  | _ => exact .inl rfl

/-- An accepted frame stores bytes of payload buffers alone, which lie above the RAMs (20_memory R61). -/
theorem State.acceptFrame_read? (s : State) (c : Nat) {v : FrameClass} (hv : s.ClassSound v) {a : Nat} (ha : a < 0x30000) :
    (s.acceptFrame c v).mem.read? a = s.mem.read? a := by
  rcases s.acceptFrame_cases c hv with ⟨-, h⟩ | ⟨e, -, -, h⟩ | ⟨x, -, -, h⟩ | ⟨l, -, -, h⟩ | ⟨-, -, h⟩ <;> rw [h]
  · rfl
  · rw [s.startSingle_read?, if_neg (by unfold bufAddr; omega)]
  · rw [s.startMulti_read?, if_neg (by unfold bufAddr; omega)]
  · rw [s.continueMulti_read?, if_neg (by unfold bufAddr; omega)]

/-- The body of a command writes no byte below the payload buffers (10_state R50, R53). -/
theorem exec_read? {i : Instr} {s t : State} (h : exec i s = .next t) {a : Nat} (ha : a < 0x30000) :
    t.mem.read? a = s.mem.read? a := by
  cases exec_body h with
  | push i v hv hi =>
    rcases s.pushClass_cases v with ⟨-, e⟩ | ⟨-, -, e⟩ | ⟨c, -, -, -, e⟩ <;> rw [e]
    · rfl
    · rfl
    · exact s.acceptFrame_read? c hv ha
  | _ => rfl

/-- A host write changes a byte of memory only where it is to the RAM word that has the byte. -/
theorem State.hostWrite_read? (s : State) (a : BusAddr) (d : Word) (be : BitVec 4) (x : Nat)
    (h : (s.hostWrite a d be).mem.read? x ≠ s.mem.read? x) : a.toNat = x / 4 * 4 := by
  rcases s.hostWrite_cases a d be with ⟨-, e⟩ | ⟨-, -, e⟩ | ⟨-, -, -, e⟩ | ⟨-, -, -, h4, -, e⟩ <;> rw [e] at h
  · exact absurd rfl h
  · exact absurd rfl h
  · exact absurd rfl h
  · have hn := s.target_names a.toNat h4
    rcases s.writeTarget_read? d _ x h with ⟨i, w, hx, h1, h2⟩ | ⟨j, w, hx, h1, h2⟩ <;> rw [hx] at hn <;>
      obtain ⟨-, -, ha⟩ := hn <;> omega

end Sys2Proof.Machine

open Sys2Proof.Machine Sys2Proof.Claims

/-- Settles O1: both resets take their registers from the machine at reset, and a power cycle leaves no byte listed. -/
theorem blockResetGivesListedValues : Obligations.BlockResetGivesListedValues := by
  refine fun s rest => ⟨fun hs => ⟨_, step_cons hs, ?_, rfl, rfl⟩, fun hs => ⟨_, step_cons hs, ?_, rfl, fun a => rfl⟩⟩
  · exact State.blockReset_registersReset s s.mem true rest (s.freeCount + 1)
  · exact State.blockReset_registersReset s [] true rest (s.freeCount + 1)

/-- Settles O3: the two steps, run. -/
theorem powerOnThenReleaseGivesResetState : Obligations.PowerOnThenReleaseGivesResetState := by
  intro s rest hs
  rw [run_next (step_cons hs), run_one, step_cons (rest := rest) rfl]
  rfl

/-- Settles O14: no read, and no write while busy, touches PENDING, and no body does. -/
theorem onlyCommitOrResetRemovesPending : Obligations.OnlyCommitOrResetRemovesPending := by
  intro s t w hw h hne
  cases step_cases h with
  | read a rest hs ht =>
    rw [ht, State.hostRead_frame] at hne
    exact absurd hw hne
  | write a d be rest hs ht =>
    exact absurd (ht ▸ State.hostWrite_pending (s := { s with schedule := rest }) hw a d be) hne
  | assertRst rest hs ht => exact ⟨ht ▸ rfl, .inl ⟨rest, .inl hs⟩⟩
  | releaseRst rest hs ht => exact absurd (ht ▸ hw) hne
  | powerOn rest hs ht => exact ⟨ht ▸ rfl, .inl ⟨rest, .inr hs⟩⟩
  | idle rest hs hi ht => exact absurd (ht ▸ hw) hne
  | invalid rest v e hs hr hp hd ht => exact ⟨ht ▸ rfl, .inr ⟨⟨rest, hr, hs⟩, ht ▸ rfl⟩⟩
  | commit rest v i b hs hr hp hd hb ht => exact ⟨ht ▸ rfl, .inr ⟨⟨rest, hr, hs⟩, ht ▸ rfl⟩⟩

/-- Settles O55: of the bodies only DECODE and EXTRACT set the result registers. -/
theorem onlyDecodeAndExtractChangeResults : Obligations.OnlyDecodeAndExtractChangeResults := by
  intro s t h hne
  cases step_cases h with
  | read a rest hs ht =>
    rw [ht, State.hostRead_frame] at hne
    exact absurd rfl hne
  | write a d be rest hs ht =>
    exact absurd (ht ▸ State.hostWrite_result { s with schedule := rest } a d be) hne
  | assertRst rest hs ht => exact .inl ⟨rest, .inl hs⟩
  | releaseRst rest hs ht => exact absurd (ht ▸ rfl) hne
  | powerOn rest hs ht => exact .inl ⟨rest, .inr hs⟩
  | idle rest hs hi ht => exact absurd (ht ▸ rfl) hne
  | invalid rest w e hs hr hp hd ht => exact absurd (ht ▸ rfl) hne
  | commit rest w i b hs hr hp hd hb ht =>
    rcases exec_result hb with e | ⟨ch, idx, hi⟩
    · exact absurd (ht ▸ e) hne
    · have hcommit : commitsNext s i := ⟨rest, w, ⟨hr, hs⟩, hp, hd⟩
      rcases hi with rfl | rfl
      · exact .inr ⟨ch, idx, .inl hcommit⟩
      · exact .inr ⟨ch, idx, .inr hcommit⟩

/-- Settles O56: no body touches a filter or a TA, and a host write does only at the two registers' addresses. -/
theorem onlyHostWritesAndResetChangeFilters : Obligations.OnlyHostWritesAndResetChangeFilters := by
  intro s t c h hne
  have same : (s.ch c).SameFilter (t.ch c) → resetNext s ∨ writesNext s (0x100 + 0x10 * c) ∨ writesNext s (0x100 + 0x10 * c + 4) := by
    rintro ⟨h1, h2, h3⟩
    exact absurd hne (by simp [h1, h2, h3])
  cases step_cases h with
  | read a rest hs ht => exact same (by rw [ht, State.hostRead_ch]; exact ⟨rfl, rfl, rfl⟩)
  | write a d be rest hs ht =>
    rcases State.hostWrite_cases { s with schedule := rest } a d be with
      ⟨-, e⟩ | ⟨-, -, e⟩ | ⟨-, -, -, e⟩ | ⟨-, -, -, h4, -, e⟩ <;> rw [e] at ht
    · exact same (ht ▸ ⟨rfl, rfl, rfl⟩)
    · exact same (ht ▸ ⟨rfl, rfl, rfl⟩)
    · exact same (ht ▸ ⟨rfl, rfl, rfl⟩)
    · have hn := State.target_names { s with schedule := rest } a.toNat h4
      by_cases h1 : State.target { s with schedule := rest } a.toNat = .chan c .filter
      · rw [h1] at hn
        exact .inr (.inl ⟨a, d, be, rest, hs, hn.2⟩)
      by_cases h2 : State.target { s with schedule := rest } a.toNat = .chan c .ta
      · rw [h2] at hn
        exact .inr (.inr ⟨a, d, be, rest, hs, hn.2⟩)
      exact same (ht ▸ State.writeTarget_filter { s with schedule := rest } d _ c h1 h2)
  | assertRst rest hs ht => exact .inl ⟨rest, .inl hs⟩
  | releaseRst rest hs ht => exact same (ht ▸ ⟨rfl, rfl, rfl⟩)
  | powerOn rest hs ht => exact .inl ⟨rest, .inr hs⟩
  | idle rest hs hi ht => exact same (ht ▸ ⟨rfl, rfl, rfl⟩)
  | invalid rest w e hs hr hp hd ht => exact same (ht ▸ ⟨rfl, rfl, rfl⟩)
  | commit rest w i b hs hr hp hd hb ht => exact same (ht ▸ exec_filter hb c)

/-- Settles O57: a channel that shows another CH_STATUS or CH_TOTAL has another status. -/
theorem onlyFrameAndResetCommandsChangeChannelStatus : Obligations.OnlyFrameAndResetCommandsChangeChannelStatus := by
  intro s t c h hne
  rcases step_status h c with hsame | hr | ⟨ch, idx, ⟨h1, h2, -⟩ | ⟨h1, -⟩ | h1 | h1⟩
  · obtain ⟨h1, h2⟩ := hsame.readReg
    exact absurd hne (by simp [h1, h2])
  · exact .inl hr
  · exact .inr ⟨ch, idx, .inl ⟨h1, h2⟩⟩
  · exact .inr ⟨ch, idx, .inr (.inl h1)⟩
  · exact .inr ⟨ch, idx, .inr (.inr (.inl h1))⟩
  · exact .inr ⟨ch, idx, .inr (.inr (.inr h1))⟩

/-- Settles O58: no body writes below the payload buffers, and a host write only to its word. -/
theorem onlyHostWritesChangeTheRams : Obligations.OnlyHostWritesChangeTheRams := by
  intro s t a h _ ha hne
  cases step_cases h with
  | read x rest hs ht =>
    rw [ht, State.hostRead_frame] at hne
    exact absurd rfl hne
  | write x d be rest hs ht =>
    exact .inr ⟨x, d, be, rest, hs, State.hostWrite_read? { s with schedule := rest } x d be a (by rw [ht] at hne; exact hne)⟩
  | assertRst rest hs ht => exact absurd (ht ▸ rfl) hne
  | releaseRst rest hs ht => exact absurd (ht ▸ rfl) hne
  | powerOn rest hs ht => exact .inl ⟨rest, hs⟩
  | idle rest hs hi ht => exact absurd (ht ▸ rfl) hne
  | invalid rest w e hs hr hp hd ht => exact absurd (ht ▸ rfl) hne
  | commit rest w i b hs hr hp hd hb ht => exact absurd (ht ▸ exec_read? hb ha) hne

/-- Settles O59: a frame and END_CAPTURE change only a channel that has not failed. -/
theorem firstFailureSticks : Obligations.FirstFailureSticks := by
  intro s t c h hf
  rcases step_status h c with ⟨h1, h2, h3, h4, h5⟩ | hr | ⟨ch, idx, ⟨-, -, hn⟩ | ⟨-, hn⟩ | h1 | h1⟩
  · exact .inl ⟨h1.trans hf, h2, h3, h4, h5⟩
  · exact .inr (.inl hr)
  · exact absurd hf hn
  · exact absurd hf hn
  · exact .inr (.inr ⟨ch, idx, .inl h1⟩)
  · exact .inr (.inr ⟨ch, idx, .inr h1⟩)

end

section
/-! PROOFS. The host bus: the address map, what the registers read, and what an accepted write stores. -/

namespace Sys2Proof.Machine

open Sys2Proof.Claims

/-! ### Steps that read or write a mapped word -/

/-- An address below 2^18 is the bus address of its number. -/
theorem toNat_busAddr {a : Nat} (h : a < 2 ^ 18) : (BitVec.ofNat 18 a).toNat = a := Nat.mod_eq_of_lt h

/-- What a mapped word reads does not depend on the schedule. -/
theorem State.readTarget_schedule (s : State) (es : List Event) (x : Target) :
    State.readTarget { s with schedule := es } x = s.readTarget x := by
  cases x with
  | global r => cases r <;> rfl
  | _ => rfl

/-- A read step of a mapped word (20_memory R65). -/
theorem step_read {s : State} {a : BusAddr} {x : Target} {rest : List Event} (hr : s.rst = false) (hs : s.schedule = .read a :: rest)
    (h4 : a.toNat % 4 = 0) (hx : s.target a.toNat = x) (hm : x ≠ .unmapped) :
    step s = .next { s with schedule := rest, rdata := s.readTarget x } := by
  rw [step_cons hs, State.runEvent, State.hostRead_mapped (s := { s with schedule := rest }) hr h4 hx hm, State.readTarget_schedule]
  rfl

/-- No accepted write reads the counter of free values. -/
theorem State.writeTarget_tick (s : State) (d : Word) (x : Target) : (s.writeTarget d x).tick = s.tick.writeTarget d x := by
  cases x with
  | global r => cases r <;> rfl
  | _ => rfl

/-- A write step of a mapped word, while nothing is pending (20_memory R65). -/
theorem step_write {s : State} {a : BusAddr} {x : Target} {d : Word} {rest : List Event} (hr : s.rst = false) (hp : s.pending = none)
    (hs : s.schedule = .write a d 0b1111 :: rest) (h4 : a.toNat % 4 = 0) (hx : s.target a.toNat = x) (hm : x ≠ .unmapped) :
    step s = .next (State.writeTarget { s with schedule := rest, freeCount := s.freeCount + 1 } d x) := by
  rw [step_cons hs, State.runEvent,
    State.hostWrite_accepted (s := { s with schedule := rest }) (be := 0b1111) hr hp h4 hx hm d rfl, State.writeTarget_tick]
  rfl

/-- A read of the word that the address `a` names. -/
theorem reads_of_target {s : State} {a v : Nat} {x : Target} (hr : s.rst = false) (ha : a < 2 ^ 18) (h4 : a % 4 = 0)
    (hx : s.target a = x) (hm : x ≠ .unmapped) (hv : (s.readTarget x).toNat = v) : reads s a v := by
  intro rest
  have ht := toNat_busAddr ha
  refine ⟨_, step_read (s := { s with schedule := .read (BitVec.ofNat 18 a) :: rest }) (x := x) hr rfl (by rw [ht]; exact h4)
    (by rw [ht]; exact hx) hm, ?_⟩
  rw [← hv]
  exact congrArg BitVec.toNat (State.readTarget_schedule s _ x)

/-- A read of a global register. -/
theorem reads_global {s : State} (hr : s.rst = false) (r : GlobalReg) {v : Nat} (hv : (s.readGlobal r).toNat = v) :
    reads s r.offset v :=
  reads_of_target hr (by cases r <;> decide) (by cases r <;> rfl) (s.target_global r) (by simp) hv

/-- A read of a register of a channel that exists. -/
theorem reads_chan {s : State} (hr : s.rst = false) (hn : s.numChannels ≤ 16) {c : Nat} (hc : c < s.numChannels) (r : ChanReg) {v : Nat}
    (hv : ((s.ch c).readReg r).toNat = v) : reads s (0x100 + 0x10 * c + r.offset) v := by
  have ho : r.offset ≤ 12 ∧ r.offset % 4 = 0 := by cases r <;> decide
  exact reads_of_target hr (by omega) (by omega) (s.target_chan hc hn r) (by simp) hv

/-! ### Words made of fields -/

/-- A word made of an upper and a lower field, as a number. -/
theorem toNat_append_add {m n : Nat} (x : BitVec m) (y : BitVec n) : (x ++ y).toNat = x.toNat * 2 ^ n + y.toNat := by
  rw [BitVec.toNat_append, ← Nat.shiftLeft_add_eq_or_of_lt y.isLt, Nat.shiftLeft_eq]

@[simp] theorem toNat_bitOf (b : Bool) : (bitOf b).toNat = b.toNat := by cases b <;> rfl

theorem ChState.toNat_code (c : ChState) : c.code.toNat = stateCode c := by cases c <;> rfl

theorem ChErr.toNat_kind (e : ChErr) : e.kind.toNat = (errCode e).1 := by cases e <;> rfl

theorem ChErr.toNat_detail (e : ChErr) : e.detail.toNat = (errCode e).2 := by cases e <;> rfl

theorem RejectDetail.toNat_code (p : RejectDetail) : p.code.toNat = rejectCode p := by cases p <;> rfl

theorem CmdCause.toNat_code (c : CmdCause) : c.code.toNat = causeCode c := by cases c <;> rfl

theorem ResCode.toNat_code (c : ResCode) : c.code.toNat = resCode c := by cases c <;> rfl

/-- The two words of a 64-bit register (10_state R37). -/
theorem toNat_low_word (x : BitVec 64) : (x.extractLsb' 0 32).toNat = x.toNat % 2 ^ 32 := by simp

theorem toNat_high_word (x : BitVec 64) : (x.extractLsb' 32 32).toNat = x.toNat / 2 ^ 32 := by
  have := x.isLt
  rw [BitVec.extractLsb'_toNat, Nat.shiftRight_eq_div_pow]
  omega

/-- STATUS as a number (10_state R27). -/
theorem State.toNat_statusWord (s : State) :
    s.statusWord.toNat = s.busy.toNat + 2 * s.status.done.toNat + 4 * s.status.cmdErr.toNat + 8 * s.status.busErr.toNat
      + 16 * s.status.overrun.toNat + 2 ^ 8 * causeCode s.status.cause := by
  simp only [State.statusWord, toNat_append_add, toNat_bitOf, CmdCause.toNat_code, BitVec.toNat_ofNat]
  omega

/-- CH_STATUS as a number (10_state R41). -/
theorem Channel.toNat_statusReg (x : Channel) :
    (x.readReg .status).toNat = stateCode x.state + 2 ^ 4 * x.nextSeq.toNat + 2 ^ 8 * (errCode x.err).1
      + 2 ^ 12 * (errCode x.err).2 + 2 ^ 16 * x.len.toNat := by
  simp only [Channel.readReg, toNat_append_add, ChState.toNat_code, ChErr.toNat_kind, ChErr.toNat_detail, BitVec.toNat_ofNat]
  omega

/-- The bits of `msbFirst`: bit `i` from below is bit `n - 1 - i` in reading order (43_signal_decode R224). -/
theorem testBit_msbFirst (f : Nat → Bool) (p n i : Nat) :
    (msbFirst f p n).testBit i = (decide (i < n) && f (p + (n - 1 - i))) := by
  induction n generalizing i with
  | zero => simp [msbFirst]
  | succ n ih =>
    cases i with
    | zero => cases hf : f (p + n) <;> simp [msbFirst, hf, Nat.testBit_zero]
    | succ i =>
      have hdiv : msbFirst f p (n + 1) / 2 = msbFirst f p n := by
        have := Bool.toNat_lt (f (p + n))
        simp only [msbFirst]
        omega
      rw [Nat.testBit_succ, hdiv, ih, show n - 1 - i = n + 1 - 1 - (i + 1) by omega]
      simp

/-- Bit `c` of CH_EVENT is the event bit of channel `c` (10_state R29). -/
theorem State.testBit_chEventWord (s : State) (hn : s.numChannels ≤ 16) (c : Nat) :
    s.chEventWord.toNat.testBit c = decide (c < s.numChannels ∧ (s.ch c).event = true) := by
  have hlt : msbFirst (fun p => (s.ch (31 - p)).event) 0 32 < 2 ^ 32 := msbFirst_lt _ _ _
  rw [State.chEventWord, BitVec.toNat_ofNat, Nat.mod_eq_of_lt hlt, testBit_msbFirst]
  by_cases hc : c < s.numChannels
  · have h32 : c < 32 := by omega
    rw [show 31 - (0 + (32 - 1 - c)) = c by omega]
    simp [h32, hc]
  · simp only [hc, false_and, decide_false, Bool.and_eq_false_imp, decide_eq_true_eq]
    intro h32
    rw [State.ch_of_le s (by omega)]
    rfl

end Sys2Proof.Machine

open Sys2Proof.Machine Sys2Proof.Claims

/-- Settles O19: each block of the map at its addresses, and the inverse from what an aligned address names. -/
theorem addressMapNamesEveryWord : Obligations.AddressMapNamesEveryWord := by
  rintro s ⟨⟨-, hn⟩, ⟨-, hs⟩, ⟨-, hd⟩, -⟩
  refine ⟨?_, fun c hc => ?_, fun i w hi hw => s.target_desc hi hs hw, fun j w hj hw => s.target_lut hj hd hw,
    fun c w hc hw => s.target_window hc hw, fun a _ h4 hne => ?_⟩
  · have hoff : ∀ p ∈ globalMap, p.1 = p.2.offset := by decide
    intro p hp
    rw [hoff p hp]
    exact s.target_global p.2
  · exact ⟨s.target_chan hc hn .filter, s.target_chan hc hn .ta, s.target_chan hc hn .status, s.target_chan hc hn .total⟩
  · have h := s.target_names a h4
    cases hx : s.target a with
    | global r =>
      rw [hx] at h
      obtain rfl : a = r.offset := h
      exact .inl (by cases r <;> decide)
    | chan c r =>
      rw [hx] at h
      obtain ⟨hc, rfl⟩ := h
      have hr : r.offset = 4 * (r.offset / 4) ∧ r.offset / 4 < 4 := by cases r <;> decide
      exact .inr (.inl ⟨c, r.offset / 4, hc, hr.2, by omega⟩)
    | desc i w => rw [hx] at h; exact .inr (.inr (.inl ⟨i, w, h⟩))
    | lut j w => rw [hx] at h; exact .inr (.inr (.inr (.inl ⟨j, w, h⟩)))
    | window c w => rw [hx] at h; exact .inr (.inr (.inr (.inr ⟨c, w, h⟩)))
    | unmapped => exact absurd hx hne

/-- Settles O25: the words of the four registers, as numbers where they hold a parameter. -/
theorem identificationRegistersRead : Obligations.IdentificationRegistersRead := by
  rintro s rest hr ⟨⟨-, hn⟩, ⟨-, hs⟩, ⟨-, hd⟩, -, hp⟩
  simp only [State.params] at hn hs hd hp
  refine ⟨fun h => ⟨_, step_read hr h rfl (s.target_global .blkId) (by simp), rfl⟩,
    fun h => ⟨_, step_read hr h rfl (s.target_global .version) (by simp), rfl⟩,
    fun h => ⟨_, step_read hr h rfl (s.target_global .param0) (by simp), ?_⟩,
    fun h => ⟨_, step_read hr h rfl (s.target_global .param1) (by simp), ?_⟩⟩
  · simp only [State.readTarget, State.readGlobal, toNat_append_add, BitVec.toNat_ofNat, State.numChannels]
    omega
  · simp only [State.readTarget, State.readGlobal, toNat_append_add, BitVec.toNat_ofNat]
    omega

/-- Settles O28: each word as the sum of its fields. -/
theorem statusWordsHoldTheirFields : Obligations.StatusWordsHoldTheirFields := by
  intro s hr hn
  refine ⟨reads_global hr .status s.toNat_statusWord, ⟨_, reads_global hr .chEvent rfl, s.testBit_chEventWord hn⟩,
    reads_global hr .counters ?_, reads_global hr .lastReject ?_, reads_global hr .resCode ?_,
    reads_global hr .resRawLo (toNat_low_word _), reads_global hr .resRawHi (toNat_high_word _),
    reads_global hr .resValLo (toNat_low_word _), reads_global hr .resValHi (toNat_high_word _), reads_global hr .resLabel ?_,
    fun c hc => ⟨reads_chan hr hn hc .status (s.ch c).toNat_statusReg, reads_chan hr hn hc .total ?_⟩⟩
  · simp only [State.readGlobal, toNat_append_add]
    omega
  · simp only [State.readGlobal, toNat_append_add, RejectDetail.toNat_code, BitVec.toNat_ofNat]
    omega
  · simp only [State.readGlobal, toNat_append_add, ChState.toNat_code, ResCode.toNat_code, BitVec.toNat_ofNat]
    omega
  · simp only [State.readGlobal, toNat_append_add, BitVec.toNat_ofNat]
    omega
  · simp only [Channel.readReg, toNat_append_add, BitVec.toNat_ofNat]
    omega

end

section
/-! PROOFS. What an accepted host write stores and clears, and what a host read of a RAM word shows. -/

namespace Sys2Proof.Machine

open Sys2Proof.Claims

/-! ### Writes, from a state with the write scheduled -/

/-- A write leaves what the accepted write leaves, the model's own fields apart. -/
theorem writeLeaves_target {s u : State} {a : Nat} {x : Target} {d : Word} (hr : s.rst = false) (hp : s.pending = none)
    (ha : a < 2 ^ 18) (h4 : a % 4 = 0) (hx : s.target a = x) (hm : x ≠ .unmapped)
    (hu : ∀ rest, State.writeTarget { s with schedule := rest, freeCount := s.freeCount + 1 } d x =
      { u with schedule := rest, freeCount := s.freeCount + 1 }) :
    writeLeaves s a d u := by
  intro rest
  have ht := toNat_busAddr ha
  rw [← hu rest]
  exact step_write (s := { s with schedule := .write (BitVec.ofNat 18 a) d 0b1111 :: rest }) hr hp rfl (by rw [ht]; exact h4)
    (by rw [ht]; exact hx) hm

/-- A write to a global register. -/
theorem writeLeaves_global {s u : State} {d : Word} (hr : s.rst = false) (hp : s.pending = none) (r : GlobalReg)
    (hu : ∀ rest, State.writeGlobal { s with schedule := rest, freeCount := s.freeCount + 1 } d r =
      { u with schedule := rest, freeCount := s.freeCount + 1 }) :
    writeLeaves s r.offset d u :=
  writeLeaves_target hr hp (by cases r <;> decide) (by cases r <;> rfl) (s.target_global r) (by simp) hu

/-- A write to a register of a channel that exists. -/
theorem writeLeaves_chan {s u : State} {d : Word} (hr : s.rst = false) (hp : s.pending = none) (hn : s.numChannels ≤ 16) {c : Nat}
    (hc : c < s.numChannels) (r : ChanReg)
    (hu : ∀ rest, State.writeTarget { s with schedule := rest, freeCount := s.freeCount + 1 } d (.chan c r) =
      { u with schedule := rest, freeCount := s.freeCount + 1 }) :
    writeLeaves s (0x100 + 0x10 * c + r.offset) d u := by
  have ho : r.offset ≤ 12 ∧ r.offset % 4 = 0 := by cases r <;> decide
  exact writeLeaves_target hr hp (by omega) (by omega) (s.target_chan hc hn r) (by simp) hu

/-- A write that stores a masked word at its own address stores its defined bits and nothing else. -/
theorem storesMasked_of_target {s : State} {a : Nat} {x : Target} {d m : Word} (hr : s.rst = false) (hp : s.pending = none)
    (ha : a < 2 ^ 18) (h4 : a % 4 = 0) (hx : s.target a = x) (hm : x ≠ .unmapped)
    (hw : ∀ u : State, u.writeTarget d x = u.setMem (u.mem.writeWord a (d &&& m))) : storesMasked s a d m := by
  refine ⟨s.mem.writeWord a (d &&& m), writeLeaves_target hr hp ha h4 hx hm fun rest => hw _,
    Memory.word?_writeWord_self _ _ _, fun y hy => ?_⟩
  rw [Memory.writeWord, Memory.read?_writeBytes, if_neg]
  simp only [unpackWord, List.length_cons, List.length_nil]
  omega

/-! ### The defined bits (10_state R20) -/

/-- The defined bits of a descriptor word are the implemented ones (30_encoding R96). -/
theorem rwMask_desc (i w : Nat) : rwMask (.desc i w) = some (descMask w) := by
  unfold rwMask descMask
  match w with
  | 0 | 1 | 2 | 3 | 4 | 5 | 6 | 7 | 8 | 9 => rfl
  | _ + 10 => rfl

/-- The defined bits of a LUT word are the implemented ones (10_state R52). -/
theorem rwMask_lut (j w : Nat) : rwMask (.lut j w) = some (lutMask w) := by
  cases w <;> rfl

/-- A bit of a one-bit field. -/
theorem getLsbD_bitOf (b : Bool) (i : Nat) : (bitOf b).getLsbD i = (decide (i = 0) && b) := by
  cases b <;> cases i <;> simp [bitOf]

/-- A RAM word reads back what a write to it stored. -/
theorem State.readRam_writeWord (s : State) (a : Nat) (d m : Word) :
    (s.setMem (s.mem.writeWord a (d &&& m))).readRam a m = d &&& m := by
  simp [State.readRam, Memory.word?_writeWord_self, BitVec.and_assoc]

/-- A RW register of a channel reads back its defined bits (10_state R41). -/
theorem Channel.readReg_writeReg (x : Channel) (c : Nat) (d m : Word) (r : ChanReg) (hm : rwMask (.chan c r) = some m) :
    (x.writeReg d r).readReg r = d &&& m := by
  cases r with
  | filter | ta =>
    cases hm
    refine BitVec.eq_of_getLsbD_eq fun i hi => ?_
    simp only [Channel.writeReg, Channel.readReg, BitVec.getLsbD_append, BitVec.getLsbD_extractLsb', getLsbD_bitOf, BitVec.getLsbD_and]
    interval_cases i <;> simp
  | _ => cases hm

/-- A RW global register reads back its defined bits (10_state R21). -/
theorem State.readGlobal_writeGlobal (s : State) (d m : Word) (r : GlobalReg) (hm : rwMask (.global r) = some m) :
    (s.writeGlobal d r).readGlobal r = d &&& m := by
  cases r with
  | finData0 | finData1 =>
    cases hm
    exact BitVec.and_allOnes.symm
  | cfg | irqEn | finId | finLen | xCfg =>
    cases hm
    refine BitVec.eq_of_getLsbD_eq fun i hi => ?_
    simp only [State.writeGlobal, State.readGlobal, BitVec.getLsbD_append, BitVec.getLsbD_extractLsb', getLsbD_bitOf, BitVec.getLsbD_and]
    interval_cases i <;> simp
  | _ => cases hm

/-- Every RW word that exists reads back its defined bits. -/
theorem State.readTarget_writeTarget (s : State) {a : Nat} {x : Target} {d m : Word} (hx : s.Names a x) (hm : rwMask x = some m) :
    (s.writeTarget d x).readTarget x = d &&& m := by
  cases x with
  | global r => exact s.readGlobal_writeGlobal d m r hm
  | chan c r =>
    rw [State.writeTarget, State.readTarget, s.ch_setChan_self c _ hx.1]
    exact Channel.readReg_writeReg _ c d m r hm
  | desc i w =>
    obtain rfl := Option.some.inj ((rwMask_desc i w).symm.trans hm)
    exact s.readRam_writeWord _ _ _
  | lut j w =>
    obtain rfl := Option.some.inj ((rwMask_lut j w).symm.trans hm)
    exact s.readRam_writeWord _ _ _
  | window c w => cases hm
  | unmapped => cases hm

/-- An accepted write to a RW word leaves STATUS alone. -/
theorem State.writeTarget_status (s : State) {x : Target} (d : Word) {m : Word} (hm : rwMask x = some m) :
    (s.writeTarget d x).status = s.status := by
  cases x with
  | global r =>
    cases r with
    | cmd | status => cases hm
    | _ => rfl
  | _ => rfl

end Sys2Proof.Machine

open Sys2Proof.Machine Sys2Proof.Claims

/-- Settles O21: the read after the write finds the stored bits, and each write is the one of its register. -/
theorem rwWordsReadBackTheirDefinedBits : Obligations.RwWordsReadBackTheirDefinedBits := by
  intro s d hr hp
  have hfield : d.extractLsb' 16 6 = BitVec.ofNat 6 (d.toNat / 2 ^ 16) := by
    rw [← Nat.shiftRight_eq_div_pow]; rfl
  refine ⟨fun a m rest h4 hm hs => ?_, writeLeaves_global hr hp .cfg fun _ => rfl, writeLeaves_global hr hp .irqEn fun _ => rfl,
    writeLeaves_global hr hp .finId fun _ => rfl, writeLeaves_global hr hp .finLen fun _ => rfl,
    writeLeaves_global hr hp .finData0 fun _ => rfl, writeLeaves_global hr hp .finData1 fun _ => rfl,
    writeLeaves_global hr hp .xCfg fun _ => by rw [← hfield]; rfl, ?_⟩
  · have hmap : s.target a.toNat ≠ .unmapped := fun h => by rw [h] at hm; cases hm
    have hwrite := step_write hr hp hs h4 rfl hmap
    obtain ⟨hsizes, hnum, -, hrst, -, hsched, -⟩ :=
      State.writeTarget_fields { s with schedule := .read a :: rest, freeCount := s.freeCount + 1 } d (s.target a.toNat)
    have hread := step_read (hrst.trans hr) hsched h4 (State.target_congr (s := s) hnum hsizes a.toNat) hmap
    exact ⟨_, (run_next hwrite 1).trans ((run_one _).trans hread), State.readTarget_writeTarget _ (s.target_names a.toNat h4) hm,
      State.writeTarget_status _ d hm⟩
  · rintro ⟨⟨-, hn⟩, ⟨-, hs⟩, ⟨-, hd⟩, -⟩
    refine ⟨fun c hc => ⟨writeLeaves_chan hr hp hn hc .filter fun _ => rfl, writeLeaves_chan hr hp hn hc .ta fun _ => rfl⟩,
      fun i w m hi hw hm => ?_, fun j w m hj hw hm => ?_⟩
    · obtain rfl := Option.some.inj ((rwMask_desc i w).symm.trans hm)
      simp only [State.params] at hs
      exact storesMasked_of_target hr hp (by omega) (by omega) (s.target_desc hi hs hw) (by simp) fun _ => rfl
    · obtain rfl := Option.some.inj ((rwMask_lut j w).symm.trans hm)
      simp only [State.params] at hd
      exact storesMasked_of_target hr hp (by omega) (by omega) (s.target_lut hj hd hw) (by simp) fun _ => rfl

/-- Settles O22: the three writes, each by its access type. -/
theorem clearingWritesClearWhatTheyName : Obligations.ClearingWritesClearWhatTheyName := by
  intro s rest d hr hp
  refine ⟨fun hs => step_writeGlobal (r := .status) hr hp rfl hs,
    fun hs => ⟨_, step_writeGlobal (r := .chEvent) hr hp rfl hs, rfl, ?_, fun c hc => ?_⟩,
    fun hs => step_writeGlobal (r := .counters) hr hp rfl hs⟩
  · simp [State.writeGlobal, State.w1cChEvent, State.numChannels, State.tick]
  · exact State.ch_w1cChEvent { s with schedule := rest } d c hc

/-- Settles O26: the port is masked, and nothing else is touched. -/
theorem unwrittenRamReadsShowReservedBitsZero : Obligations.UnwrittenRamReadsShowReservedBitsZero := by
  intro s a m rest hr h4 hx hm _ hs
  have masked : ∀ v : Sys2Proof.Word, v &&& m &&& ~~~m = 0 := fun v => by simp [BitVec.and_assoc]
  rcases hx with ⟨i, w, hx⟩ | ⟨j, w, hx⟩
  · refine ⟨_, step_read hr hs h4 hx (by simp), rfl, ?_⟩
    rw [hx, rwMask_desc] at hm
    cases hm
    exact masked _
  · refine ⟨_, step_read hr hs h4 hx (by simp), rfl, ?_⟩
    rw [hx, rwMask_lut] at hm
    cases hm
    exact masked _

end

section
/-! PROOFS. DECODE and EXTRACT: the fields of a descriptor as numbers, DECODE stage by stage where the words it reads were written, and
where it stops. -/

namespace Sys2Proof.Machine

open Sys2Proof.Claims

/-! ### The fields of a descriptor as numbers (30_encoding R96) -/

/-- A field of a word, as a number. -/
theorem toNat_field (w : Word) (p n : Nat) : (w.extractLsb' p n).toNat = w.toNat / 2 ^ p % 2 ^ n := by
  rw [BitVec.extractLsb'_toNat, Nat.shiftRight_eq_div_pow]

/-- A bit of a word, as a number. -/
theorem getLsbD_iff (w : Word) (p : Nat) : w.getLsbD p = true ↔ w.toNat / 2 ^ p % 2 = 1 := by
  rw [BitVec.getLsbD, Nat.testBit_eq_decide_div_mod_eq, decide_eq_true_iff]

section
variable (d : Nat → Word)

theorem d0BitOffset_eq : d0BitOffset (d 0) = dBitOffset d := by simp [d0BitOffset, dBitOffset]

theorem d0BitLength_eq : d0BitLength (d 0) = dBitLength d := congrArg (· + 1) (toNat_field _ _ _)

theorem d0Enum_iff : d0Enum (d 0) = true ↔ dEnum d := getLsbD_iff _ _

theorem d0Valid_iff : d0Valid (d 0) = true ↔ dValid d := getLsbD_iff _ _

theorem d1MatchId_eq : (d1MatchId (d 1)).toNat = dMatchId d := by simp [d1MatchId, dMatchId]

theorem d2MatchTa_eq : (d2MatchTa (d 2)).toNat = dMatchTa d := by simp [d2MatchTa, dMatchTa]

theorem d2PfxLen_eq : d2PfxLen (d 2) = dPfxLen d := toNat_field _ _ _

theorem d2PfxCare_iff {j : Nat} (h : j < 8) : d2PfxCare (d 2) j = true ↔ dPfxCare d j := by
  rw [d2PfxCare, BitVec.getLsbD_extractLsb', decide_eq_true h, Bool.true_and]
  exact getLsbD_iff _ _

theorem d9LutBase_eq : d9LutBase (d 9) = dLutBase d := by simp [d9LutBase, dLutBase]

theorem d9LutCount_eq : d9LutCount (d 9) = dLutCount d := toNat_field _ _ _

/-- `PFX(j)` as a number (30_encoding R100). -/
theorem pfxByte_eq {j : Nat} (h : j < 8) : (pfxByte (d 3) (d 4) j).toNat = dPfxByte d j := by
  unfold pfxByte byteOf dPfxByte
  split_ifs with h4
  · rw [toNat_field, show j / 4 = 0 by omega, show j % 4 = j by omega]
  · rw [toNat_field, show j / 4 = 1 by omega, show j % 4 = j - 4 by omega]

end

/-! ### Written words -/

section
variable {s : State} {ch : BitVec 4} {idx : BitVec 10} {d : Nat → Word} {need need' : Nat → Prop}

/-- Where more words were written, fewer are too. -/
theorem slotHolds_mono (h : slotHolds s ch idx d need) (hn : ∀ w, need' w → need w) : slotHolds s ch idx d need' :=
  ⟨h.1, h.2.1, fun w hw => h.2.2 w (hn w hw)⟩

/-- A written word of the slot is read with its reserved bits masked off. -/
theorem descWord_of_slotHolds (h : slotHolds s ch idx d need) {w : Nat} (hw : need w) :
    s.descWord idx.toNat w = .ok (d w &&& descMask w) := s.ramWord_of _ (h.2.2 w hw)

/-- A word of the slot with no reserved bits is read as it was written. -/
theorem descWord_full (h : slotHolds s ch idx d need) {w : Nat} (hw : need w) (hm : descMask w = 0xFFFFFFFF) :
    s.descWord idx.toNat w = .ok (d w) := by
  rw [descWord_of_slotHolds h hw, hm]
  exact congrArg Except.ok BitVec.and_allOnes

/-! ### The stages of DECODE (43_signal_decode R213, R214) -/

/-- The validity check answers `invalid(S)` where the words it reads were written (30_encoding R103). -/
theorem descInvalid_spec (h : slotHolds s ch idx d (readForValidity d)) :
    ∃ b, s.descInvalid idx.toNat (d 0 &&& descMask 0) = .ok b ∧ (b = true ↔ dInvalid s d) := by
  by_cases hv : dValid d
  · have hv' := (d0Valid_iff d).2 hv
    have h2 := descWord_of_slotHolds h (w := 2) (.inr (.inl ⟨rfl, hv⟩))
    by_cases hp : dPfxLen d > 8
    · exact ⟨true, by simp [State.descInvalid, hv', h2, d2PfxLen_eq, hp], by simp [dInvalid, hp]⟩
    by_cases he : dEnum d
    · have he' := (d0Enum_iff d).2 he
      by_cases hl : dBitLength d > 32
      · exact ⟨true, by simp [State.descInvalid, hv', h2, d2PfxLen_eq, he', d0BitLength_eq, hl], by simp [dInvalid, he, hl]⟩
      · have h9 := descWord_of_slotHolds h (w := 9) (.inr (.inr ⟨rfl, hv, not_lt.1 hp, he, not_lt.1 hl⟩))
        exact ⟨decide (dLutBase d + dLutCount d > s.sizes.enumDepth),
          by simp [State.descInvalid, hv', h2, d2PfxLen_eq, hp, he', d0BitLength_eq, hl, h9, d9LutBase_eq, d9LutCount_eq],
          by simp [dInvalid, hv, hp, he, hl]⟩
    · have he' : d0Enum (d 0) = false := by simpa using mt (d0Enum_iff d).1 he
      exact ⟨false, by simp [State.descInvalid, hv', h2, d2PfxLen_eq, hp, he'], by simp [dInvalid, hv, hp, he]⟩
  · have hv' : d0Valid (d 0) = false := by simpa using mt (d0Valid_iff d).1 hv
    exact ⟨true, by simp [State.descInvalid, hv'], by simp [dInvalid, hv]⟩

/-- The parts of a slot that is not invalid. -/
theorem not_dInvalid (hi : ¬ dInvalid s d) :
    dValid d ∧ dPfxLen d ≤ 8 ∧ (dEnum d → dBitLength d ≤ 32) := by
  obtain ⟨h1, h2, h3, -⟩ := by simpa only [dInvalid, not_or] using hi
  exact ⟨not_not.1 h1, not_lt.1 h2, fun he => not_lt.1 fun hl => h3 ⟨he, hl⟩⟩

/-- DECODE goes on to its ID check where the slot is not invalid. -/
theorem decodeSignal_of_valid (h : slotHolds s ch idx d (readForValidity d)) (hi : ¬ dInvalid s d) (c : Nat) :
    s.decodeSignal c idx.toNat = s.decodeMatched c idx.toNat (d 0 &&& descMask 0) := by
  obtain ⟨b, hb, hiff⟩ := descInvalid_spec h
  obtain rfl : b = false := by simpa [hi] using hiff
  simp only [State.decodeSignal, descWord_of_slotHolds h (w := 0) (.inl rfl), hb]

/-- The ID check is `id_match(S, ch)` (43_signal_decode R216). -/
theorem idMatch_iff (s : State) (c : Nat) (d : Nat → Word) :
    s.idMatch c (d 1 &&& descMask 1) (d 2 &&& descMask 2) = true ↔ dIdMatch s c d := by
  unfold State.idMatch dIdMatch
  rw [d1MatchId_mask, d2MatchTa_mask, ← d1MatchId_eq, ← d2MatchTa_eq, BitVec.toNat_inj, BitVec.toNat_inj]
  cases s.cfg.ext <;> simp

/-- DECODE goes on to its payload check where the ID matches. -/
theorem decodeSignal_of_idMatch (h : slotHolds s ch idx d (readForId d)) (hi : ¬ dInvalid s d) {c : Nat} (hm : dIdMatch s c d) :
    s.decodeSignal c idx.toNat = s.decodePayload c idx.toNat (d 0 &&& descMask 0) (d 2 &&& descMask 2) := by
  rw [decodeSignal_of_valid (slotHolds_mono h fun _ => .inl) hi, State.decodeMatched, descWord_of_slotHolds h (w := 1) (.inr rfl)]
  simp only [descWord_of_slotHolds h (w := 2) (.inl (.inr (.inl ⟨rfl, (not_dInvalid hi).1⟩))), (idMatch_iff s c d).2 hm, if_true]

/-- Words D3 and D4 as far as the pattern reaches them (43_signal_decode R214). -/
theorem pfxWords_spec (h : slotHolds s ch idx d (readForPfx d)) :
    ∃ d3 d4, s.pfxWords idx.toNat (d 2 &&& descMask 2) = .ok (d3, d4) ∧
      ∀ j, j < dPfxLen d → j < 8 → (pfxByte d3 d4 j).toNat = dPfxByte d j := by
  unfold State.pfxWords
  rw [d2PfxLen_mask, d2PfxLen_eq]
  by_cases h0 : dPfxLen d = 0
  · exact ⟨0, 0, by rw [if_pos h0], fun j hj => by omega⟩
  rw [if_neg h0, descWord_full h (w := 3) (.inr (.inl ⟨rfl, by omega⟩)) rfl]
  dsimp only
  by_cases h5 : dPfxLen d < 5
  · refine ⟨d 3, 0, by rw [if_pos h5], fun j hj h8 => ?_⟩
    rw [← pfxByte_eq d h8, pfxByte, pfxByte, if_pos (by omega), if_pos (by omega)]
  · rw [if_neg h5, descWord_full h (w := 4) (.inr (.inr ⟨rfl, by omega⟩)) rfl]
    exact ⟨d 3, d 4, rfl, fun j _ h8 => pfxByte_eq d h8⟩

/-- The pattern comparison passes where the pattern matches (43_signal_decode R219, R220). -/
theorem pfxBytesMatch_of (h8 : dPfxLen d ≤ 8) {c : Nat} (hm : dPfxMatch s c d) {d3 d4 : Word}
    (hp : ∀ j, j < dPfxLen d → j < 8 → (pfxByte d3 d4 j).toNat = dPfxByte d j) :
    s.pfxBytesMatch c (d 2 &&& descMask 2) d3 d4 = true := by
  obtain ⟨hlen, hbytes⟩ := hm
  simp only [State.pfxBytesMatch, d2PfxLen_mask, d2PfxCare_mask, d2PfxLen_eq, Bool.and_eq_true, decide_eq_true_eq, List.all_eq_true,
    List.mem_range, Bool.or_eq_true, Bool.not_eq_true']
  refine ⟨hlen, fun j hj => ?_⟩
  by_cases hc : d2PfxCare (d 2) j = true
  · right
    apply BitVec.eq_of_toNat_eq
    rw [hp j hj (by omega), hbytes j hj ((d2PfxCare_iff d (by omega)).1 hc)]
  · exact .inl (by simpa using hc)

/-- DECODE goes on to its bounds check where the pattern matches. -/
theorem decodeSignal_of_accepted (h : slotHolds s ch idx d (readForPfx d)) {c : Nat} (ha : dAccepted s c d) :
    s.decodeSignal c idx.toNat = s.decodeField c idx.toNat (d 0 &&& descMask 0) := by
  obtain ⟨hi, hid, hc, hpfx⟩ := ha
  obtain ⟨d3, d4, hw, hp⟩ := pfxWords_spec h
  rw [decodeSignal_of_idMatch (slotHolds_mono h fun _ => .inl) hi hid, State.decodePayload, if_neg (not_not.2 hc), hw]
  simp only [pfxBytesMatch_of (not_dInvalid hi).2.1 hpfx hp, if_true]

/-- An extracted field is the sum of its bits (43_signal_decode R224). -/
theorem extractField_eq_fieldSum (s : State) (c off len : Nat) : s.extractField c off len = fieldSum s c off len := by
  unfold State.extractField fieldSum
  induction len with
  | zero => rfl
  | succ n ih =>
    rw [msbFirst, ih, Finset.sum_range_succ, Finset.mul_sum]
    refine congrArg₂ (· + ·) (Finset.sum_congr rfl fun q hq => ?_) ?_
    · have hq := Finset.mem_range.1 hq
      rw [show n + 1 - 1 - q = (n - 1 - q) + 1 by omega, pow_succ]
      ring
    · rw [State.pbit]
      cases (s.buf c ((off + n) / 8)).getLsbD (7 - (off + n) % 8) <;> simp

/-- DECODE goes on to its transform where the field lies in the payload (43_signal_decode R221). -/
theorem decodeSignal_of_inBounds (h : slotHolds s ch idx d (readForPfx d)) {c : Nat} (hb : dInBounds s c d) :
    (dEnum d → s.decodeSignal c idx.toNat = s.enumResult c idx.toNat (fieldSum s c (dBitOffset d) (dBitLength d))) ∧
    (¬ dEnum d → s.decodeSignal c idx.toNat = s.linearResult c idx.toNat (fieldSum s c (dBitOffset d) (dBitLength d))) := by
  rw [decodeSignal_of_accepted h hb.1, State.decodeField, d0BitOffset_mask, d0BitLength_mask, d0BitOffset_eq, d0BitLength_eq, d0Enum_mask,
    if_neg (not_lt.2 hb.2), extractField_eq_fieldSum]
  exact ⟨fun he => if_pos ((d0Enum_iff d).2 he), fun he => if_neg (mt (d0Enum_iff d).1 he)⟩

/-! ### Where DECODE stops (93_implementation_defined U1) -/

/-- DECODE stops at a word where its outcome is the fault of that word. -/
theorem stopsAt_of {a : Nat} (h : slotHolds s ch idx d need)
    (hf : s.mem.word? a = none → s.decodeSignal ch.toNat idx.toNat = .error (.unwrittenRamWord a)) : stopsAt s ch idx a := by
  intro ha
  simp only [exec, execDecode, if_pos h.1, if_pos h.2.1, hf ha]

/-- A word of a slot that was never written is the fault. -/
theorem descWord_none {i w : Nat} (h : s.mem.word? (descAddr i w) = none) : s.descWord i w = .error (.unwrittenRamWord (descAddr i w)) :=
  s.ramWord_none _ h

/-- A LUT word that was never written is the fault. -/
theorem lutWord_none {j w : Nat} (h : s.mem.word? (lutAddr j w) = none) : s.lutWord j w = .error (.unwrittenRamWord (lutAddr j w)) :=
  s.ramWord_none _ h

/-- A key is read as it was written. -/
theorem lutWord_key {j : Nat} {k : Word} (h : s.mem.word? (lutAddr j 0) = some k) : s.lutWord j 0 = .ok k := by
  rw [State.lutWord, s.ramWord_of _ h]
  exact congrArg Except.ok BitVec.and_allOnes

/-- The lookup stops at the first key that was never written, where no key before it is raw (43_signal_decode R230). -/
theorem lookup_stops {raw b n j : Nat} {key : Nat → Word} (hb : b ≤ j) (hj : j < b + n)
    (hk : ∀ x, b ≤ x → x < j → s.mem.word? (lutAddr x 0) = some (key x) ∧ (key x).toNat ≠ raw)
    (h : s.mem.word? (lutAddr j 0) = none) : s.lookup raw b n = .error (.unwrittenRamWord (lutAddr j 0)) := by
  induction n generalizing b with
  | zero => omega
  | succ n ih =>
    rw [State.lookup]
    by_cases hbj : b = j
    · rw [hbj, lutWord_none h]
    · obtain ⟨hw, hne⟩ := hk b le_rfl (by omega)
      simp only [lutWord_key hw, if_neg hne]
      exact ih (by omega) (by omega) fun x h1 h2 => hk x (by omega) h2

/-- SCALE and OFFSET have no reserved bits (30_encoding R101). -/
theorem descMask_transform {w : Nat} (h5 : 5 ≤ w) (h8 : w ≤ 8) : descMask w = 0xFFFFFFFF := by
  interval_cases w <;> rfl

/-- A Linear signal's transform reads D5 to D8 in order, and stops at the first that was never written. -/
theorem scaleOffset_stops {w : Nat} (h5 : 5 ≤ w) (h8 : w ≤ 8) (hd : ∀ x, 5 ≤ x → x < w → s.descWord idx.toNat x = .ok (d x))
    (hw : s.mem.word? (descAddr idx.toNat w) = none) :
    s.scaleOffset idx.toNat = .error (.unwrittenRamWord (descAddr idx.toNat w)) := by
  have hn := descWord_none hw
  unfold State.scaleOffset
  interval_cases w
  · rw [hn]
  · simp only [hd 5 (by omega) (by omega), hn]
  · simp only [hd 5 (by omega) (by omega), hd 6 (by omega) (by omega), hn]
  · simp only [hd 5 (by omega) (by omega), hd 6 (by omega) (by omega), hd 7 (by omega) (by omega), hn]

/-- DECODE stops at an unwritten D0. -/
theorem stopsAt_d0 (h : slotHolds s ch idx d need) : stopsAt s ch idx (descAddr idx.toNat 0) :=
  stopsAt_of h fun ha => by rw [State.decodeSignal, descWord_none ha]

/-- The validity check of a valid slot stops at an unwritten D2. -/
theorem stopsAt_d2 (h : slotHolds s ch idx d (· = 0)) (hv : dValid d) : stopsAt s ch idx (descAddr idx.toNat 2) :=
  stopsAt_of h fun ha => by
    have hi : s.descInvalid idx.toNat (d 0 &&& descMask 0) = .error (.unwrittenRamWord (descAddr idx.toNat 2)) := by
      simp [State.descInvalid, (d0Valid_iff d).2 hv, descWord_none ha]
    simp only [State.decodeSignal, descWord_of_slotHolds h (w := 0) rfl, hi]

/-- The validity check of an EnumMap slot stops at an unwritten D9 (30_encoding R103). -/
theorem stopsAt_d9 (h : slotHolds s ch idx d (fun w => w = 0 ∨ w = 2)) (hv : dValid d) (hp : dPfxLen d ≤ 8) (he : dEnum d)
    (hl : dBitLength d ≤ 32) : stopsAt s ch idx (descAddr idx.toNat 9) :=
  stopsAt_of h fun ha => by
    have hi : s.descInvalid idx.toNat (d 0 &&& descMask 0) = .error (.unwrittenRamWord (descAddr idx.toNat 9)) := by
      simp [State.descInvalid, (d0Valid_iff d).2 hv, descWord_of_slotHolds h (w := 2) (.inr rfl), d2PfxLen_eq, not_lt.2 hp,
        (d0Enum_iff d).2 he, d0BitLength_eq, not_lt.2 hl, descWord_none ha]
    simp only [State.decodeSignal, descWord_of_slotHolds h (w := 0) (.inl rfl), hi]

/-- The ID check stops at an unwritten D1. -/
theorem stopsAt_d1 (h : slotHolds s ch idx d (readForValidity d)) (hi : ¬ dInvalid s d) : stopsAt s ch idx (descAddr idx.toNat 1) :=
  stopsAt_of h fun ha => by rw [decodeSignal_of_valid h hi, State.decodeMatched, descWord_none ha]

/-- DECODE stops where the words of the pattern do. -/
theorem stopsAt_of_pfxWords (h : slotHolds s ch idx d (readForId d)) (hi : ¬ dInvalid s d) (hid : dIdMatch s ch.toNat d)
    (hc : (s.ch ch.toNat).state = .complete) {a : Nat}
    (hp : s.mem.word? a = none → s.pfxWords idx.toNat (d 2 &&& descMask 2) = .error (.unwrittenRamWord a)) : stopsAt s ch idx a :=
  stopsAt_of h fun ha => by rw [decodeSignal_of_idMatch h hi hid, State.decodePayload, if_neg (not_not.2 hc), hp ha]

/-- The pattern stops at an unwritten D3 that it reaches. -/
theorem pfxWords_d3 (hl : 1 ≤ dPfxLen d) (ha : s.mem.word? (descAddr idx.toNat 3) = none) :
    s.pfxWords idx.toNat (d 2 &&& descMask 2) = .error (.unwrittenRamWord (descAddr idx.toNat 3)) := by
  rw [State.pfxWords, d2PfxLen_mask, d2PfxLen_eq, if_neg (by omega), descWord_none ha]

/-- The pattern stops at an unwritten D4 that it reaches. -/
theorem pfxWords_d4 (hl : 5 ≤ dPfxLen d) {d3 : Word} (h3 : s.descWord idx.toNat 3 = .ok d3)
    (ha : s.mem.word? (descAddr idx.toNat 4) = none) :
    s.pfxWords idx.toNat (d 2 &&& descMask 2) = .error (.unwrittenRamWord (descAddr idx.toNat 4)) := by
  rw [State.pfxWords, d2PfxLen_mask, d2PfxLen_eq, if_neg (by omega), h3]
  dsimp only
  rw [if_neg (by omega), descWord_none ha]

/-- A Linear signal stops at an unwritten word of its transform, where those before it were written. -/
theorem stopsAt_linear {w : Nat} (h5 : 5 ≤ w) (h8 : w ≤ 8) (h : slotHolds s ch idx d (fun x => readForPfx d x ∨ (5 ≤ x ∧ x < w)))
    (hb : dInBounds s ch.toNat d) (he : ¬ dEnum d) : stopsAt s ch idx (descAddr idx.toNat w) :=
  stopsAt_of h fun ha => by
    have hd : ∀ x, 5 ≤ x → x < w → s.descWord idx.toNat x = .ok (d x) := fun x h1 h2 =>
      descWord_full h (.inr ⟨h1, h2⟩) (descMask_transform h1 (by omega))
    rw [(decodeSignal_of_inBounds (slotHolds_mono h fun _ => .inl) hb).2 he, State.linearResult, scaleOffset_stops h5 h8 hd ha]

/-- An EnumMap signal reads D9 and looks its raw value up. -/
theorem decodeSignal_of_enum (h : slotHolds s ch idx d (readForPfx d)) {c : Nat} (hb : dInBounds s c d) (he : dEnum d) :
    s.descWord idx.toNat 9 = .ok (d 9 &&& descMask 9) ∧
      s.decodeSignal c idx.toNat = s.enumResult c idx.toNat (fieldSum s c (dBitOffset d) (dBitLength d)) := by
  obtain ⟨hv, hp, hl⟩ := not_dInvalid hb.1.1
  exact ⟨descWord_of_slotHolds h (.inl (.inl (.inr (.inr ⟨rfl, hv, hp, he, hl he⟩)))), (decodeSignal_of_inBounds h hb).1 he⟩

/-- An EnumMap signal stops at the first unwritten key, and at the unwritten label of its match. -/
theorem stopsAt_enum (h : slotHolds s ch idx d (readForPfx d)) (hb : dInBounds s ch.toNat d) (he : dEnum d) {key : Nat → Word} {j : Nat}
    (h1 : dLutBase d ≤ j) (h2 : j < dLutBase d + dLutCount d) {raw : Nat}
    (hraw : raw = fieldSum s ch.toNat (dBitOffset d) (dBitLength d))
    (hk : ∀ x, dLutBase d ≤ x → x < j → s.mem.word? (lutAddr x 0) = some (key x) ∧ (key x).toNat ≠ raw) :
    stopsAt s ch idx (lutAddr j 0) ∧
      (s.mem.word? (lutAddr j 0) = some (key j) → (key j).toNat = raw → stopsAt s ch idx (lutAddr j 1)) := by
  obtain ⟨h9, hdec⟩ := decodeSignal_of_enum h hb he
  rw [← hraw, State.enumResult, h9] at hdec
  simp only [d9LutBase_mask, d9LutCount_mask, d9LutBase_eq, d9LutCount_eq] at hdec
  refine ⟨stopsAt_of h fun ha => ?_, fun hj hjr => stopsAt_of h fun ha => ?_⟩
  · rw [hdec, lookup_stops h1 h2 hk ha]
  · have hmatch : ∀ y, dLutBase d ≤ y → y ≤ j → ∃ k : Word, s.mem.word? (lutAddr y 0) = some k ∧ (k.toNat = raw ↔ y = j) := by
      intro y hy hyj
      rcases Nat.lt_or_eq_of_le hyj with hlt | rfl
      · obtain ⟨hw, hne⟩ := hk y hy hlt
        exact ⟨key y, hw, by simp [hne, Nat.ne_of_lt hlt]⟩
      · exact ⟨key y, hj, by simp [hjr]⟩
    rw [hdec, s.lookup_some h1 h2 hmatch]
    simp only [lutWord_none ha]

end

/-- No body is refused, and only DECODE faults (70_reset_and_hazards R296). -/
theorem exec_stops (i : Instr) (s : State) :
    (∃ t, exec i s = .next t) ∨ ∃ ch idx f, i = .decode ch idx ∧ s.Unwritten idx.toNat f ∧ exec i s = .fault f := by
  cases i with
  | decode ch idx =>
    rcases execDecode_cases s ch idx with ⟨-, -, ⟨r, -, -, -, e⟩ | ⟨f, -, hf, e⟩⟩ | ⟨c, -, e⟩
    · exact .inl ⟨_, e⟩
    · exact .inr ⟨ch, idx, f, rfl, hf, e⟩
    · exact .inl ⟨_, e⟩
  | extract ch idx => rcases execExtract_cases s ch idx with ⟨-, e⟩ | ⟨-, e⟩ <;> exact .inl ⟨_, e⟩
  | chReset ch idx =>
    by_cases hc : ch.toNat < s.numChannels
    · exact .inl ⟨_, if_pos hc⟩
    · exact .inl ⟨_, if_neg hc⟩
  | _ => exact .inl ⟨_, rfl⟩

end Sys2Proof.Machine

open Sys2Proof.Machine Sys2Proof.Claims

/-- Settles O49: the cases of DECODE and of EXTRACT. -/
theorem decodeAndExtractWriteOnlyResults : Obligations.DecodeAndExtractWriteOnlyResults := by
  intro i ch idx s t hi h
  rcases hi with rfl | rfl
  · change execDecode ch idx s = .next t at h
    rcases execDecode_cases s ch idx with ⟨h1, h2, ⟨r, -, hr, hst, e⟩ | ⟨f, -, -, e⟩⟩ | ⟨c, hn, e⟩ <;> rw [e] at h <;> cases h
    · exact ⟨fun _ _ => ⟨rfl, hr, hst⟩, fun hn => absurd ⟨h1, fun _ => h2⟩ hn⟩
    · exact ⟨fun h1 h2 => absurd ⟨h1, h2 rfl⟩ hn, fun _ => rfl⟩
  · change execExtract ch idx s = .next t at h
    rcases execExtract_cases s ch idx with ⟨h1, e⟩ | ⟨hn, e⟩ <;> rw [e] at h <;> cases h
    · obtain ⟨hr, hst⟩ := s.extractResult_answers ch.toNat
      exact ⟨fun _ _ => ⟨rfl, hr, hst⟩, fun hn => absurd ⟨h1, (nomatch ·)⟩ hn⟩
    · exact ⟨fun h1 _ => absurd h1 hn, fun _ => rfl⟩

/-- Settles O50: what can stop a body, and each stage of DECODE at the word it reads. -/
theorem onlyUnwrittenWordsStopTheMachine : Obligations.OnlyUnwrittenWordsStopTheMachine := by
  refine ⟨fun i s => ⟨fun f hf => ?_, fun r hr => ?_⟩, fun ch idx s d => ⟨stopsAt_d0, stopsAt_d2, stopsAt_d9, stopsAt_d1,
    fun h hi hid hc hl => stopsAt_of_pfxWords h hi hid hc (pfxWords_d3 hl),
    fun h hi hid hc hl => stopsAt_of_pfxWords (slotHolds_mono h fun _ => .inl) hi hid hc
      (pfxWords_d4 hl (descWord_of_slotHolds h (.inr rfl))),
    fun w h5 h8 h hb he => stopsAt_linear h5 h8 h hb he, fun key j h hb he h1 h2 hk => stopsAt_enum h hb he h1 h2 rfl hk⟩⟩
  · rcases exec_stops i s with ⟨t, e⟩ | ⟨ch, idx, g, rfl, ⟨a, rfl, hw, ha⟩, e⟩ <;> rw [e] at hf <;> cases hf
    exact ⟨ch, idx, a, rfl, rfl, hw, ha⟩
  · rcases exec_stops i s with ⟨t, e⟩ | ⟨ch, idx, g, -, -, e⟩ <;> rw [e] at hr <;> cases hr

end

section
/-! PROOFS. Single host accesses: a bad one, a repeated read, a write to a RO word, and what the payload window shows. -/

namespace Sys2Proof.Machine

open Sys2Proof.Claims

/-- What a mapped word reads does not depend on the port. -/
theorem State.readTarget_setRdata (s : State) (w : Word) (x : Target) : (s.setRdata w).readTarget x = s.readTarget x := by
  cases x with
  | global r => cases r <;> rfl
  | _ => rfl

/-- The same read again finds everything as the first one left it (20_memory R68). -/
theorem State.hostRead_hostRead (s : State) (a : BusAddr) : (s.hostRead a).hostRead a = s.hostRead a := by
  rcases s.hostRead_cases a with ⟨hr, e⟩ | ⟨hr, hbad, e⟩ | ⟨hr, h4, hm, e⟩ <;> rw [e]
  · exact if_pos hr
  · exact State.hostRead_bad (s := s.busError.setRdata 0) hr hbad
  · rw [State.hostRead_mapped (s := s.setRdata (s.readTarget (s.target a.toNat))) hr h4 rfl hm, State.readTarget_setRdata]
    rfl

/-- A read step taken again leaves the state as the first one left it. -/
theorem step_read_again {s t : State} {a : BusAddr} {rest : List Event} (hs : s.schedule = .read a :: rest) (h : step s = .next t) :
    step { t with schedule := .read a :: rest } = .next t := by
  have ht : State.hostRead { s with schedule := rest } a = t := Host.Outcome.next.inj ((step_cons hs).symm.trans h)
  have hsched : t.schedule = rest := by rw [← ht, State.hostRead_frame]
  have hagain : t.hostRead a = t := by rw [← ht, State.hostRead_hostRead]
  subst hsched
  rw [step_cons rfl]
  exact congrArg Host.Outcome.next hagain

/-- A read sets BUS_ERR exactly where it is out of reset and misaligned or unmapped (20_memory R64, R66), and changes only the port
besides (R68). -/
theorem State.hostRead_busErr (s : State) (a : BusAddr) :
    ∃ b, s.hostRead a =
        { s with rdata := (s.hostRead a).rdata, status := { s.status with busErr := s.status.busErr || b } } ∧
      (b = true ↔ s.rst = false ∧ (a.toNat % 4 ≠ 0 ∨ s.target a.toNat = .unmapped)) := by
  rcases s.hostRead_cases a with ⟨hr, e⟩ | ⟨hr, hbad, e⟩ | ⟨hr, h4, hm, e⟩ <;> rw [e]
  · exact ⟨false, by rw [Bool.or_false]; rfl, by simp [hr]⟩
  · exact ⟨true, by rw [Bool.or_true]; rfl, by simpa only [true_iff] using ⟨hr, hbad⟩⟩
  · exact ⟨false, by rw [Bool.or_false]; rfl, by simp [h4, hm]⟩

/-- An accepted write to a RO word or to the payload window changes nothing (20_memory R67). -/
theorem State.writeTarget_readOnly (s : State) (d : Word) {x : Target} (hx : readOnly x = true) : s.writeTarget d x = s := by
  cases x with
  | global r => cases r <;> cases hx <;> rfl -- `cases hx` closes the registers that are not RO
  | chan c r =>
    cases r with
    | filter | ta => cases hx
    | status | total => exact s.setChan_ch c
  | window c w => rfl
  | desc i w | lut j w | unmapped => cases hx

/-- Byte `k` of a word packed from four bytes (20_memory R73). -/
theorem packWord_byte (f : Nat → Byte) {k : Nat} (hk : k < 4) :
    (packWord (f 0) (f 1) (f 2) (f 3)).toNat / 2 ^ (8 * k) % 2 ^ 8 = (f k).toNat := by
  have h0 := (f 0).isLt
  have h1 := (f 1).isLt
  have h2 := (f 2).isLt
  simp only [packWord, toNat_append_add]
  interval_cases k <;> omega

/-- A payload window byte as a number (20_memory R72). -/
theorem State.toNat_windowByte (s : State) (c i : Nat) :
    (s.windowByte c i).toNat = if i < (s.ch c).len.toNat then (s.buf c i).toNat else 0 := by
  unfold State.windowByte
  split_ifs <;> rfl

end Sys2Proof.Machine

open Sys2Proof.Machine Sys2Proof.Claims

/-- Settles O18: the rules of a bad write and of a bad read. -/
theorem badAccessOnlySetsBusError : Obligations.BadAccessOnlySetsBusError := by
  refine fun s rest a hr => ⟨fun d be hp hs hbad => ?_, fun hs hbad => ?_⟩
  · rw [step_cons hs, State.runEvent, State.hostWrite_bad (s := { s with schedule := rest }) hr hp hbad]
    rfl
  · rw [step_cons hs, State.runEvent, State.hostRead_bad (s := { s with schedule := rest }) hr hbad]
    rfl

/-- Settles O20: what a read changes, and that the same read again ends in the same state. -/
theorem hostReadHasNoSideEffect : Obligations.HostReadHasNoSideEffect := by
  intro s a rest hs
  have hstep : step s = .next (State.hostRead { s with schedule := rest } a) := step_cons hs
  refine ⟨_, hstep, State.hostRead_busErr { s with schedule := rest } a, fun t' h' => ?_⟩
  exact congrArg State.rdata (Host.Outcome.next.inj (h'.symm.trans (step_read_again hs hstep)))

/-- Settles O23: a RO word is mapped and is left as it was, and CMD is mapped and reads 0. -/
theorem readOnlyWritesAndCommandReadsDoNothing : Obligations.ReadOnlyWritesAndCommandReadsDoNothing := by
  refine fun s rest hr => ⟨fun a d hp h4 hro hs => ?_, fun hs => step_read hr hs rfl (s.target_global .cmd) (by simp)⟩
  have hm : s.target a.toNat ≠ .unmapped := fun hx => by rw [hx] at hro; cases hro
  rw [step_write hr hp hs h4 rfl hm, State.writeTarget_readOnly _ _ hro]

/-- Settles O24: a read of the window word that holds the byte, and the byte's place in it. -/
theorem payloadWindowShowsTheFirstLenBytes : Obligations.PayloadWindowShowsTheFirstLenBytes := by
  intro s rest c i a hr hc hi ha hs
  have hx : s.target a.toNat = .window c (i / 4) := ha ▸ s.target_window hc (by omega)
  refine ⟨_, step_read hr hs (by omega) hx (by simp), ?_⟩
  calc (s.readTarget (.window c (i / 4))).toNat / 2 ^ (8 * (i % 4)) % 2 ^ 8
      = (s.windowByte c (4 * (i / 4) + i % 4)).toNat :=
        packWord_byte (fun k => s.windowByte c (4 * (i / 4) + k)) (Nat.mod_lt i (by omega))
    _ = (s.windowByte c i).toNat := by rw [Nat.div_add_mod]
    _ = if i < (s.ch c).len.toNat then (s.buf c i).toNat else 0 := s.toNat_windowByte c i

end

section
/-! PROOFS. Host accesses while a command is pending: what they leave behind, and that the commit neither reads nor changes it. -/

namespace Sys2Proof.Machine

open Sys2Proof.Claims

/-- What host accesses leave behind while a command is pending: BUS_ERR, OVERRUN, the port and the model's free-value counter. -/
structure AccessTrace where
  busErr : Bool
  overrun : Bool
  rdata : Word
  freeCount : Nat

/-- The trace that a state has. -/
def State.trace (s : State) : AccessTrace := ⟨s.status.busErr, s.status.overrun, s.rdata, s.freeCount⟩

/-- `s` with another trace of host accesses. -/
def State.withTrace (s : State) (x : AccessTrace) : State :=
  { s with rdata := x.rdata, freeCount := x.freeCount, status := { s.status with busErr := x.busErr, overrun := x.overrun } }

/-- The trace with the counter of free values advanced. -/
def AccessTrace.tick (x : AccessTrace) : AccessTrace := { x with freeCount := x.freeCount + 1 }

/-- An outcome with a function applied to its next state; a stop stays the stop it is. -/
def mapNext (f : State → State) : Host.Outcome State Fault Refusal → Host.Outcome State Fault Refusal
  | .next t => .next (f t)
  | .fault r => .fault r
  | .refused r => .refused r

/-! ### The accesses -/

/-- A host read leaves a trace and nothing else, in any state (20_memory R68). -/
theorem State.hostRead_eq_withTrace (s : State) (a : BusAddr) : s.hostRead a = s.withTrace (s.hostRead a).trace := by
  rcases s.hostRead_cases a with ⟨-, e⟩ | ⟨-, -, e⟩ | ⟨-, -, -, e⟩ <;> rw [e] <;> rfl

/-- A host access while a command is pending leaves a trace and nothing else (40_command_dispatch R134). -/
theorem step_access {s : State} {w : Word} {e : Event} {rest : List Event} (hr : s.rst = false) (hp : s.pending = some w)
    (hs : s.schedule = e :: rest) (he : access e = true) : ∃ x, step s = .next (State.withTrace { s with schedule := rest } x) := by
  rw [step_cons hs]
  cases e with
  | read a => exact ⟨_, congrArg Host.Outcome.next (State.hostRead_eq_withTrace { s with schedule := rest } a)⟩
  | write a d be =>
    rw [State.runEvent, State.hostWrite_busy (s := { s with schedule := rest }) hr hp]
    exact ⟨(State.overrun { s with schedule := rest }).trace.tick, rfl⟩
  | engine | assertRst | releaseRst | powerOn => cases he

/-- So do any number of them, before the step that comes next. -/
theorem run_accesses {s : State} {w : Word} {es rest : List Event} (hr : s.rst = false) (hp : s.pending = some w)
    (hs : s.schedule = es ++ rest) (hes : ∀ e, e ∈ es → access e = true) :
    ∃ x, Host.Core.run Sys2Proof.core (es.length + 1) s = step (State.withTrace { s with schedule := rest } x) := by
  induction es generalizing s with
  | nil =>
    obtain rfl : s.schedule = rest := hs
    exact ⟨s.trace, run_one s⟩
  | cons e es ih =>
    obtain ⟨x, hx⟩ := step_access hr hp hs (hes e List.mem_cons_self)
    obtain ⟨y, hy⟩ := ih (s := State.withTrace { s with schedule := es ++ rest } x) hr hp rfl
      fun d hd => hes d (List.mem_cons_of_mem e hd)
    exact ⟨y, (run_next hx (es.length + 1)).trans hy⟩

/-! ### The commit -/

/-- A pushed frame neither reads nor changes the trace. -/
theorem State.pushClass_withTrace (s : State) (v : FrameClass) (x : AccessTrace) :
    (s.withTrace x).pushClass v = (s.pushClass v).withTrace x := by
  have hframe := s.pushClass_other v s.status s.pending s.rdata s.schedule s.freeCount
  calc (s.withTrace x).pushClass v
      = { s.pushClass v with status := (s.withTrace x).status, pending := s.pending, rdata := x.rdata, schedule := s.schedule,
                             freeCount := x.freeCount } :=
        s.pushClass_other v (s.withTrace x).status s.pending x.rdata s.schedule x.freeCount
    _ = (s.pushClass v).withTrace x := by
        rw [show s.pushClass v = _ from hframe]
        rfl

/-- No body reads or changes the trace. -/
theorem exec_withTrace (i : Instr) (s : State) (x : AccessTrace) :
    exec i (s.withTrace x) = mapNext (State.withTrace · x) (exec i s) := by
  have hin : s.SameInputs (s.withTrace x) := ⟨rfl, rfl, rfl, rfl⟩
  cases i with
  | nop | endCapture | resetChannels => rfl
  | pushFrame | sf | ff | cf | pciRsv3 | pciRsv47 | pciRsv8F => exact congrArg Host.Outcome.next (s.pushClass_withTrace _ x)
  | chReset ch idx =>
    simp only [exec, execChReset, apply_ite (mapNext _)]
    rfl
  | decode ch idx =>
    simp only [exec, execDecode, hin.decodeSignal, apply_ite (mapNext _)]
    cases s.decodeSignal ch.toNat idx.toNat <;> rfl
  | extract ch idx =>
    simp only [exec, execExtract, hin.extractResult rfl, apply_ite (mapNext _)]
    rfl

/-- A commit carries the trace through, but that it advances the counter of free values. -/
theorem State.commit_withTrace (s : State) (w : Word) (x : AccessTrace) :
    (s.withTrace x).commit w = mapNext (State.withTrace · x.tick) (s.commit w) := by
  unfold State.commit
  cases decodeCmd w with
  | error e => rfl
  | ok i =>
    simp only [exec_withTrace]
    cases exec i s <;> rfl

/-- The engine's step on a state with a trace. -/
theorem step_engine_withTrace {s : State} {w : Word} {rest : List Event} (hr : s.rst = false) (hp : s.pending = some w)
    (hs : s.schedule = .engine :: rest) (x : AccessTrace) :
    step (s.withTrace x) = mapNext (State.withTrace · x.tick) (step s) := by
  have hl : step (s.withTrace x) = (State.withTrace { s with schedule := rest } x).commit w := by
    rw [step_cons (s := s.withTrace x) hs]
    exact State.engineTurn_commit hr hp
  have hc : step s = State.commit { s with schedule := rest } w := by
    rw [step_cons hs]
    exact State.engineTurn_commit hr hp
  rw [hl, hc, State.commit_withTrace]

end Sys2Proof.Machine

open Sys2Proof.Machine Sys2Proof.Claims

/-- Settles O16: the accesses leave a trace, and the commit carries it through. -/
theorem commitIgnoresInterleavedAccesses : Obligations.CommitIgnoresInterleavedAccesses := by
  intro s w es rest hr hp hs hes
  obtain ⟨x, hx⟩ := run_accesses hr hp hs hes
  have hstep : Host.Core.run Sys2Proof.core (es.length + 1) s =
      mapNext (State.withTrace · x.tick) (step { s with schedule := .engine :: rest }) :=
    hx.trans (step_engine_withTrace (s := { s with schedule := .engine :: rest }) hr hp rfl x)
  refine ⟨fun t0 h0 => ?_, fun r h0 => ?_⟩ <;> rw [h0] at hstep
  · exact ⟨t0.withTrace x.tick, hstep, rfl⟩
  · exact hstep

end

section
/-! PROOFS. The decoder and the encoder: each undoes the other, and which command words decode. -/

namespace Sys2Proof

open Sys2Proof.Machine

/-- A field of a bit vector, as a number. -/
theorem toNat_extract {m : Nat} (x : BitVec m) (p n : Nat) : (x.extractLsb' p n).toNat = x.toNat / 2 ^ p % 2 ^ n := by
  rw [BitVec.extractLsb'_toNat, Nat.shiftRight_eq_div_pow]

/-- A bit vector is made of its upper field `a` and the bits below it. -/
theorem append_extract_low {m n : Nat} {a : BitVec m} {x : BitVec (m + n)} (h : x.toNat / 2 ^ n = a.toNat) :
    a ++ x.extractLsb' 0 n = x := by
  apply BitVec.eq_of_toNat_eq
  rw [toNat_append_add, toNat_extract, ← h, pow_zero, Nat.div_one, Nat.mul_comm, Nat.div_add_mod]

/-- A command word is made of its fields, where the reserved ones are 0 (30_encoding R83). -/
theorem cmdWord_extract {w : Word} (h12 : w.extractLsb' 12 4 = 0#4) (h26 : w.extractLsb' 26 6 = 0#6) :
    cmdWord (w.extractLsb' 0 8) (w.extractLsb' 8 4) (w.extractLsb' 16 10) = w := by
  apply BitVec.eq_of_toNat_eq
  have e12 := congrArg BitVec.toNat h12
  have e26 := congrArg BitVec.toNat h26
  have hw := w.isLt
  simp only [toNat_extract, BitVec.toNat_ofNat] at e12 e26
  simp only [cmdWord, toNat_append_add, toNat_extract, BitVec.toNat_ofNat]
  omega

/-- The reserved fields and OP of a command word as numbers (30_encoding R83). -/
theorem cmdFields_toNat (w : Word) :
    (w.extractLsb' 12 4 = 0#4 ↔ w.toNat / 2 ^ 12 % 2 ^ 4 = 0) ∧ (w.extractLsb' 26 6 = 0#6 ↔ w.toNat / 2 ^ 26 = 0) ∧
      (w.extractLsb' 0 8).toNat = w.toNat % 2 ^ 8 := by
  have hw := w.isLt
  refine ⟨?_, ?_, ?_⟩
  · rw [← BitVec.toNat_inj, toNat_extract]; rfl
  · rw [← BitVec.toNat_inj, toNat_extract, Nat.mod_eq_of_lt (by omega)]; rfl
  · rw [toNat_extract, pow_zero, Nat.div_one]

/-- A word that decodes is the encoding of its command. -/
theorem encode_of_decodeCmd {w : Word} {i : Instr} (h : decodeCmd w = .ok i) : encode i = .cmd w := by
  rcases decodeCmd_cases w with ⟨-, e⟩ | ⟨-, -, -, e⟩ | ⟨h12, h26, c⟩
  · cases h.symm.trans e
  · cases h.symm.trans e
  · have hw := cmdWord_extract h12 h26
    rcases c with ⟨hop, e⟩ | ⟨hop, e⟩ | ⟨hop, e⟩ | ⟨hop, e⟩ | ⟨hop, e⟩ | ⟨hop, e⟩ | ⟨hop, e⟩ <;>
      (cases h.symm.trans e; rw [hop] at hw; exact congrArg Code.cmd hw)

/-- The row of a header has the header's first byte, and an FF its second (30_encoding R94). -/
theorem encode_decodePci (d0 d1 : Byte) : ∃ x, encode (decodePci d0 d1) = .header d0 x ∧ (d0.toNat / 16 = 1 → x = d1) := by
  have h8 := d0.isLt
  have low (a : BitVec 4) (h : d0.toNat / 2 ^ 4 = a.toNat) : a ++ d0.extractLsb' 0 4 = d0 := append_extract_low h
  have type := toNat_extract d0 4 4
  rcases decodePci_cases d0 d1 with ⟨ht, e⟩ | ⟨ht, e⟩ | ⟨ht, e⟩ | ⟨ht, e⟩ | ⟨ht, e⟩ | ⟨ht, e⟩ <;> rw [e] <;> rw [type] at ht
  · exact ⟨0, congrArg (Code.header · 0) (low 0x0 (by simp; omega)), by omega⟩
  · refine ⟨d1, ?_, fun _ => rfl⟩
    rw [encode, BitVec.extractLsb'_append_eq_left, BitVec.extractLsb'_append_eq_right]
    exact congrArg (Code.header · d1) (low 0x1 (by simp; omega))
  · exact ⟨0, congrArg (Code.header · 0) (low 0x2 (by simp; omega)), by omega⟩
  · exact ⟨0, congrArg (Code.header · 0) (low 0x3 (by simp; omega)), by omega⟩
  · exact ⟨0, congrArg (Code.header · 0) (append_extract_low (m := 2) (n := 6) (by simp; omega)), by omega⟩
  · exact ⟨0, congrArg (Code.header · 0) (append_extract_low (m := 1) (n := 7) (by simp; omega)), by omega⟩

end Sys2Proof

open Sys2Proof Sys2Proof.Machine

/-- Settles O6: the fields of a word or of a header byte are the ones it was made of. -/
theorem decodeOfEncodeIsIdentity : Obligations.DecodeOfEncodeIsIdentity := by
  intro i
  cases i with
  | nop ch idx | pushFrame ch idx | endCapture ch idx | chReset ch idx | resetChannels ch idx | decode ch idx | extract ch idx =>
    simp [encode, decode, decodeCmd, cmdWord_fields]
  | sf x | cf x | pciRsv3 x => simp [encode, decode, decodePci, pciByte_fields]
  | ff dl =>
    have hdl : dl.extractLsb' 8 4 ++ dl.extractLsb' 0 8 = dl :=
      (BitVec.extractLsb'_append_extractLsb'_eq_extractLsb' rfl).trans BitVec.extractLsb'_eq_self
    simp [encode, decode, decodePci, pciByte_fields, hdl]
  | pciRsv47 x => revert x; decide
  | pciRsv8F x => revert x; decide

/-- Settles O7: a word and a header are made of the fields that their decoding keeps. -/
theorem encodeOfDecodeIsIdentity : Obligations.EncodeOfDecodeIsIdentity := ⟨fun _ _ => encode_of_decodeCmd, encode_decodePci⟩

/-- Settles O8: the decoder, run on each word. -/
theorem writtenOutWordsDecode : Obligations.WrittenOutWordsDecode :=
  ⟨rfl, rfl, rfl, rfl, rfl, rfl, rfl, rfl, rfl, rfl, rfl, rfl, rfl⟩

/-- Settles O9: the decoder's cases, with the fields as numbers. -/
theorem commandWordsAreClassified : Obligations.CommandWordsAreClassified := by
  intro w
  obtain ⟨h12, h26, h8⟩ := cmdFields_toNat w
  rw [ne_eq, ne_eq, ← h12, ← h26]
  rcases decodeCmd_cases w with ⟨h, e⟩ | ⟨h1, h2, h3, e⟩ | ⟨h1, h2, c⟩
  · rw [e]
    simp only [reduceCtorEq, exists_false, true_iff, false_iff]
    tauto
  · simpa [e, h1, h2] using h8 ▸ h3
  · have hlt : (w.extractLsb' 0 8).toNat < 7 ∧ ∃ i, decodeCmd w = .ok i := by
      rcases c with ⟨hop, e⟩ | ⟨hop, e⟩ | ⟨hop, e⟩ | ⟨hop, e⟩ | ⟨hop, e⟩ | ⟨hop, e⟩ | ⟨hop, e⟩ <;>
        exact ⟨by rw [hop]; decide, _, e⟩
    obtain ⟨h3, i, e⟩ := hlt
    simpa [e, h1, h2] using h8 ▸ h3
end

section
/-! PROOFS. Pushed frames: PUSH_FRAME and the row of its header, a frame that is routed to a channel, the cells of AwaitingFirst that
store bytes, and the details of a malformed frame. -/

namespace Sys2Proof.Machine

open Sys2Proof.Claims

/-! ### The row of a header (30_encoding R90) -/

/-- The class of a frame with a PCI row's header (42_reassembly R176; log 13); none for a command. -/
def State.rowClass (s : State) : Instr → Option FrameClass
  | .sf dl => some (classifySf dl s.n)
  | .ff dl => some (classifyFf dl s.n s.k s.sizes.payloadCap)
  | .cf sn => some (classifyCf sn s.n)
  | .pciRsv3 _ | .pciRsv47 _ | .pciRsv8F _ => some (classifyReserved s.n)
  | _ => none

/-- A PCI row pushes a frame of its class (log 13). -/
theorem exec_row {s : State} {row : Instr} {v : FrameClass} (h : s.rowClass row = some v) : exec row s = .next (s.pushClass v) := by
  cases row <;> cases h <;> rfl

/-- The row of a header has the class of a frame with that header. -/
theorem State.rowClass_decodePci (s : State) (d0 d1 : Byte) :
    s.rowClass (decodePci d0 d1) = some (classify d0 d1 s.n s.k s.sizes.payloadCap) := by
  have reserved (h : 3 ≤ (d0.extractLsb' 4 4).toNat) : classify d0 d1 s.n s.k s.sizes.payloadCap = classifyReserved s.n := by
    unfold classify
    split
    · omega
    · omega
    · omega
    · rfl
  rcases decodePci_cases d0 d1 with ⟨h, e⟩ | ⟨h, e⟩ | ⟨h, e⟩ | ⟨h, e⟩ | ⟨⟨h, -⟩, e⟩ | ⟨h, e⟩ <;> rw [e]
  · rw [classify, h]; rfl
  · rw [classify, h]; rfl
  · rw [classify, h]; rfl
  · rw [reserved (by omega)]; rfl
  · rw [reserved (by omega)]; rfl
  · rw [reserved (by omega)]; rfl

/-- PUSH_FRAME runs the row of its header (41_frame_ingress R150). -/
theorem exec_pushFrame (s : State) (ch : BitVec 4) (idx : BitVec 10) : exec (.pushFrame ch idx) s = exec (decodePci (s.d 0) (s.d 1)) s :=
  (exec_row (s.rowClass_decodePci (s.d 0) (s.d 1))).symm

/-! ### A routed frame -/

/-- The model's route is the channel of the statements (41_frame_ingress R155). -/
theorem route_of_routedTo {s : State} {c : Nat} (h : routedTo s c) : s.precheck = .none ∧ s.route = some c := by
  obtain ⟨hp, hc, hm, hd⟩ := h
  refine ⟨(precheck_none_iff_not_fails s).2 hp, s.route_of hc ((accepts_iff_filterMatches s c).2 hm) fun d hdc => ?_⟩
  simpa [← accepts_iff_filterMatches] using hd d hdc

/-- A frame that is routed to a channel is the channel's, whether a PCI row stands for it or a PUSH_FRAME pushes it. -/
theorem exec_routed {i row : Instr} {s : State} {c : Nat} {v : FrameClass} (hi : pushesRow i row s) (hr : routedTo s c)
    (hv : s.rowClass row = some v) : exec i s = .next (s.acceptFrame c v) := by
  obtain ⟨hp, hroute⟩ := route_of_routedTo hr
  rw [← s.pushClass_accept v hp hroute, ← exec_row hv]
  rcases hi with rfl | ⟨ch, idx, rfl, hrow⟩
  · rfl
  · rw [exec_pushFrame, hrow]

/-! ### Stored bytes (42_reassembly R182) -/

/-- A channel that gets transport bytes stored and new registers: its registers, its bytes, and the frame. -/
theorem stored_setChan {s : State} {c : Nat} (hc : c < s.numChannels) (p i m : Nat) {x : Channel} {t : State}
    (ht : t = (s.setMem (s.mem.writeBytes (bufAddr c p) (s.dBytes i m))).setChan c x) :
    t.ch c = x ∧ (∀ j, j < m → t.buf c (p + j) = s.d (i + j)) ∧ stored s t c p m := by
  subst ht
  refine ⟨State.ch_setChan_self _ c x hc, fun j hj => ?_, rfl, State.setChan_numChannels _ c x,
    fun d hd => State.ch_setChan_ne _ c d x hd, fun a ha => ?_⟩
  · apply State.buf_of_read?
    rw [State.setChan_mem, State.setMem_mem, Memory.read?_writeBytes, State.dBytes_length, if_pos (by unfold bufAddr; omega),
      show bufAddr c (p + j) - bufAddr c p = j by unfold bufAddr; omega, s.dBytes_getElem? _ _ _ hj]
  · rw [State.setChan_mem, State.setMem_mem, Memory.read?_writeBytes, State.dBytes_length, if_neg (by omega)]

/-! ### Malformed frames (42_reassembly R176, R189) -/

/-- A malformed frame fails a channel that is not Failed, with its detail. -/
theorem State.acceptFrame_mal {s : State} {c : Nat} (h : (s.ch c).state ≠ .failed) (e : ChErr) :
    s.acceptFrame c (.mal e) = failed s c e := by
  unfold State.acceptFrame
  cases hs : (s.ch c).state with
  | failed => exact absurd hs h
  | _ => rfl

/-- A row whose class is malformed fails the channel that the frame is routed to. -/
theorem exec_malformed {i row : Instr} {s : State} {c : Nat} {e : ChErr} (hi : pushesRow i row s) (hr : routedTo s c)
    (hs : (s.ch c).state ≠ .failed) (hv : s.rowClass row = some (.mal e)) : exec i s = .next (failed s c e) := by
  rw [exec_routed hi hr hv, State.acceptFrame_mal hs]

/-- A frame with no transport byte is malformed, whatever its row (42_reassembly R176). -/
theorem State.rowClass_noPci {s : State} {row : Instr} (hn : s.n = 0) (hp : pushes row = true) (hf : ∀ x y, row ≠ .pushFrame x y) :
    s.rowClass row = some (.mal .noPci) := by
  cases row with
  | nop | endCapture | chReset | resetChannels | decode | extract => cases hp
  | pushFrame x y => exact absurd rfl (hf x y)
  | sf | ff | cf | pciRsv3 | pciRsv47 | pciRsv8F =>
    simp [State.rowClass, classifySf, classifyFf, classifyCf, classifyReserved, hn]

/-- A reserved row with a transport byte is malformed by its type. -/
theorem State.rowClass_reserved {s : State} {row : Instr} (hn : s.n ≠ 0) (hrow : reservedRow row) :
    s.rowClass row = some (.mal .pciType) := by
  rcases hrow with ⟨x, rfl⟩ | ⟨x, rfl⟩ | ⟨x, rfl⟩ <;> exact congrArg some (if_neg hn)

end Sys2Proof.Machine

open Sys2Proof.Machine Sys2Proof.Claims

/-- Settles O29: the row's class is the one that PUSH_FRAME classifies. -/
theorem pushFrameRunsTheRowOfItsHeader : Obligations.PushFrameRunsTheRowOfItsHeader := exec_pushFrame

/-- Settles O33: the class is a single frame's, and its cell stores from buffer byte 0. -/
theorem singleFrameCompletesTheChannel : Obligations.SingleFrameCompletesTheChannel := by
  intro i dl s c hi hr hs h1 hn
  have hv : classifySf dl s.n = .sf dl.toNat := by
    rw [classifySf, if_neg (by omega), if_neg (by omega), if_neg (by omega)]
  obtain ⟨hch, hbuf, hst⟩ := stored_setChan hr.2.1 0 1 dl.toNat (rfl : s.startSingle c dl.toNat = _)
  refine ⟨s.startSingle c dl.toNat, ?_, hch, by simpa using hbuf, hst⟩
  rw [exec_routed hi hr rfl, hv, State.acceptFrame, hs]
  rfl

/-- Settles O34: the class is a first frame's, and its cell stores from buffer byte 0. -/
theorem firstFrameStartsTheMessage : Obligations.FirstFrameStartsTheMessage := by
  intro i dl s c hi hr hs hn hmin hcap
  have hv : classifyFf dl s.n s.k s.sizes.payloadCap = .ff dl.toNat := by
    rw [classifyFf, if_neg (by omega), if_neg (by omega), if_neg (by omega), if_neg (by omega), if_neg (by omega)]
  obtain ⟨hch, hbuf, hst⟩ := stored_setChan hr.2.1 0 2 (s.n - 2) (rfl : s.startMulti c dl.toNat = _)
  refine ⟨s.startMulti c dl.toNat, ?_, by simpa using hch, by simpa using hbuf, hst⟩
  rw [exec_routed hi hr rfl, hv, State.acceptFrame, hs]
  rfl

/-- Settles O36: each detail is the first check that classifies the frame. -/
theorem malformedFrameFailsWithItsDetail : Obligations.MalformedFrameFailsWithItsDetail := by
  intro i row s c hi hr hs
  refine ⟨fun ⟨hp, hf, hn⟩ => exec_malformed hi hr hs (State.rowClass_noPci hn hp hf), ?_, ?_,
    fun ⟨hrow, hn⟩ => exec_malformed hi hr hs (State.rowClass_reserved hn hrow)⟩
  · rintro ⟨rfl, hn⟩
    exact exec_malformed hi hr hs (congrArg some (if_neg hn))
  · rintro dl rfl
    have hmal {e : ChErr} : classifyFf dl s.n s.k s.sizes.payloadCap = .mal e → exec i s = .next (failed s c e) :=
      fun h => exec_malformed hi hr hs (congrArg some h)
    unfold classifyFf at hmal
    refine ⟨fun hn => hmal ?_, fun ⟨hn, h0⟩ => hmal ?_, fun ⟨hn, h0, h7⟩ => hmal ?_, fun ⟨hn, h7, hcap⟩ => hmal ?_⟩
    · rw [if_neg (by omega), if_pos (by omega)]
    · rw [if_neg (by omega), if_neg (by omega), if_pos h0]
    · rw [if_neg (by omega), if_neg (by omega), if_neg h0, if_pos h7]
    · rw [if_neg (by omega), if_neg (by omega), if_neg (by omega), if_neg (by omega), if_pos hcap]

end

section
/-! PROOFS. The commit of a command word: its operands' checks, and a placed instruction. -/

namespace Sys2Proof.Machine

open Sys2Proof.Claims

/-! ### The checks of the operands (40_command_dispatch R137) -/

/-- The operand that a command's body finds illegal first, or none (30_encoding R84; 40_command_dispatch R137). -/
def State.badOperand (s : State) : Instr → Option CmdCause
  | .chReset ch _ | .extract ch _ => if ch.toNat ≥ s.numChannels then some .badChannel else none
  | .decode ch idx =>
    if ch.toNat ≥ s.numChannels then some .badChannel else if idx.toNat ≥ s.sizes.numSignals then some .badIndex else none
  | _ => none

/-- A body with an illegal operand records it and does nothing else. -/
theorem exec_of_badOperand {i : Instr} {s : State} {c : CmdCause} (h : s.badOperand i = some c) : exec i s = .next (s.cmdError c) := by
  cases i with
  | chReset ch idx | extract ch idx =>
    obtain ⟨hc, rfl⟩ := by simpa [State.badOperand] using h
    exact if_neg (not_lt.2 hc)
  | decode ch idx =>
    simp only [State.badOperand] at h
    split_ifs at h with h1 h2 <;> cases h
    · exact if_neg (not_lt.2 h1)
    · exact (if_pos (not_le.1 h1)).trans (if_neg (not_lt.2 h2))
  | _ => cases h

/-- A pushed frame leaves STATUS alone. -/
theorem State.pushClass_status (s : State) (v : FrameClass) : (s.pushClass v).status = s.status :=
  (congrArg State.status (s.pushClass_other v s.status s.pending s.rdata s.schedule s.freeCount) :)

/-- A body whose operands are legal leaves STATUS alone. -/
theorem exec_status_of_legal {i : Instr} {s t : State} (h : s.badOperand i = none) (ht : exec i s = .next t) : t.status = s.status := by
  cases i with
  | nop | endCapture | resetChannels => cases ht; rfl
  | pushFrame | sf | ff | cf | pciRsv3 | pciRsv47 | pciRsv8F => cases ht; exact s.pushClass_status _
  | chReset ch idx | extract ch idx =>
    have hc : ch.toNat < s.numChannels := by simpa [State.badOperand] using h
    cases ht.symm.trans (if_pos hc)
    rfl
  | decode ch idx =>
    obtain ⟨hc, hi⟩ : ch.toNat < s.numChannels ∧ idx.toNat < s.sizes.numSignals := by
      simpa [State.badOperand, ite_eq_iff] using h
    rcases execDecode_cases s ch idx with ⟨-, -, ⟨r, -, -, -, e⟩ | ⟨f, -, -, e⟩⟩ | ⟨c, hn, -⟩
    · cases ht.symm.trans e
      rfl
    · cases ht.symm.trans e
    · exact absurd ⟨hc, hi⟩ hn

/-- The first failing check of a word that encodes no command is the decoder's. -/
theorem validate_of_error (s : State) {w : Word} {e : DecodeError} (h : decodeCmd w = .error e) : validate s w = some (causeOf e) := by
  rcases decodeCmd_cases w with ⟨h1, hd⟩ | ⟨h1, h2, h3, hd⟩ | ⟨-, -, c⟩
  · cases h.symm.trans hd
    exact if_pos h1
  · cases h.symm.trans hd
    exact (if_neg (by simp [h1, h2])).trans (if_pos h3)
  · rcases c with ⟨-, hd⟩ | ⟨-, hd⟩ | ⟨-, hd⟩ | ⟨-, hd⟩ | ⟨-, hd⟩ | ⟨-, hd⟩ | ⟨-, hd⟩ <;> cases h.symm.trans hd

/-- The first failing check of a word that encodes a command is that of its operands. -/
theorem validate_of_ok (s : State) {w : Word} {i : Instr} (h : decodeCmd w = .ok i) : validate s w = s.badOperand i := by
  have hw := encode_of_decodeCmd h
  cases i with
  | sf | ff | cf | pciRsv3 | pciRsv47 | pciRsv8F => cases hw
  | nop | pushFrame | endCapture | chReset | resetChannels | decode | extract =>
    cases hw
    simp [validate, cmdWord_fields, State.badOperand]

/-! ### The commit (40_command_dispatch R133) -/

/-- A commit of a word that decodes is the commit around its body. -/
theorem State.commit_of_ok {s : State} {w : Word} {i : Instr} (h : decodeCmd w = .ok i) : s.commit w = committing (exec i s) := by
  rw [State.commit, h]
  dsimp only
  cases exec i s <;> rfl

/-- A commit of a word that does not decode is the commit around the recording of its error. -/
theorem State.commit_of_error {s : State} {w : Word} {e : DecodeError} (h : decodeCmd w = .error e) :
    s.commit w = .next (commitOf (s.cmdError (causeOf e))) := by
  rw [State.commit, h]
  rfl

/-- Where the engine moves next and a command is pending, the step commits it. -/
theorem step_engineNext {s : State} {rest : List Event} {w : Word} (h : engineNext s rest) (hp : s.pending = some w) :
    step s = State.commit { s with schedule := rest } w := by
  obtain ⟨hr, hs | ⟨hs, rfl⟩⟩ := h
  · rw [step_cons hs]
    exact State.engineTurn_commit hr hp
  · rw [step_nil hs, State.engineTurn_commit hr hp, ← hs]

/-- A commit of a word that fails validation records the first failing check (40_command_dispatch R136). -/
theorem State.commit_of_validate {s : State} {w : Word} {c : CmdCause} (h : validate s w = some c) :
    s.commit w = .next (commitOf (s.cmdError c)) := by
  cases hd : decodeCmd w with
  | error e =>
    rw [validate_of_error s hd] at h
    cases h
    exact State.commit_of_error hd
  | ok i =>
    rw [validate_of_ok s hd] at h
    rw [State.commit_of_ok hd, exec_of_badOperand h]
    rfl

/-! ### A placed instruction (log 14) -/

/-- The command that a placed command word decodes to is the one that the step runs. -/
theorem step_withCommand {s : State} {w : Word} {i : Instr} (h : decodeCmd w = .ok i) :
    step (s.withCommand w) = committing (exec i { s.withCommand w with schedule := s.schedule }) := by
  rw [step_engineNext (s := s.withCommand w) (rest := s.schedule) ⟨rfl, .inl rfl⟩ rfl, State.commit_of_ok h]

/-- The transport bytes d(0) and d(1) of a placed header are the header's. -/
theorem State.withFrameHeader_d (s : State) (d0 d1 : Byte) (es : List Event) :
    State.d { s.withFrameHeader d0 d1 with schedule := es } 0 = d0 ∧
      State.d { s.withFrameHeader d0 d1 with schedule := es } 1 = d1 := by
  have h := byteOf_header (s.fin.data0.extractLsb' 16 16) (s.fin.data0.extractLsb' 24 8) (s.fin.data0.extractLsb' 0 8) d0 d1
  cases he : s.cfg.ext <;>
    simp [State.d, State.k, State.withFrameHeader, State.withCommand, FrameIn.byte, State.headerData, he, h]

/-- A placed header is the one whose row the step runs. -/
theorem step_withFrameHeader (s : State) (d0 d1 : Byte) :
    step (s.withFrameHeader d0 d1) = committing (exec (decodePci d0 d1) { s.withFrameHeader d0 d1 with schedule := s.schedule }) := by
  have hpush : decodeCmd (cmdWord 0x01 0 0) = .ok (.pushFrame 0 0) := rfl
  obtain ⟨h0, h1⟩ := s.withFrameHeader_d d0 d1 s.schedule
  refine (step_withCommand hpush).trans ?_
  rw [exec_pushFrame]
  exact congrArg₂ (fun a b => committing (exec (decodePci a b) _)) h0 h1

/-- The ID of a placed header is in range (41_frame_ingress R152). -/
theorem State.withFrameHeader_id (s : State) (d0 d1 : Byte) (h : s.cfg.idw = false) : (s.withFrameHeader d0 d1).fin.id.toNat ≤ 0x7FF := by
  simp only [State.withFrameHeader, State.withCommand, State.setChan, h, Bool.false_eq_true, if_false, BitVec.toNat_and]
  exact Nat.and_le_right

/-- A placed header gives channel 0 an enabled filter of the frame's key. -/
theorem State.withFrameHeader_ch (s : State) (d0 d1 : Byte) (hc : 0 < s.numChannels) :
    (s.withFrameHeader d0 d1).ch 0 =
      { s.ch 0 with
        filterEn := true, filterId := (s.withFrameHeader d0 d1).fin.id, ta := (s.withFrameHeader d0 d1).fin.byte 0 } :=
  State.ch_setChan_self _ 0 _ hc

/-- The frame of a placed header is routed to channel 0, where there is one. -/
theorem State.withFrameHeader_routedTo (s : State) (d0 d1 : Byte) (es : List Event) (hc : 0 < s.numChannels) :
    routedTo { s.withFrameHeader d0 d1 with schedule := es } 0 := by
  have hch : State.ch { s.withFrameHeader d0 d1 with schedule := es } 0 = _ := s.withFrameHeader_ch d0 d1 hc
  refine routedTo_of_route ?_ (State.route_of _ ?_ ?_ fun d hd => absurd hd (Nat.not_lt_zero d))
  · exact (State.precheck_none_iff _).2
      ⟨le_refl 8, fun ⟨hw, hid⟩ => absurd (s.withFrameHeader_id d0 d1 hw) (not_le.2 hid), fun ⟨_, h0⟩ => nomatch h0⟩
  · exact lt_of_lt_of_eq hc (State.setChan_numChannels _ 0 _).symm
  · rw [hch, State.accepts_iff]
    exact ⟨rfl, rfl, .inr rfl⟩

end Sys2Proof.Machine

open Sys2Proof Sys2Proof.Machine Sys2Proof.Claims

/-- Settles O12: the step is a commit, of a word whose first failing check is recorded or whose operands are legal. -/
theorem invalidCommandOnlyRecordsItsCause : Obligations.InvalidCommandOnlyRecordsItsCause := by
  intro s rest w he hp
  refine ⟨fun c hc => (step_engineNext he hp).trans (State.commit_of_validate (s := { s with schedule := rest }) hc), fun hv => ?_⟩
  cases hd : decodeCmd w with
  | error e => cases (validate_of_error s hd).symm.trans hv
  | ok i =>
    have hlegal : s.badOperand i = none := (validate_of_ok s hd).symm.trans hv
    exact ⟨i, rfl, fun t ht => exec_status_of_legal (s := { s with schedule := rest }) hlegal ht⟩

/-- Settles O11: a placed word decodes to its instruction, and a placed header is that of the PUSH_FRAME that is pending. -/
theorem placedInstructionRunsNext : Obligations.PlacedInstructionRunsNext := by
  intro s nbits w i hc hw
  by_cases hn : nbits ≤ 16
  · have hi : decodePci (BitVec.ofNat 8 w) (BitVec.ofNat 8 (w / 256)) = i := by simpa [decodeTableWord, decode, hn] using hw
    rw [State.withFetchWord, State.withTableWord, if_pos hn]
    refine ⟨?_, fun _ => s.withFrameHeader_routedTo _ _ s.schedule (List.length_pos_of_ne_nil hc)⟩
    rw [← hi]
    exact step_withFrameHeader s _ _
  · have hd : decodeCmd (BitVec.ofNat 32 w) = .ok i := by
      rw [decodeTableWord, if_neg hn, decode] at hw
      cases hd : decodeCmd (BitVec.ofNat 32 w) with
      | ok j => rw [hd] at hw; exact congrArg Except.ok (Option.some.inj hw)
      | error e => rw [hd] at hw; cases hw
    rw [State.withFetchWord, State.withTableWord, if_neg hn]
    exact ⟨step_withCommand hd, fun h => absurd h hn⟩

end

section
/-! PROOFS. DECODE where the words it reads were written: its failing checks, in their order, and a Linear signal. -/

namespace Sys2Proof.Machine

open Sys2Proof.Claims

section
variable {s : State} {ch : BitVec 4} {idx : BitVec 10} {d : Nat → Word} {need : Nat → Prop}

/-- DECODE with operands that exist writes the result that its signal answers. -/
theorem exec_decode_of_ok (h : slotHolds s ch idx d need) {code : ResCode} {raw : Nat} {val : F64} {label : BitVec 16}
    (hr : s.decodeSignal ch.toNat idx.toNat = .ok (s.mkResult ch.toNat code raw val label)) :
    exec (.decode ch idx) s = .next (withResult s ch.toNat code raw val label) := by
  simp only [exec, execDecode, if_pos h.1, if_pos h.2.1, hr]
  rfl

/-- An invalid slot (43_signal_decode R215). -/
theorem decodeSignal_of_invalid (h : slotHolds s ch idx d (readForValidity d)) (hi : dInvalid s d) (c : Nat) :
    s.decodeSignal c idx.toNat = .ok (s.mkResult c .invalidDescriptor 0 0 0) := by
  obtain ⟨b, hb, hiff⟩ := descInvalid_spec h
  obtain rfl : b = true := hiff.2 hi
  simp only [State.decodeSignal, descWord_of_slotHolds h (w := 0) (.inl rfl), hb]

/-- A valid slot whose ID does not match (43_signal_decode R216). -/
theorem decodeSignal_of_not_idMatch (h : slotHolds s ch idx d (readForId d)) (hi : ¬ dInvalid s d) {c : Nat} (hm : ¬ dIdMatch s c d) :
    s.decodeSignal c idx.toNat = .ok (s.mkResult c .notMatched 0 0 0) := by
  rw [decodeSignal_of_valid (slotHolds_mono h fun _ => .inl) hi, State.decodeMatched, descWord_of_slotHolds h (w := 1) (.inr rfl)]
  simp only [descWord_of_slotHolds h (w := 2) (.inl (.inr (.inl ⟨rfl, (not_dInvalid hi).1⟩))), if_neg (mt (idMatch_iff s c d).1 hm)]

/-- A channel that is not Complete (43_signal_decode R218). -/
theorem decodeSignal_of_not_complete (h : slotHolds s ch idx d (readForId d)) (hi : ¬ dInvalid s d) {c : Nat} (hm : dIdMatch s c d)
    (hc : (s.ch c).state ≠ .complete) : s.decodeSignal c idx.toNat = .ok (s.mkResult c .noPayload 0 0 0) := by
  rw [decodeSignal_of_idMatch h hi hm, State.decodePayload, if_pos hc]

/-- The pattern comparison passes only where the pattern matches (43_signal_decode R219, R220). -/
theorem dPfxMatch_of_pfxBytesMatch (h8 : dPfxLen d ≤ 8) {c : Nat} {d3 d4 : Word}
    (hp : ∀ j, j < dPfxLen d → j < 8 → (pfxByte d3 d4 j).toNat = dPfxByte d j)
    (hm : s.pfxBytesMatch c (d 2 &&& descMask 2) d3 d4 = true) : dPfxMatch s c d := by
  simp only [State.pfxBytesMatch, d2PfxLen_mask, d2PfxCare_mask, d2PfxLen_eq, Bool.and_eq_true, decide_eq_true_eq, List.all_eq_true,
    List.mem_range, Bool.or_eq_true, Bool.not_eq_true'] at hm
  obtain ⟨hlen, hbytes⟩ := hm
  refine ⟨hlen, fun j hj hc => ?_⟩
  rcases hbytes j hj with hn | hb
  · exact absurd ((d2PfxCare_iff d (by omega)).2 hc) (by simp [hn])
  · rw [hb, hp j hj (by omega)]

/-- A Complete channel whose payload does not start with the pattern (43_signal_decode R219). -/
theorem decodeSignal_of_not_pfxMatch (h : slotHolds s ch idx d (readForPfx d)) (hi : ¬ dInvalid s d) {c : Nat} (hm : dIdMatch s c d)
    (hc : (s.ch c).state = .complete) (hpfx : ¬ dPfxMatch s c d) :
    s.decodeSignal c idx.toNat = .ok (s.mkResult c .notMatched 0 0 0) := by
  obtain ⟨d3, d4, hw, hp⟩ := pfxWords_spec h
  rw [decodeSignal_of_idMatch (slotHolds_mono h fun _ => .inl) hi hm, State.decodePayload, if_neg (not_not.2 hc), hw]
  exact if_neg (mt (dPfxMatch_of_pfxBytesMatch (not_dInvalid hi).2.1 hp) hpfx)

/-- An accepted slot whose field does not lie in the payload (43_signal_decode R221). -/
theorem decodeSignal_of_outOfBounds (h : slotHolds s ch idx d (readForPfx d)) {c : Nat} (ha : dAccepted s c d)
    (hb : dBitOffset d + dBitLength d > 8 * (s.ch c).len.toNat) :
    s.decodeSignal c idx.toNat = .ok (s.mkResult c .bitRangeOob 0 0 0) := by
  rw [decodeSignal_of_accepted h ha, State.decodeField, d0BitOffset_mask, d0BitLength_mask, d0BitOffset_eq, d0BitLength_eq, if_pos hb]

/-- SCALE and OFFSET where their words were written (30_encoding R101). -/
theorem scaleOffset_of_slotHolds (h : slotHolds s ch idx d (readForLinear d)) :
    s.scaleOffset idx.toNat = .ok (dScale d, dOffset d) := by
  have hd : ∀ w, 5 ≤ w → w ≤ 8 → s.descWord idx.toNat w = .ok (d w) := fun w h5 h8 =>
    descWord_full h (.inr ⟨h5, h8⟩) (descMask_transform h5 h8)
  simp only [State.scaleOffset, hd 5 (by omega) (by omega), hd 6 (by omega) (by omega), hd 7 (by omega) (by omega),
    hd 8 (by omega) (by omega), dScale, dOffset]

end

end Sys2Proof.Machine

open Sys2Proof.Machine Sys2Proof.Claims

/-- Settles O46: one lemma for each failing check. -/
theorem decodeChecksComeInOrder : Obligations.DecodeChecksComeInOrder := fun _ _ _ _ =>
  ⟨fun h hi => exec_decode_of_ok h (decodeSignal_of_invalid h hi _),
    fun h hi hid => exec_decode_of_ok h (decodeSignal_of_not_idMatch h hi hid),
    fun h hi hid hc => exec_decode_of_ok h (decodeSignal_of_not_complete h hi hid hc),
    fun h hi hid hc hp => exec_decode_of_ok h (decodeSignal_of_not_pfxMatch h hi hid hc hp),
    fun h ha hb => exec_decode_of_ok h (decodeSignal_of_outOfBounds h ha hb)⟩

/-- Settles O47: DECODE goes on to its transform, whose words were written. -/
theorem decodeOfLinearSignal : Obligations.DecodeOfLinearSignal := by
  intro ch idx s d h hb he
  refine exec_decode_of_ok h ?_
  rw [(decodeSignal_of_inBounds (slotHolds_mono h fun _ => .inl) hb).2 he, State.linearResult, scaleOffset_of_slotHolds h]
  rfl

end

section
/-! PROOFS. The FRAME pseudo-instruction: the bytes it loads, and its seven steps. -/

namespace Sys2Proof.Machine

open Sys2Proof Sys2Proof.Claims

/-- A byte of a bus word made of four bytes of a list (20_memory R73). -/
theorem byteOf_wordAt (bs : List Byte) (i : Nat) {k : Nat} (hk : k < 4) : byteOf (HostText.wordAt bs i) k = bs.getD (i + k) 0 := by
  apply BitVec.eq_of_toNat_eq
  rw [byteOf, toNat_field]
  exact packWord_byte (fun j => bs.getD (i + j) 0) hk

/-- The frame input registers that FRAME loads: reserved bits are discarded (10_state R32 to R34). -/
def loadedFrame (f : HostText.RawFrame) : FrameIn :=
  { id := f.id.extractLsb' 0 29, len := (BitVec.ofNat 32 f.bytes.length).extractLsb' 0 4
    data0 := HostText.wordAt f.bytes 0, data1 := HostText.wordAt f.bytes 4 }

/-- The bytes that FRAME loads are the frame's, absent bytes 0 (30_encoding R109). -/
theorem loadedFrame_byte (f : HostText.RawFrame) {i : Nat} (hi : i < 8) : (loadedFrame f).byte i = f.bytes.getD i 0 := by
  unfold FrameIn.byte
  split_ifs with h4
  · rw [loadedFrame, byteOf_wordAt _ _ h4, Nat.zero_add]
  · rw [loadedFrame, byteOf_wordAt _ _ (by omega), Nat.add_sub_cancel' (by omega)]

/-- The first four accesses of FRAME load the frame input registers, while nothing is pending. -/
theorem run_loadFrame {s : State} {f : HostText.RawFrame} {es : List Event} (hr : s.rst = false) (hp : s.pending = none)
    (hs : s.schedule = HostText.wr 0x030 f.id :: HostText.wr 0x034 (BitVec.ofNat 32 f.bytes.length) ::
      HostText.wr 0x038 (HostText.wordAt f.bytes 0) :: HostText.wr 0x03C (HostText.wordAt f.bytes 4) :: es) (k : Nat) :
    Host.Core.run Sys2Proof.core (k + 4) s =
      Host.Core.run Sys2Proof.core k { s with fin := loadedFrame f, schedule := es, freeCount := s.freeCount + 4 } := by
  have load (r : GlobalReg) (d : Word) (g : FrameIn) (n : Nat) (es : List Event) (k : Nat) :
      Host.Core.run Sys2Proof.core (k + 1) { s with fin := g, schedule := HostText.wr r.offset d :: es, freeCount := n } =
        Host.Core.run Sys2Proof.core k (State.writeGlobal { s with fin := g, schedule := es, freeCount := n } d r).tick :=
    run_next (step_writeGlobal (s := { s with fin := g, schedule := HostText.wr r.offset d :: es, freeCount := n }) hr hp rfl rfl) k
  refine (run_next (step_writeGlobal (r := .finId) hr hp rfl hs) (k + 3)).trans ?_
  refine (load .finLen _ _ _ _ (k + 2)).trans ?_
  refine (load .finData0 _ _ _ _ (k + 1)).trans ?_
  exact load .finData1 _ _ _ _ k

/-- PUSH_FRAME neither reads nor writes STATUS, PENDING, the port and the model's own fields. -/
theorem exec_pushFrame_other {s t : State} {ch : BitVec 4} {idx : BitVec 10} (h : exec (.pushFrame ch idx) s = .next t) (st : Status)
    (p : Option Word) (r : Word) (es : List Event) (n : Nat) :
    exec (.pushFrame ch idx) { s with status := st, pending := p, rdata := r, schedule := es, freeCount := n } =
      .next { t with status := st, pending := p, rdata := r, schedule := es, freeCount := n } := by
  cases h
  exact congrArg Host.Outcome.next (s.pushClass_other _ st p r es n)

/-- The engine commits a pending PUSH_FRAME: it leaves what the body leaves, with DONE set, whatever DONE was. -/
theorem step_pushFrame {s t0 : State} (hr : s.rst = false) (hp : t0.pending = none) (h0 : exec (.pushFrame 0 0) s = .next t0) (b : Bool)
    (es : List Event) (n : Nat) :
    step { s with
        status := { t0.status with done := b }, pending := some (cmdWord 0x01 0 0), schedule := .engine :: es, freeCount := n } =
      .next { t0 with status := { t0.status with done := true }, rdata := s.rdata, schedule := es, freeCount := n + 1 } := by
  have hbody := exec_pushFrame_other h0 { t0.status with done := b } (some (cmdWord 0x01 0 0)) s.rdata es n
  refine Eq.trans (step_engineNext (rest := es) (w := cmdWord 0x01 0 0) ?_ ?_) ((State.commit_of_ok (i := .pushFrame 0 0) rfl).trans ?_)
  · exact ⟨hr, .inl rfl⟩
  · rfl
  refine (congrArg committing hbody).trans ?_
  rw [hp]
  rfl

/-- A read of STATUS (10_state R27). -/
theorem step_readStatus {s : State} {es : List Event} (hr : s.rst = false) (hs : s.schedule = .read 0x018 :: es) :
    step s = .next { s with schedule := es, rdata := s.statusWord } :=
  step_read hr hs rfl (s.target_global .status) (by simp)

/-- The last three accesses of FRAME write CMD, let the engine commit, and read STATUS: they leave what the body of PUSH_FRAME leaves. -/
theorem run_pushFrame {s t0 : State} (hr : s.rst = false) (hp : s.pending = none) (h0 : exec (.pushFrame 0 0) s = .next t0)
    (rest : List Event) (n : Nat) :
    ∃ t, Host.Core.run Sys2Proof.core 3 { s with schedule := HostText.cmd (.pushFrame 0 0) ++ rest, freeCount := n } = .next t ∧
      t = { t0 with schedule := rest, status := { t0.status with done := true }, rdata := t.statusWord, freeCount := t.freeCount } := by
  obtain ⟨-, -, -, -, -, -, hpend, hrst, -⟩ := exec_fields h0
  have hwrite := step_writeGlobal (s := { s with schedule := HostText.cmd (.pushFrame 0 0) ++ rest, freeCount := n }) (r := .cmd) hr hp
    rfl rfl
  have hcommit := step_pushFrame hr (hpend.trans hp) h0 false (.read 0x018 :: rest) (n + 1)
  have hst : t0.status = s.status := exec_status_of_legal rfl h0
  rw [hst] at hcommit
  refine ⟨_, (run_next hwrite 2).trans ((run_next hcommit 1).trans ((run_one _).trans (step_readStatus (hrst.trans hr) rfl))), ?_⟩
  rw [hst]
  rfl

end Sys2Proof.Machine

open Sys2Proof.Machine

/-- Settles O60: four steps load the frame, and three push it. -/
theorem framePseudoInstructionPushesTheFrame : Obligations.FramePseudoInstructionPushesTheFrame := by
  intro s f rest hr hp hlen hs
  obtain ⟨t, hrun, ht⟩ := run_pushFrame (s := { s with fin := loadedFrame f }) hr hp rfl rest (s.freeCount + 4)
  have hfin : t.fin = loadedFrame f := by
    obtain ⟨-, -, -, -, hf, -⟩ := exec_fields (i := .pushFrame 0 0) (s := { s with fin := loadedFrame f }) rfl
    rw [ht]
    exact hf
  refine ⟨t, _, (run_loadFrame hr hp hs 3).trans hrun, by rw [hfin]; rfl, ht, ?_, ?_, fun i hi => ?_⟩ <;> rw [hfin]
  · simp [loadedFrame]
  · simp [loadedFrame, Nat.mod_eq_of_lt (show f.bytes.length < 16 by omega)]
  · exact loadedFrame_byte f hi

end

section
/-! PROOFS. binary64: rounding an exact magnitude, or a cut quotient, gives a nearest value, and the operations round so. -/

namespace Sys2Proof.Machine.F64

open Sys2Proof.Claims

/-! ### Patterns -/

/-- The statements' sign, magnitude, signed value and finiteness are the model's. -/
theorem signOf_eq (y : F64) : signOf y = neg y := (neg_eq y).symm

theorem magnitude_eq (y : F64) : magnitude y = mag y := by
  rw [magnitude, mag, expo_eq, frac_eq]

theorem signedOf_eq (y : F64) : signedOf y = toInt y := by
  rw [signedOf, toInt, signOf_eq, magnitude_eq]

/-- A finite value is no NaN and no infinity. -/
theorem not_special {y : F64} (h : finite y) : isNaN y = false ∧ isInf y = false := by
  simp [isNaN, isInf, show expo y ≠ 2047 from h]

/-- A magnitude has at most 53 significant bits. -/
theorem mag_significand (y : F64) : ∃ m f, m < 2 ^ 53 ∧ mag y = m * 2 ^ f := by
  have hf := frac_lt y
  unfold mag
  split_ifs
  · exact ⟨frac y, 0, by omega, by rw [pow_zero, Nat.mul_one]⟩
  · exact ⟨2 ^ 52 + frac y, expo y - 1, by omega, rfl⟩

/-! ### Powers of two -/

theorem two_pow_le_mul {a b c : Nat} (h : a ≤ b + c) : 2 ^ a ≤ 2 ^ b * 2 ^ c := by
  rw [← pow_add]
  exact Nat.pow_le_pow_right Nat.two_pos h

theorem mul_le_two_pow {a b c : Nat} (h : b + c ≤ a) : 2 ^ b * 2 ^ c ≤ 2 ^ a := by
  rw [← pow_add]
  exact Nat.pow_le_pow_right Nat.two_pos h

/-- A multiple of a power of two is one of every lower power. -/
theorem mul_two_pow_mod {k n : Nat} (h : k ≤ n) (x : Nat) : x * 2 ^ n % 2 ^ k = 0 :=
  Nat.mod_eq_zero_of_dvd (Dvd.dvd.mul_left (pow_dvd_pow 2 h) x)

theorem eq_of_mul_two_pow {n x y : Nat} (h : x * 2 ^ n = y * 2 ^ n) : x = y := Nat.eq_of_mul_eq_mul_right (Nat.two_pow_pos n) h

/-! ### Overflow -/

/-- A rounded significand carries into the next power of two from the last half of its last place on. -/
theorem roundQuot_eq_top {u sh : Nat} (h : u < 2 ^ (53 + sh)) : roundQuot u sh = 2 ^ 53 ↔ (2 ^ 54 - 1) * 2 ^ sh ≤ 2 * u := by
  have hpos : 0 < 2 ^ sh := Nat.two_pow_pos sh
  have hu : 2 ^ sh * (u / 2 ^ sh) + u % 2 ^ sh = u := Nat.div_add_mod u (2 ^ sh)
  have hr : u % 2 ^ sh < 2 ^ sh := Nat.mod_lt _ hpos
  rw [pow_add, ← Nat.div_lt_iff_lt_mul hpos] at h
  unfold roundQuot
  dsimp only
  generalize u / 2 ^ sh = q at *
  generalize u % 2 ^ sh = r at *
  generalize 2 ^ sh = p at *
  subst hu
  by_cases hq : q = 2 ^ 53 - 1
  · subst hq
    split_ifs <;> omega
  · have hp : p * (q + 1) ≤ p * (2 ^ 53 - 1) := Nat.mul_le_mul_left p (by omega)
    rw [Nat.mul_add] at hp
    split_ifs <;> omega

/-- Rounding overflows exactly from the midpoint of the largest finite value and 2^1024 on. -/
theorem roundMag_lt_iff (u : Nat) : roundMag u < 2047 * 2 ^ 52 ↔ u < (2 ^ 54 - 1) * 2 ^ 970 * 2 ^ 2148 := by
  obtain ⟨hlt, hlo⟩ := dropBits_cases u
  obtain ⟨hq, hq53⟩ := roundQuot_range u
  have hT : (2 ^ 54 - 1) * 2 ^ 970 * 2 ^ 2148 = (2 ^ 54 - 1) * 2 ^ 3118 := by rw [Nat.mul_assoc, ← pow_add]
  have hmin : roundMag u < 2047 * 2 ^ 52 ↔ (dropBits u - 1074) * 2 ^ 52 + roundQuot u (dropBits u) < 2047 * 2 ^ 52 := by
    unfold roundMag
    omega
  rw [hT, hmin]
  rcases Nat.lt_trichotomy (dropBits u) (3118 + 1) with hd | hd | hd
  · have hu : 2 ^ (53 + dropBits u) ≤ 2 ^ 53 * 2 ^ 3118 := two_pow_le_mul (by omega)
    generalize 2 ^ 3118 = p at *
    omega
  · have htop := roundQuot_eq_top hlt
    rw [hd] at htop hq53 ⊢
    rw [pow_succ'] at htop
    generalize 2 ^ 3118 = p at *
    omega
  · have hu : 2 ^ 54 * 2 ^ 3118 ≤ 2 ^ (52 + dropBits u) := mul_le_two_pow (by omega)
    generalize 2 ^ 3118 = p at *
    omega

/-- The 63-bit pattern of a rounded magnitude below infinity's (IEEE 754). -/
theorem roundMag_eq {u : Nat} (h : roundMag u < 2047 * 2 ^ 52) : roundMag u = (dropBits u - 1074) * 2 ^ 52 + roundQuot u (dropBits u) := by
  unfold roundMag at h ⊢
  omega

/-- A rounded magnitude in units of 2^-2148. -/
theorem mag_roundMag (n : Bool) {u : Nat} (h : roundMag u < 2047 * 2 ^ 52) :
    mag (withSign n (roundMag u)) * 2 ^ 1074 = roundQuot u (dropBits u) * 2 ^ dropBits u := by
  obtain ⟨-, hlo⟩ := dropBits_cases u
  obtain ⟨hq, hq53⟩ := roundQuot_range u
  have he := roundMag_eq h
  rw [he] at h ⊢
  rw [mag_withSign n _ _ (by omega) hq53 h, Nat.mul_assoc, ← pow_add, Nat.sub_add_cancel (by omega)]

/-- No value of at most 53 significant bits is nearer to `u` than its rounded magnitude, and of two nearest ones the rounded one is even. -/
theorem roundQuot_dropBits_nearest (u : Nat) {m : Nat} (hm : m < 2 ^ 53) (f : Nat) :
    dist (roundQuot u (dropBits u) * 2 ^ dropBits u) u ≤ dist (m * 2 ^ f * 2 ^ 1074) u ∧
      (dist (roundQuot u (dropBits u) * 2 ^ dropBits u) u = dist (m * 2 ^ f * 2 ^ 1074) u →
        m * 2 ^ f * 2 ^ 1074 = roundQuot u (dropBits u) * 2 ^ dropBits u ∨ roundQuot u (dropBits u) % 2 = 0) := by
  rw [Nat.mul_assoc, ← pow_add]
  by_cases hf : dropBits u ≤ f + 1074
  · obtain ⟨g, hg⟩ := Nat.exists_eq_add_of_le hf
    have hk : m * 2 ^ (f + 1074) = m * 2 ^ g * 2 ^ dropBits u := by rw [hg, Nat.mul_assoc, ← pow_add, Nat.add_comm g]
    rw [hk]
    obtain ⟨hle, htie⟩ := roundQuot_nearest u (dropBits u) (m * 2 ^ g)
    exact ⟨hle, fun h => (htie h).imp_left fun e => by rw [e]⟩
  · have hlo : 2 ^ (52 + dropBits u) ≤ u := by
      rcases (dropBits_cases u).2 with h | ⟨-, h⟩
      · omega
      · exact h
    have hlt : m * 2 ^ (f + 1074) < 2 ^ (52 + dropBits u) := by
      calc m * 2 ^ (f + 1074) < 2 ^ 53 * 2 ^ (f + 1074) := Nat.mul_lt_mul_of_pos_right hm (Nat.two_pow_pos _)
        _ ≤ 2 ^ (52 + dropBits u) := mul_le_two_pow (by omega)
    have hnear := (roundQuot_nearest u (dropBits u) (2 ^ 52)).1
    rw [← pow_add] at hnear
    unfold dist at hnear ⊢
    omega

/-! ### Nearest values -/

/-- A cut quotient, rounded, is nearest to the exact quotient (IEEE 754; log 18). -/
theorem nearest_stickyQuot (n : Bool) (a : Nat) {b : Nat} (hb : 0 < b) : nearest n a b (withSign n (roundMag (stickyQuot a b))) := by
  have h63 : roundMag (stickyQuot a b) < 2 ^ 63 := by unfold roundMag; omega
  have hpat := withSign_toNat n _ h63
  have hover := le_stickyQuot a b ((2 ^ 54 - 1) * 2 ^ 970 * 2 ^ 2148) hb (mul_two_pow_mod (k := 1) (by omega) _)
  generalize hu : stickyQuot a b = u at *
  refine ⟨by rw [signOf_eq, neg_withSign n _ h63], fun h => ?_, fun h => ?_⟩
  · have hinf : ¬ roundMag u < 2047 * 2 ^ 52 := by rw [roundMag_lt_iff, not_lt]; exact hover.2 h
    have hle : roundMag u ≤ 2047 * 2 ^ 52 := min_le_right _ _
    rw [hpat]
    omega
  · have hfin : roundMag u < 2047 * 2 ^ 52 := by rw [roundMag_lt_iff, ← not_le, hover, not_le]; exact h
    refine ⟨by rw [finite, expo_withSign n _ h63]; omega, fun z _ => ?_⟩
    obtain ⟨m, f, hm, hz⟩ := mag_significand z
    obtain ⟨hle, htie⟩ := roundQuot_dropBits_nearest u hm f
    rw [← mag_roundMag n hfin, ← hz] at hle htie
    have h4 (x : Nat) : x * 2 ^ 1074 % 4 = 0 := mul_two_pow_mod (k := 2) (by omega) x
    subst hu
    obtain ⟨hle', htie'⟩ := dist_stickyQuot a b _ _ hb (h4 _) (h4 _) hle
    simp only [magnitude_eq]
    refine ⟨hle', fun he => ?_⟩
    rcases htie' he with he | he
    · exact .inl (eq_of_mul_two_pow he.symm)
    · rcases htie he with he | he
      · exact .inl (eq_of_mul_two_pow he)
      · right
        rw [hpat, roundMag_eq hfin]
        omega

/-- A magnitude, rounded, is nearest to it. -/
theorem nearest_roundMag (n : Bool) (u : Nat) : nearest n u 1 (withSign n (roundMag u)) := by
  have h : stickyQuot u 1 = u := by simp [stickyQuot, Nat.mod_one]
  simpa only [h] using nearest_stickyQuot n u Nat.one_pos

/-- The product of finite operands (43_signal_decode R226). -/
theorem nearest_mul {x y : F64} (hx : finite x) (hy : finite y) :
    nearest (signOf x ^^ signOf y) (magnitude x * magnitude y) 1 (mul x y) := by
  obtain ⟨hxn, hxi⟩ := not_special hx
  obtain ⟨hyn, hyi⟩ := not_special hy
  simpa [mul, hxn, hxi, hyn, hyi, signOf_eq, magnitude_eq] using nearest_roundMag (neg x ^^ neg y) (mag x * mag y)

/-- The sum of finite operands, by its exact value (43_signal_decode R226). -/
theorem add_finite {x y : F64} (hx : finite x) (hy : finite y) :
    add x y =
      if signedOf x + signedOf y = 0 then withSign (signOf x && signOf y) 0
      else withSign (decide (signedOf x + signedOf y < 0)) (roundMag ((signedOf x + signedOf y).natAbs * 2 ^ 1074)) := by
  obtain ⟨hxn, hxi⟩ := not_special hx
  obtain ⟨hyn, hyi⟩ := not_special hy
  simp only [add, hxn, hxi, hyn, hyi, signOf_eq, signedOf_eq, Bool.or_self, Bool.false_eq_true, if_false]

/-- A decimal value with an exponent that is not negative is whole. -/
theorem ofDecimal_natCast (n : Bool) (m k : Nat) : ofDecimal n m k = ofRatio n (m * 10 ^ k) 1 := by
  simp [ofDecimal]

/-- A decimal value with an exponent that is not positive is a quotient. -/
theorem ofDecimal_neg_natCast (n : Bool) (m k : Nat) : ofDecimal n m (-k) = ofRatio n m (10 ^ k) := by
  simp [ofDecimal]

/-- A quotient, rounded, is nearest to the exact one (30_encoding R109; log 18). -/
theorem nearest_ofRatio (n : Bool) (a : Nat) {b : Nat} (hb : 0 < b) : nearest n (a * 2 ^ 2148) b (ofRatio n a b) :=
  nearest_stickyQuot n _ hb

end Sys2Proof.Machine.F64

open Sys2Proof.Machine Sys2Proof.Claims

/-- Settles O54: each operation rounds its exact magnitude once, and a quotient is cut before. -/
theorem finiteArithmeticRoundsToNearest : Obligations.FiniteArithmeticRoundsToNearest := by
  refine ⟨fun x y => F64.nearest_mul, fun x y hx hy => ⟨fun hne => ?_, fun h0 => ?_⟩, fun x => F64.nearest_roundMag false _,
    fun n a b hb => F64.nearest_ofRatio n a (Nat.pos_of_ne_zero hb), fun n m k => ⟨?_, ?_⟩⟩
  · rw [F64.add_finite hx hy, if_neg hne]
    exact F64.nearest_roundMag _ _
  · rw [F64.add_finite hx hy, if_pos h0]
    cases signOf x <;> cases signOf y <;> rfl
  · rw [F64.ofDecimal_natCast]
    exact F64.nearest_ofRatio n _ Nat.one_pos
  · rw [F64.ofDecimal_neg_natCast]
    exact F64.nearest_ofRatio n m (Nat.pow_pos (by omega))

end

section
/-! PROOFS. Issue and commit of a command: the CMD write, the busy rule, the commit around a body, and that a pending command commits. -/

namespace Sys2Proof.Machine

open Sys2Proof.Claims

/-! ### Issue (40_command_dispatch R131, R134) -/

/-- A step that writes CMD, while nothing is pending. -/
theorem step_writeCmd {s : State} {d : Word} {rest : List Event} (hr : s.rst = false) (hp : s.pending = none)
    (hs : s.schedule = .write 0x014 d 0b1111 :: rest) :
    step s = .next { s with
      pending := some d, status := { s.status with done := false }, schedule := rest, freeCount := s.freeCount + 1 } :=
  step_writeGlobal (r := .cmd) hr hp rfl hs

/-- A step that writes, while a command is pending. -/
theorem step_write_busy {s : State} {w : Word} {a : BusAddr} {d : Word} {be : BitVec 4} {rest : List Event} (hr : s.rst = false)
    (hp : s.pending = some w) (hs : s.schedule = .write a d be :: rest) :
    step s = .next (State.overrun { s with schedule := rest }).tick := by
  rw [step_cons hs, State.runEvent, State.hostWrite_busy (s := { s with schedule := rest }) hr hp]

/-! ### Commit (40_command_dispatch R133, R141) -/

/-- A step that commits a word that decodes is the commit around its body. -/
theorem step_commit_of_ok {s : State} {w : Word} {i : Instr} {rest : List Event} (h : engineNext s rest) (hp : s.pending = some w)
    (hd : decodeCmd w = .ok i) : step s = committing (exec i { s with schedule := rest }) :=
  (step_engineNext h hp).trans (State.commit_of_ok hd)

/-- A commit ends with PENDING none and DONE set, or its body faults: no body is refused. -/
theorem State.commit_ends (s : State) (w : Word) :
    (∃ t, s.commit w = .next (commitOf t)) ∨ ∃ r, s.commit w = .fault r := by
  cases hd : decodeCmd w with
  | error e => exact .inl ⟨_, State.commit_of_error hd⟩
  | ok i =>
    rw [State.commit_of_ok hd]
    rcases exec_stops i s with ⟨t, e⟩ | ⟨-, -, r, -, -, e⟩ <;> rw [e]
    · exact .inl ⟨t, rfl⟩
    · exact .inr ⟨r, rfl⟩

/-- Where no reset is scheduled, the schedule is host accesses up to the engine's turn: the first entry that is none of them, or the
schedule's end. -/
theorem State.noReset.accesses_before_engine {s : State} (h : s.noReset) :
    ∃ es rest, s.schedule = es ++ rest ∧ (∀ e, e ∈ es → access e = true) ∧ (rest = [] ∨ ∃ rest', rest = .engine :: rest') := by
  refine ⟨s.schedule.takeWhile access, s.schedule.dropWhile access, List.takeWhile_append_dropWhile.symm,
    fun e he => List.mem_takeWhile_imp he, ?_⟩
  cases hd : s.schedule.dropWhile access with
  | nil => exact .inl rfl
  | cons e rest =>
    have hnot : access e = false := by simpa [hd] using List.head?_dropWhile_not access s.schedule
    have hmem : e ∈ s.schedule := (List.dropWhile_suffix access).subset (hd ▸ List.mem_cons_self)
    obtain ⟨h1, h2, h3⟩ := h e hmem
    cases e with
    | engine => exact .inr ⟨rest, rfl⟩
    | read | write => cases hnot
    | assertRst => exact absurd rfl h1
    | releaseRst => exact absurd rfl h2
    | powerOn => exact absurd rfl h3

end Sys2Proof.Machine

open Sys2Proof Sys2Proof.Machine Sys2Proof.Claims

/-- Settles O15: the steps before the engine's turn are host accesses, which keep the command pending, and the turn commits it. -/
theorem pendingCommandEventuallyCommits : Obligations.PendingCommandEventuallyCommits := by
  intro s w hp hr hn
  obtain ⟨es, rest, hs, hes, hrest⟩ := hn.accesses_before_engine
  obtain ⟨x, hrun⟩ := run_accesses hr hp hs hes
  have hturn : ∃ rest', engineNext (State.withTrace { s with schedule := rest } x) rest' := by
    rcases hrest with rfl | ⟨rest', rfl⟩
    · exact ⟨[], hr, .inr ⟨rfl, rfl⟩⟩
    · exact ⟨rest', hr, .inl rfl⟩
  obtain ⟨rest', he⟩ := hturn
  have hcommit := hrun.trans (step_engineNext he hp)
  refine ⟨es.length + 1, by simp [hs], ?_⟩
  rcases State.commit_ends _ w with ⟨t, e⟩ | ⟨r, e⟩
  · exact .inl ⟨commitOf t, hcommit.trans e, rfl, rfl⟩
  · exact .inr ⟨r, hcommit.trans e⟩

/-- Settles O10: the engine's turn is a commit, and a commit of a word that decodes is the one around its body. -/
theorem stepRunsDecodedCommand : Obligations.StepRunsDecodedCommand := fun _ _ _ _ => step_commit_of_ok

/-- Settles O13: CMD is mapped, and an accepted write to it issues the word. -/
theorem acceptedCommandWriteIssues : Obligations.AcceptedCommandWriteIssues :=
  fun _ _ _ hr hp hs => ⟨_, step_writeCmd hr hp hs, rfl, rfl⟩

/-- Settles O17: the busy rule comes before every check of the access. -/
theorem busyWriteOnlySetsOverrun : Obligations.BusyWriteOnlySetsOverrun := fun _ _ _ _ _ _ => step_write_busy

/-- Settles O40: the body of NOP is the identity; in the example of R138 the CMD write issues a NOP and the next step commits it. -/
theorem nopDoesNothing : Obligations.NopDoesNothing := by
  have hnop : decodeCmd 0x00000F00 = .ok (.nop 15 0) := rfl
  refine ⟨fun ch idx s => rfl, ?_⟩
  have hissue := step_writeCmd (s := { State.reset with schedule := [.write 0x014 0x00000F00 0b1111] }) rfl rfl rfl
  exact ⟨_, (run_next hissue 1).trans ((run_one _).trans (step_commit_of_ok ⟨rfl, .inr ⟨rfl, rfl⟩⟩ rfl hnop)), by decide⟩

end

section
/-! PROOFS. Frame ingress: a pushed frame that fails a pre-check, one that no filter accepts, the route, and what a pushed frame leaves alone. -/

namespace Sys2Proof.Machine

open Sys2Proof.Claims

/-- An instruction that pushes a frame ends as a pushed frame of some sound class does (41_frame_ingress R150; log 13). -/
theorem exec_of_pushes {i : Instr} (h : pushes i = true) (s : State) : ∃ v, s.ClassSound v ∧ exec i s = .next (s.pushClass v) := by
  cases i with
  | nop | endCapture | chReset | resetChannels | decode | extract => cases h
  | pushFrame => exact ⟨_, s.classify_sound, rfl⟩
  | sf dl => exact ⟨_, s.classSf_sound dl, rfl⟩
  | ff dl => exact ⟨_, s.classFf_sound dl, rfl⟩
  | cf sn => exact ⟨_, s.classCf_sound sn, rfl⟩
  | pciRsv3 | pciRsv47 | pciRsv8F => exact ⟨_, s.classReserved_sound, rfl⟩

/-- A saturating increment, as a number (00_scope R13). -/
@[simp] theorem toNat_satInc (x : BitVec 16) : (satInc x).toNat = min (x.toNat + 1) 0xFFFF := by
  rw [satInc, BitVec.toNat_ofNat, Nat.mod_eq_of_lt (by omega)]

/-! ### The pre-checks (41_frame_ingress R152) -/

/-- The first pre-check that fails in the statements is the one that the model's `precheck` answers. -/
theorem precheckFails_iff {s : State} {p : RejectDetail} : precheckFails s p ↔ p ≠ .none ∧ s.precheck = p := by
  cases p with
  | none => simp [precheckFails]
  | lenGt8 => simp [precheckFails, s.precheck_lenGt8_iff]
  | idRange => simp [precheckFails, s.precheck_idRange_iff]
  | noTa => simp [precheckFails, s.precheck_noTa_iff]

/-- A frame that fails a pre-check is rejected with it (41_frame_ingress R154). -/
theorem State.pushClass_of_precheckFails {s : State} {p : RejectDetail} (h : precheckFails s p) (v : FrameClass) :
    s.pushClass v = s.reject p := by
  obtain ⟨hne, rfl⟩ := precheckFails_iff.1 h
  exact s.pushClass_reject v hne

/-- A frame that a channel accepts is not counted (41_frame_ingress R150). -/
theorem State.acceptFrame_counters (s : State) (c : Nat) {v : FrameClass} (hv : s.ClassSound v) :
    (s.acceptFrame c v).counters = s.counters := by
  rw [s.acceptFrame_frame c hv]

/-! ### The route (41_frame_ingress R155) -/

/-- The model's filter refuses exactly where one of the three conditions fails. -/
theorem accepts_eq_false_iff {s : State} {c : Nat} : s.accepts (s.ch c) = false ↔ ¬ filterMatches s c := by
  rw [← accepts_iff_filterMatches, Bool.not_eq_true]

/-- A frame has no route exactly where no channel's filter accepts it. -/
theorem State.route_eq_none_iff {s : State} : s.route = none ↔ ∀ c, c < s.numChannels → ¬ filterMatches s c := by
  simp only [s.route_none, accepts_eq_false_iff]

/-- The route is the lowest-numbered channel whose filter accepts the frame. -/
theorem State.route_eq_some_iff {s : State} {c : Nat} :
    s.route = some c ↔ c < s.numChannels ∧ filterMatches s c ∧ ∀ d, d < c → ¬ filterMatches s d := by
  simp only [← accepts_iff_filterMatches, Bool.not_eq_true]
  exact ⟨s.route_some, fun ⟨hc, ha, hd⟩ => s.route_of hc ha hd⟩

/-! ### Memory (20_memory R61) -/

/-- An accepted frame stores bytes of its channel's payload buffer alone: a single or first frame stores at most 8, and a consecutive frame's
bytes end at TOTAL (42_reassembly R172, R184). -/
theorem State.acceptFrame_read?_outside {s : State} {c : Nat} {v : FrameClass} (hv : s.ClassSound v) (hp : s.precheck = .none) {a : Nat}
    (ha : a < bufAddr c 0 ∨ bufAddr c 0 + 4096 ≤ a) : (s.acceptFrame c v).mem.read? a = s.mem.read? a := by
  have hn := s.n_le hp
  rcases s.acceptFrame_cases c hv with ⟨-, h⟩ | ⟨e, -, -, h⟩ | ⟨x, -, rfl, h⟩ | ⟨l, -, -, h⟩ | ⟨-, -, h⟩ <;> rw [h]
  · rfl
  · obtain ⟨-, hx⟩ := hv.sf x rfl
    rw [s.startSingle_read?, if_neg (by omega)]
  · rw [s.startMulti_read?, if_neg (by omega)]
  · have hlen := (s.ch c).len.isLt
    have htotal := (s.ch c).total.isLt
    rw [s.continueMulti_read?, bufAddr_eq, if_neg (by unfold State.cfCount; omega)]

end Sys2Proof.Machine

open Sys2Proof.Machine Sys2Proof.Claims

/-- Settles O30: the frame is rejected with the pre-check it fails; one that fails none is dropped or accepted, and neither counts a reject. -/
theorem rejectedFrameIsOnlyCounted : Obligations.RejectedFrameIsOnlyCounted := by
  intro i s hi
  obtain ⟨v, hv, he⟩ := exec_of_pushes hi s
  refine ⟨fun p hp => ?_, fun hp => ⟨_, he, ?_⟩⟩
  · rw [State.pushClass_of_precheckFails hp] at he
    exact ⟨s.reject p, he, rfl, toNat_satInc _, rfl, rfl⟩
  · rcases s.pushClass_cases v with ⟨hf, -⟩ | ⟨-, -, e⟩ | ⟨c, -, -, -, e⟩
    · exact absurd ((precheck_none_iff_not_fails s).2 hp) hf
    · rw [e]
      exact ⟨rfl, rfl⟩
    · rw [e, s.acceptFrame_counters c hv]
      exact ⟨rfl, rfl⟩

/-- Settles O31: the frame passes the pre-checks and has no route. -/
theorem unmatchedFrameIsOnlyDropped : Obligations.UnmatchedFrameIsOnlyDropped := by
  intro i s hi hp hm
  obtain ⟨v, -, he⟩ := exec_of_pushes hi s
  rw [s.pushClass_drop v ((precheck_none_iff_not_fails s).2 hp) (State.route_eq_none_iff.2 hm)] at he
  exact ⟨s.dropFrame, he, rfl, toNat_satInc _, rfl, rfl⟩

/-- Settles O32: the search for the first channel that accepts the frame, with the model's filter as the three conditions. -/
theorem routeIsTheLowestMatchingChannel : Obligations.RouteIsTheLowestMatchingChannel :=
  fun _ => ⟨fun _ => State.route_eq_some_iff, State.route_eq_none_iff⟩

/-- Settles O39: a rejected or dropped frame changes the counters alone, an accepted one its channel and that channel's buffer. -/
theorem pushedFrameTouchesOneChannelOnly : Obligations.PushedFrameTouchesOneChannelOnly := by
  intro i s hi
  obtain ⟨v, hv, he⟩ := exec_of_pushes hi s
  refine ⟨_, he, ?_⟩
  rcases s.pushClass_cases v with ⟨-, e⟩ | ⟨-, -, e⟩ | ⟨c, hp, hr, -, e⟩ <;> rw [e]
  · exact ⟨rfl, rfl, fun _ _ => rfl, fun _ _ => rfl⟩
  · exact ⟨rfl, rfl, fun _ _ => rfl, fun _ _ => rfl⟩
  · have hc : routedTo s c := routedTo_of_route hp hr
    refine ⟨?_, s.acceptFrame_numChannels c hv, fun d hd => ?_, fun a ha => State.acceptFrame_read?_outside hv hp (ha c hc)⟩
    · rw [s.acceptFrame_frame c hv]
    · exact s.acceptFrame_ch_ne hv fun hdc => hd (hdc ▸ hc)

end

section
/-! PROOFS. Reassembly: a consecutive frame that is expected, frames that their channel's state does not expect, a Failed channel, and the
commands that end or reset channels. -/

namespace Sys2Proof.Machine

open Sys2Proof.Claims

/-! ### The classes of frames that are not malformed (42_reassembly R176) -/

/-- A single frame with a length in it is not malformed: it is short, or whole. -/
theorem classifySf_of_ne_zero {dl : BitVec 4} {n : Nat} (hn : n ≠ 0) (hdl : dl.toNat ≠ 0) :
    classifySf dl n = if n - 1 < dl.toNat then .sfShort else .sf dl.toNat := by
  rw [classifySf, if_neg hn, if_neg hdl]

/-- A first frame of two transport bytes, whose length no single frame carries (42_reassembly R178) and the capacity holds. -/
theorem classifyFf_of_bounds {dl : BitVec 12} {n k cap : Nat} (hn : 2 ≤ n) (hmin : 7 - k < dl.toNat) (hcap : dl.toNat ≤ cap) :
    classifyFf dl n k cap = .ff dl.toNat := by
  rw [classifyFf, if_neg (by omega), if_neg (by omega), if_neg (by omega), if_neg (by omega), if_neg (by omega)]

/-- A consecutive frame with a transport byte. -/
theorem classifyCf_of_ne_zero {sn : BitVec 4} {n : Nat} (hn : n ≠ 0) : classifyCf sn n = .cf sn := if_neg hn

/-! ### The cells that store nothing (42_reassembly R171) -/

variable {s : State} {c : Nat}

/-- A Failed channel ignores every frame (42_reassembly R177). -/
theorem State.acceptFrame_of_failed (h : (s.ch c).state = .failed) (v : FrameClass) : s.acceptFrame c v = s := by
  rw [State.acceptFrame, h]

/-- A new message interrupts one in progress (42_reassembly R187). -/
theorem State.acceptFrame_interrupted (h : (s.ch c).state = .assembling) {v : FrameClass} (hm : ∀ e, v ≠ .mal e)
    (hc : ∀ sn, v ≠ .cf sn) : s.acceptFrame c v = failed s c .interrupted := by
  rw [State.acceptFrame, h]
  cases v with
  | mal e => exact absurd rfl (hm e)
  | cf sn => exact absurd rfl (hc sn)
  | sf | sfShort | ff => rfl

/-- A frame that is not malformed comes too late for a Complete channel (42_reassembly R188). -/
theorem State.acceptFrame_late (h : (s.ch c).state = .complete) {v : FrameClass} (hm : ∀ e, v ≠ .mal e) :
    s.acceptFrame c v = failed s c .afterComplete := by
  rw [State.acceptFrame, h]
  cases v with
  | mal e => exact absurd rfl (hm e)
  | sf | sfShort | ff | cf => rfl

/-- A short single frame fails the channel that waits for a message (42_reassembly R180). -/
theorem State.acceptFrame_sfShort (h : (s.ch c).state = .awaitingFirst) : s.acceptFrame c .sfShort = failed s c .sfShort := by
  rw [State.acceptFrame, h]; rfl

/-- A consecutive frame before any first frame (42_reassembly R183). -/
theorem State.acceptFrame_cfUnexpected (h : (s.ch c).state = .awaitingFirst) (sn : BitVec 4) :
    s.acceptFrame c (.cf sn) = failed s c .cfUnexpected := by
  rw [State.acceptFrame, h]; rfl

/-- A consecutive frame with another SN than the expected one (42_reassembly R186). -/
theorem State.acceptFrame_badSn (h : (s.ch c).state = .assembling) {sn : BitVec 4} (hsn : sn ≠ (s.ch c).nextSeq) :
    s.acceptFrame c (.cf sn) = failed s c .badSn := by
  rw [State.acceptFrame, h]
  exact if_neg hsn

/-! ### The cell that appends (42_reassembly R184, R185) -/

/-- A consecutive frame with the expected SN continues the message. -/
theorem State.acceptFrame_cf (h : (s.ch c).state = .assembling) : s.acceptFrame c (.cf (s.ch c).nextSeq) = s.continueMulti c := by
  rw [State.acceptFrame, h]
  exact if_pos rfl

/-- What `m` more bytes that LEN can count do to a channel: LEN and the counter advance, the channel is Complete exactly where LEN reaches
TOTAL, and every other register is kept. LEN above TOTAL, which no sound state has, is covered too. -/
theorem Channel.advance_spec (x : Channel) {m : Nat} (hm : x.len.toNat + m < 4096) :
    (x.advance m).len.toNat = x.len.toNat + m ∧ (x.advance m).nextSeq.toNat = (x.nextSeq.toNat + 1) % 16 ∧
    (x.len.toNat + m = x.total.toNat → (x.advance m).state = .complete ∧ (x.advance m).event = true) ∧
    (x.len.toNat + m ≠ x.total.toNat → (x.advance m).state = x.state ∧ (x.advance m).event = x.event) ∧
    x.advance m = { x with
      len := (x.advance m).len, nextSeq := (x.advance m).nextSeq, state := (x.advance m).state, event := (x.advance m).event } := by
  have hlen : (BitVec.ofNat 12 (x.len.toNat + m)).toNat = x.len.toNat + m := by
    rw [BitVec.toNat_ofNat, Nat.mod_eq_of_lt hm]
  have hseq : (x.nextSeq + 1).toNat = (x.nextSeq.toNat + 1) % 16 := BitVec.toNat_add _ _
  unfold Channel.advance
  split_ifs with hfull
  · exact ⟨hlen, hseq, fun _ => ⟨rfl, rfl⟩, fun h => absurd hfull h, rfl⟩
  · exact ⟨hlen, hseq, fun h => absurd h hfull, fun _ => ⟨rfl, rfl⟩, rfl⟩

/-- LEN can count what a consecutive frame contributes, in every state: it ends at TOTAL, or nothing is contributed. -/
theorem State.len_add_cfCount_lt (s : State) (c : Nat) : (s.ch c).len.toNat + s.cfCount c < 4096 := by
  have hlen := (s.ch c).len.isLt
  have htotal := (s.ch c).total.isLt
  unfold State.cfCount
  omega

/-! ### The end of a capture, and resets (42_reassembly R193 to R197) -/

@[simp] theorem State.setChannels_map_numChannels (s : State) (f : Channel → Channel) :
    (s.setChannels (s.channels.map f)).numChannels = s.numChannels := List.length_map f

/-- The end of a capture fails a channel with a message in progress and no other. -/
theorem Channel.endCapture_eq (x : Channel) :
    x.endCapture = if x.state = .assembling then { x with state := .failed, err := .endOfCapture, event := true } else x := by
  rw [Channel.endCapture]
  cases x.state <;> rfl

/-- A channel that the end of a capture has visited has no message in progress. -/
theorem Channel.endCapture_state_ne (x : Channel) : x.endCapture.state ≠ .assembling := by
  rw [x.endCapture_eq]
  split_ifs with h
  · exact nofun
  · exact h

/-- A second end of a capture has no effect (42_reassembly R194). -/
theorem Channel.endCapture_endCapture (x : Channel) : x.endCapture.endCapture = x.endCapture := by
  rw [x.endCapture.endCapture_eq, if_neg x.endCapture_state_ne]

/-- The payload window of a channel with LEN 0 reads 0 (20_memory R72). -/
theorem State.windowByte_of_len_zero (h : (s.ch c).len = 0) (i : Nat) : s.windowByte c i = 0 := by
  rw [State.windowByte, h]
  exact if_neg (Nat.not_lt_zero i)

end Sys2Proof.Machine

open Sys2Proof.Machine Sys2Proof.Claims

/-- Settles O35: the frame is its channel's expected one, which stores from LEN on and advances the channel. -/
theorem consecutiveFrameAppends : Obligations.ConsecutiveFrameAppends := by
  rintro i sn s c hi hr hs hn rfl
  obtain ⟨hch, hbuf, hst⟩ := stored_setChan hr.2.1 (s.ch c).len.toNat 1 (s.cfCount c) (rfl : s.continueMulti c = _)
  obtain ⟨hlen, hseq, hfull, hpart, hkeep⟩ := (s.ch c).advance_spec (s.len_add_cfCount_lt c)
  have he : exec i s = .next (s.continueMulti c) := by
    rw [exec_routed hi hr rfl, classifyCf_of_ne_zero (by omega), State.acceptFrame_cf hs]
  rw [← hch] at hlen hseq hfull hpart hkeep
  rw [hs] at hpart
  exact ⟨_, he, hlen, hseq, hfull, hpart, hkeep, hbuf, hst⟩

/-- Settles O37: the class of a frame that is not malformed, and the cell of its class in the channel's state. -/
theorem unexpectedFrameFailsWithItsDetail : Obligations.UnexpectedFrameFailsWithItsDetail := by
  intro i s c hr hn
  refine ⟨fun dl hi hdl => ?_, fun dl hi h2 hmin hcap => ?_, fun sn hi => ?_⟩
  · rw [exec_routed hi hr rfl, classifySf_of_ne_zero hn hdl]
    refine ⟨fun ⟨hs, hlt⟩ => ?_, fun hs => ?_, fun hs => ?_⟩
    · rw [if_pos hlt, State.acceptFrame_sfShort hs]
    · split_ifs <;> exact congrArg _ (State.acceptFrame_interrupted hs nofun nofun)
    · split_ifs <;> exact congrArg _ (State.acceptFrame_late hs nofun)
  · rw [exec_routed hi hr rfl, classifyFf_of_bounds h2 hmin hcap]
    exact ⟨fun hs => congrArg _ (State.acceptFrame_interrupted hs nofun nofun),
      fun hs => congrArg _ (State.acceptFrame_late hs nofun)⟩
  · rw [exec_routed hi hr rfl, classifyCf_of_ne_zero hn]
    exact ⟨fun hs => congrArg _ (State.acceptFrame_cfUnexpected hs sn), fun ⟨hs, hsn⟩ => congrArg _ (State.acceptFrame_badSn hs hsn),
      fun hs => congrArg _ (State.acceptFrame_late hs nofun)⟩

/-- Settles O41: each channel by its state, and a second END_CAPTURE finds none in Assembling. -/
theorem endCaptureFailsUnfinishedChannels : Obligations.EndCaptureFailsUnfinishedChannels := by
  intro ch idx s
  refine ⟨s.setChannels (s.channels.map Channel.endCapture), rfl, rfl, s.setChannels_map_numChannels _, fun c hc => ?_, rfl, ?_⟩
  · rw [s.ch_map _ c hc, Channel.endCapture_eq]
  · have hmap : (s.channels.map Channel.endCapture).map Channel.endCapture = s.channels.map Channel.endCapture := by
      simp only [List.map_map, Function.comp_def, Channel.endCapture_endCapture]
    exact congrArg (fun cs => Host.Outcome.next (s.setChannels cs)) hmap

/-- Settles O42: the channel exists, so the body runs; its LEN is 0, so its window reads 0. -/
theorem chResetClearsItsChannel : Obligations.ChResetClearsItsChannel := by
  intro ch idx s hc
  have hch := s.ch_setChan_self ch.toNat (s.ch ch.toNat).clear hc
  refine ⟨s.setChan ch.toNat (s.ch ch.toNat).clear, if_pos hc, rfl, s.setChan_numChannels _ _, hch,
    fun d hd => s.ch_setChan_ne _ d _ hd, State.windowByte_of_len_zero (congrArg Channel.len hch)⟩

/-- Settles O43: the clear of one channel, mapped over all. -/
theorem resetChannelsClearsEveryChannel : Obligations.ResetChannelsClearsEveryChannel :=
  fun _ _ s => ⟨s.setChannels (s.channels.map Channel.clear), rfl, rfl, s.setChannels_map_numChannels _, fun c hc => s.ch_map _ c hc⟩

/-- Settles O38: the frame passes the pre-checks and is routed, and its Failed channel ignores it. -/
theorem failedChannelIgnoresFrames : Obligations.FailedChannelIgnoresFrames := by
  intro i s c hi hr hs
  obtain ⟨v, -, he⟩ := exec_of_pushes hi s
  obtain ⟨hp, hroute⟩ := route_of_routedTo hr
  rw [he, s.pushClass_accept v hp hroute, State.acceptFrame_of_failed hs]

end

section
/-! PROOFS. EXTRACT, the value of a field inside one byte, and DECODE of an EnumMap signal. -/

namespace Sys2Proof.Machine

open Sys2Proof.Claims

/-! ### The field (43_signal_decode R224) -/

/-- Bit `t` of a byte, as a number. -/
theorem byte_getLsbD_toNat (b : Byte) (t : Nat) : (b.getLsbD t).toNat = b.toNat / 2 ^ t % 2 := by
  rw [BitVec.getLsbD, Nat.toNat_testBit]

/-- A field inside one byte is that byte shifted down and cut to the field's length (43_signal_decode R224). -/
theorem extractField_of_one_byte (s : State) (c off : Nat) {len : Nat} (h : off % 8 + len ≤ 8) :
    s.extractField c off len = (s.buf c (off / 8)).toNat / 2 ^ (8 - off % 8 - len) % 2 ^ len := by
  unfold State.extractField
  induction len with
  | zero => rw [pow_zero, Nat.mod_one]; rfl
  | succ n ih =>
    have hbyte : (off + n) / 8 = off / 8 := by omega
    have hbit : 7 - (off + n) % 8 = 8 - off % 8 - (n + 1) := by omega
    have hshift : 8 - off % 8 - n = 8 - off % 8 - (n + 1) + 1 := by omega
    rw [msbFirst, ih (by omega), State.pbit, hbyte, hbit, hshift, byte_getLsbD_toNat, pow_succ, ← Nat.div_div_eq_div_mul, pow_succ',
      Nat.mod_mul]
    omega

/-! ### The lookup (43_signal_decode R230, R231, R233) -/

section
variable {s : State} {d : Nat → Word} {raw j : Nat} {l : Word}

/-- A label is the implemented bits of its LUT word (10_state R52). -/
theorem lutWord_label (h : s.mem.word? (lutAddr j 1) = some l) :
    ∃ w, s.lutWord j 1 = .ok w ∧ w.extractLsb' 0 16 = BitVec.ofNat 16 l.toNat := by
  refine ⟨l &&& lutMask 1, s.ramWord_of _ h, ?_⟩
  rw [extract_mask l (lutMask 1) 0 16 (by decide)]
  exact BitVec.eq_of_toNat_eq (by simp)

/-- The range of the lookup is the descriptor's (30_encoding R102). -/
theorem lookup_range : s.lookup raw (d9LutBase (d 9 &&& descMask 9)) (d9LutCount (d 9 &&& descMask 9)) =
    s.lookup raw (dLutBase d) (dLutCount d) := by
  rw [d9LutBase_mask, d9LutCount_mask, d9LutBase_eq, d9LutCount_eq]

variable {c i : Nat} {d9 w : Word}

/-- The EnumMap outcome of a key that is found. -/
theorem enumResult_of_match (h9 : s.descWord i 9 = .ok d9) (hl : s.lookup raw (d9LutBase d9) (d9LutCount d9) = .ok (some j))
    (hw : s.lutWord j 1 = .ok w) : s.enumResult c i raw = .ok (s.mkResult c .okLabel raw 0 (w.extractLsb' 0 16)) := by
  simp only [State.enumResult, h9, hl, hw]

/-- The EnumMap outcome of a key that is not found. -/
theorem enumResult_of_unmapped (h9 : s.descWord i 9 = .ok d9) (hl : s.lookup raw (d9LutBase d9) (d9LutCount d9) = .ok none) :
    s.enumResult c i raw = .ok (s.mkResult c .unmappedEnum raw 0 0) := by
  simp only [State.enumResult, h9, hl]

end

end Sys2Proof.Machine

open Sys2Proof.Machine Sys2Proof.Claims

/-- Settles O45: the sum and the bound are the field's, and inside one byte the bits are that byte's. -/
theorem extractedFieldIsMsbFirst : Obligations.ExtractedFieldIsMsbFirst := fun s c off len =>
  ⟨extractField_eq_fieldSum s c off len, s.extractField_lt c off len, extractField_of_one_byte s c off⟩

/-- Settles O44: the channel exists, so the body runs; its two checks and then the field. -/
theorem extractGivesTheField : Obligations.ExtractGivesTheField := by
  intro ch idx s hc
  have hrun : exec (.extract ch idx) s = .next (s.setResult (s.extractResult ch.toNat)) := if_pos hc
  rw [hrun, ← extractField_eq_fieldSum]
  refine ⟨fun hs => ?_, fun hs hoob => ?_, fun hs hin => ?_⟩
  · rw [State.extractResult, if_pos hs]; rfl
  · rw [State.extractResult, if_neg (not_not.2 hs), if_pos hoob]; rfl
  · rw [State.extractResult, if_neg (not_not.2 hs), if_neg (not_lt.2 hin)]; rfl

/-- Settles O48: the lookup finds the first match and its label, or nothing. -/
theorem decodeOfEnumSignal : Obligations.DecodeOfEnumSignal := by
  intro ch idx s d key h hb he raw
  obtain ⟨h9, hdec⟩ := decodeSignal_of_enum h hb he
  refine ⟨fun j l h1 h2 hkeys hmatch hfirst hl => ?_, fun hnone => ?_⟩
  · have hlook : s.lookup raw (dLutBase d) (dLutCount d) = .ok (some j) := by
      refine s.lookup_some h1 h2 fun x hx hxj => ⟨key x, hkeys x hx hxj, fun hr => ?_, ?_⟩
      · by_contra hne
        exact hfirst x hx (by omega) hr
      · rintro rfl
        exact hmatch
    obtain ⟨w, hw, hlabel⟩ := lutWord_label hl
    rw [← hlabel]
    exact exec_decode_of_ok h (hdec.trans (enumResult_of_match h9 (lookup_range.trans hlook) hw))
  · have hlook := s.lookup_none fun x h1 h2 => ⟨key x, hnone x h1 h2⟩
    exact exec_decode_of_ok h (hdec.trans (enumResult_of_unmapped h9 (lookup_range.trans hlook)))

end

section
/-! PROOFS. binary64: the rounding of a magnitude, the exact conversions, and the special values. -/

namespace Sys2Proof.Machine.F64

open Sys2Proof.Claims

/-! ### Rounding (43_signal_decode R226) -/

/-- A rounded magnitude is at most infinity's pattern. -/
theorem roundMag_le (u : Nat) : roundMag u ≤ 2047 * 2 ^ 52 := min_le_right _ _

theorem roundMag_lt_two_pow (u : Nat) : roundMag u < 2 ^ 63 := lt_of_le_of_lt (roundMag_le u) (by norm_num)

/-- A significand of at most 53 bits is rounded to itself, at every exponent from the subnormals' on that does not overflow. -/
theorem mag_roundMag_of_significand (n : Bool) {m : Nat} (hm : m < 2 ^ 53) (f : Nat)
    (h : roundMag (m * 2 ^ f * 2 ^ 1074) < 2047 * 2 ^ 52) : mag (withSign n (roundMag (m * 2 ^ f * 2 ^ 1074))) = m * 2 ^ f := by
  have hnear := (roundQuot_dropBits_nearest (m * 2 ^ f * 2 ^ 1074) hm f).1
  rw [← mag_roundMag n h] at hnear
  unfold dist at hnear
  exact eq_of_mul_two_pow (n := 1074) (by omega)

/-! ### Patterns -/

/-- The statements' NaN is the model's. -/
theorem isNaN_iff (y : F64) : isNaN y = true ↔ nan y := by
  simp [isNaN, nan, finite, frac_eq]

/-- The fields of an infinity. -/
theorem inf_fields (n : Bool) : isNaN (inf n) = false ∧ isInf (inf n) = true ∧ isZero (inf n) = false ∧ neg (inf n) = n := by
  cases n <;> decide +kernel

theorem inf_toNat (n : Bool) : (inf n).toNat = n.toNat * 2 ^ 63 + 2047 * 2 ^ 52 := withSign_toNat n _ (by norm_num)

/-- A nearest value that is not finite is the infinity of its sign: the magnitude overflowed (43_signal_decode R227). -/
theorem eq_inf_of_nearest {n : Bool} {num den : Nat} {y : F64} (h : nearest n num den y) (hy : ¬ finite y) : y = inf n := by
  obtain ⟨hsign, hover, hfin⟩ := h
  have hpat := hover (not_lt.1 fun hlt => hy (hfin hlt).1)
  have hlt := y.isLt
  subst hsign
  apply BitVec.eq_of_toNat_eq
  rw [inf_toNat]
  by_cases h63 : 2 ^ 63 ≤ y.toNat
  · rw [signOf, decide_eq_true h63, Bool.toNat_true]
    omega
  · rw [signOf, decide_eq_false h63, Bool.toNat_false]
    omega

/-! ### Negation -/

theorem neg_xor_sign (x : F64) : neg (x ^^^ 0x8000000000000000) = !neg x := by
  simp [neg]

theorem expo_xor_sign (x : F64) : expo (x ^^^ 0x8000000000000000) = expo x := by
  simp [expo, BitVec.extractLsb'_xor]

theorem frac_xor_sign (x : F64) : frac (x ^^^ 0x8000000000000000) = frac x := by
  simp [frac, BitVec.extractLsb'_xor]

/-- The signed value of the negation is the negated one. -/
theorem toInt_xor_sign (x : F64) : toInt (x ^^^ 0x8000000000000000) = -toInt x := by
  have hmag : mag (x ^^^ 0x8000000000000000) = mag x := by rw [mag, mag, expo_xor_sign, frac_xor_sign]
  rw [toInt, toInt, neg_xor_sign, hmag]
  cases neg x <;> simp

/-! ### Special operands (43_signal_decode R227) -/

variable {x y : F64}

theorem mul_of_nan (h : nan x ∨ nan y) : mul x y = canonicalNaN := by
  rw [← isNaN_iff, ← isNaN_iff, ← Bool.or_eq_true] at h
  exact if_pos h

theorem add_of_nan (h : nan x ∨ nan y) : add x y = canonicalNaN := by
  rw [← isNaN_iff, ← isNaN_iff, ← Bool.or_eq_true] at h
  exact if_pos h

theorem nan_canonicalNaN : nan canonicalNaN := (isNaN_iff _).1 (by decide)

protected theorem mul_comm (x y : F64) : mul x y = mul y x := by
  simp only [mul, Bool.or_comm (isNaN x), Bool.or_comm (isInf x), Bool.or_comm (isZero x), Bool.xor_comm (neg x), Nat.mul_comm (mag x)]

/-- Infinity times a value that is neither NaN nor 0. -/
theorem inf_mul_of_ne_zero (n : Bool) (hy : ¬ nan y) (h0 : magnitude y ≠ 0) : mul (inf n) y = inf (n ^^ signOf y) := by
  obtain ⟨hn, hi, hz, hs⟩ := inf_fields n
  have hyn : isNaN y = false := Bool.eq_false_iff.2 (mt (isNaN_iff y).1 hy)
  have hyz : isZero y = false := by simpa [isZero, magnitude_eq] using h0
  simp [mul, hn, hi, hz, hs, hyn, hyz, signOf_eq]

/-- Infinity plus a finite value. -/
theorem inf_add_finite (n : Bool) (hy : finite y) : add (inf n) y = inf n ∧ add y (inf n) = inf n := by
  obtain ⟨hn, hi, -, hs⟩ := inf_fields n
  obtain ⟨hyn, hyi⟩ := not_special hy
  simp [add, hn, hi, hs, hyn, hyi]

/-- A sum of finite values that is not finite overflowed. -/
theorem add_overflow (hx : finite x) (hy : finite y) (h : ¬ finite (add x y)) :
    add x y = inf (decide (signedOf x + signedOf y < 0)) := by
  rw [add_finite hx hy] at h ⊢
  split_ifs at h ⊢ with h0
  · refine absurd ?_ h
    rw [finite, expo_withSign _ _ (by norm_num)]
    decide
  · exact eq_inf_of_nearest (nearest_roundMag _ _) h

/-- Zero times a finite value is a zero with the product's sign. -/
theorem zero_mul_finite (n : Bool) (hy : finite y) : mul (withSign n 0) y = withSign (n ^^ signOf y) 0 := by
  obtain ⟨hyn, hyi⟩ := not_special hy
  have h0 : isNaN (withSign n 0) = false ∧ isInf (withSign n 0) = false ∧ mag (withSign n 0) = 0 ∧ neg (withSign n 0) = n := by
    cases n <;> decide
  obtain ⟨hn, hi, hm, hs⟩ := h0
  have hr : roundMag 0 = 0 := by decide +kernel
  simp [mul, hn, hi, hm, hs, hyn, hyi, signOf_eq, hr]

/-- A finite value plus its negation. -/
theorem add_xor_sign (hx : finite x) : add x (x ^^^ 0x8000000000000000) = 0 := by
  have hy : finite (x ^^^ 0x8000000000000000) := by rwa [finite, expo_xor_sign]
  rw [add_finite hx hy, signedOf_eq, signedOf_eq, toInt_xor_sign, if_pos (add_neg_cancel _), signOf_eq, signOf_eq, neg_xor_sign,
    Bool.and_not_self]
  rfl

/-- A linear result is canonical where the sum is a NaN, and the sum elsewhere. -/
theorem linear_of_nan {raw : Nat} {scale offset : F64} (h : nan (add (mul (ofNat raw) scale) offset)) :
    linear raw scale offset = canonicalNaN := if_pos ((isNaN_iff _).2 h)

theorem linear_of_not_nan {raw : Nat} {scale offset : F64} (h : ¬ nan (add (mul (ofNat raw) scale) offset)) :
    linear raw scale offset = add (mul (ofNat raw) scale) offset := if_neg (mt (isNaN_iff _).1 h)

end Sys2Proof.Machine.F64

open Sys2Proof.Machine Sys2Proof.Claims

/-- Settles O51: rounding is at most infinity's pattern, and below it the rounded magnitude is a nearest one. -/
theorem roundingIsToNearestTiesToEven : Obligations.RoundingIsToNearestTiesToEven := by
  intro u
  have hle := F64.roundMag_le u
  have hover := F64.roundMag_lt_iff u
  refine ⟨by rw [← not_lt, ← hover]; omega, fun hlt y hy => ?_⟩
  obtain ⟨-, -, hfin⟩ := F64.nearest_roundMag false u
  obtain ⟨hnear, htie⟩ := (hfin (by rw [Nat.mul_one]; exact hover.1 hlt)).2 y hy
  simp only [F64.magnitude_eq, Nat.mul_one] at hnear htie
  refine ⟨hnear, fun h => (htie h).imp_right fun heven => ?_⟩
  rwa [F64.withSign_toNat _ _ (F64.roundMag_lt_two_pow u), Bool.toNat_false, Nat.zero_mul, Nat.zero_add] at heven

/-- Settles O52: a raw field below 2^53 is a significand, which is rounded to itself; the two examples are evaluated. -/
theorem rawConversionIsExactBelow53Bits : Obligations.RawConversionIsExactBelow53Bits := by
  refine ⟨fun raw hraw => ?_, by decide +kernel, by decide +kernel⟩
  have hu : raw * 2 ^ 2148 = raw * 2 ^ 1074 * 2 ^ 1074 := by rw [Nat.mul_assoc, ← pow_add]
  have h63 := F64.roundMag_lt_two_pow (raw * 2 ^ 2148)
  have hlt : F64.roundMag (raw * 2 ^ 2148) < 2047 * 2 ^ 52 := by
    rw [F64.roundMag_lt_iff, Nat.mul_lt_mul_right (Nat.two_pow_pos _)]
    omega
  refine ⟨?_, F64.neg_withSign false _ h63, ?_⟩
  · rw [finite, F64.ofNat, F64.expo_withSign _ _ h63]
    omega
  · rw [hu] at hlt
    rw [F64.ofNat, hu]
    exact F64.mag_roundMag_of_significand false hraw 1074 hlt

/-- Settles O53: a NaN, an infinity, an overflow and a zero, each by the lemma on it. -/
theorem specialValuesFollowIeee : Obligations.SpecialValuesFollowIeee := by
  refine ⟨fun raw scale offset h => ?_, fun raw scale offset h => F64.linear_of_nan ?_,
    fun x y h => ⟨F64.mul_of_nan h, F64.add_of_nan h⟩, by decide +kernel, by decide,
    fun n y hy h0 => ⟨F64.inf_mul_of_ne_zero n hy h0, (F64.mul_comm _ _).trans (F64.inf_mul_of_ne_zero n hy h0)⟩, by decide,
    fun n y hy => F64.inf_add_finite n hy,
    fun x y hx hy => ⟨F64.eq_inf_of_nearest (F64.nearest_mul hx hy), F64.add_overflow hx hy⟩, fun scale hf hs => ?_, by decide,
    fun x hx _ => F64.add_xor_sign hx⟩
  · by_cases hn : nan (F64.add (F64.mul (F64.ofNat raw) scale) offset)
    · exact F64.linear_of_nan hn
    · rw [F64.linear_of_not_nan hn] at h
      exact absurd h hn
  · rcases h with hs | ho
    · rw [F64.mul_of_nan (.inr hs), F64.add_of_nan (.inl F64.nan_canonicalNaN)]
      exact F64.nan_canonicalNaN
    · rw [F64.add_of_nan (.inr ho)]
      exact F64.nan_canonicalNaN
  · have h0 : F64.ofNat 0 = F64.withSign false 0 := by decide +kernel
    rw [h0, F64.zero_mul_finite false hf, hs]
    rfl

end

section
/-! PROOFS. The interrupt line, as a function of the words that the host reads. -/

namespace Sys2Proof.Machine

/-- Some channel has its event bit set, by the channel's number. -/
theorem State.any_event_iff (s : State) :
    s.channels.any (·.event) = true ↔ ∃ c < s.numChannels, (s.ch c).event = true := by
  rw [List.any_eq_true]
  constructor
  · rintro ⟨x, hx, he⟩
    obtain ⟨c, hc, rfl⟩ := List.getElem_of_mem hx
    exact ⟨c, hc, by rwa [← s.channels_getElem c hc]⟩
  · rintro ⟨c, hc, he⟩
    rw [← s.channels_getElem c hc] at he
    exact ⟨_, List.getElem_mem hc, he⟩

/-- CH_EVENT is not 0 when some channel has its event bit set: every channel has its bit in the word (10_state R29). -/
theorem State.chEventWord_ne_zero_iff (s : State) (hn : s.numChannels ≤ 16) :
    s.chEventWord ≠ 0 ↔ ∃ c < s.numChannels, (s.ch c).event = true := by
  have hbit := s.testBit_chEventWord hn
  constructor
  · intro h
    obtain ⟨c, hc⟩ := Nat.exists_testBit_of_ne_zero (mt (BitVec.eq_of_toNat_eq (y := 0#32)) h)
    exact ⟨c, of_decide_eq_true ((hbit c).symm.trans hc)⟩
  · rintro ⟨c, hc⟩ h0
    have hset := (hbit c).trans (decide_eq_true hc)
    rw [h0] at hset
    exact absurd hset (by simp)

end Sys2Proof.Machine

open Sys2Proof.Machine

/-- Settles O27: the line is the OR of five enabled bits, and CH_EVENT is not 0 exactly when some channel has its event bit set. -/
theorem interruptLineIsItsFunction : Obligations.InterruptLineIsItsFunction := by
  intro s hn
  have hev : s.chEventWord ≠ 0 ↔ s.channels.any (·.event) = true :=
    (s.chEventWord_ne_zero_iff hn).trans s.any_event_iff.symm
  rw [hev]
  simp only [State.irq, Bool.or_eq_true, Bool.and_eq_true, or_assoc]

end

section
/-! PROOFS. Host accesses while reset is asserted. -/

namespace Sys2Proof.Machine

/-- In reset, a read gives 0 to the port (70_reset_and_hazards R291). -/
theorem State.hostRead_inReset {s : State} (h : s.rst = true) (a : BusAddr) : s.hostRead a = s.setRdata 0 := if_pos h

/-- In reset, a write is ignored, before the busy rule and the checks of its address (70_reset_and_hazards R291). -/
theorem State.hostWrite_inReset {s : State} (h : s.rst = true) (a : BusAddr) (d : Word) (be : BitVec 4) : s.hostWrite a d be = s :=
  if_pos h

end Sys2Proof.Machine

open Sys2Proof.Machine

/-- Settles O2: the step of either access runs it on the state without its entry, which is in reset too. -/
theorem accessDuringResetHasNoEffect : Obligations.AccessDuringResetHasNoEffect := by
  refine fun s rest hr => ⟨fun a hs => ?_, fun a d be hs => ?_⟩
  · rw [step_cons hs, State.runEvent, State.hostRead_inReset (s := { s with schedule := rest }) hr]
    rfl
  · rw [step_cons hs, State.runEvent, State.hostWrite_inReset (s := { s with schedule := rest }) hr]
    rfl

end
